-- ==== Sys2Proof/Word.lean ====
section
/-! DEFINITION. The byte, the only unit of the IN and OUT spaces (00_scope.md R6, 20_memory.md R43). Every register of a width
the spec fixes is a `BitVec` of that width; the registers whose width follows from an open size (CUR, IN_LEN, OUT_LEN, SRC, OVF_BASE,
OVF_LEN) are natural numbers (R4). -/

namespace Sys2Proof

/-- A byte is 8 bits (R6). -/
abbrev Byte := BitVec 8

end Sys2Proof
end

