-- ==== Sys2Proof/Config.lean ====
section
/-! DEFINITION. What an implementation fixes (the open parameters of 92_eei_decisions.md) and the free values: what the registers
hold where the spec says "unspecified". A free value has no body, so nothing can be proved of it. -/

namespace Sys2Proof

/-- DESC_LAYOUT (R4, R62): the lowest bit of the 2-bit `shifter` field and of the 3-bit stored length field in the descriptor
byte. -/
structure DescLayout where
  shifterLo : Nat
  nlenLo : Nat
deriving DecidableEq, Repr

/-- The open parameters of R4 and 92_eei_decisions.md: IN_MAX and OUT_MAX in bytes (`none` is unbounded), and DESC_LAYOUT. -/
structure Params where
  inMax : Option Nat
  outMax : Option Nat
  layout : DescLayout
deriving DecidableEq, Repr

namespace Config

/-! Free values (notes/assumptions/5.md): what each register holds after fault entry (R180), ABORT (R149, U4) or a reset in mid-run
(R200). Each is a function of the whole state before that step, since a step is a function of the state (R154) and keeps no count of its
own (R35); no more is known of it. `before` has any type here because State is defined later. -/

opaque freeDesc {σ : Type} (before : σ) : BitVec 8
opaque freeShifter {σ : Type} (before : σ) : BitVec 2
opaque freeLenBits {σ : Type} (before : σ) : BitVec 3
opaque freeLenMask {σ : Type} (before : σ) : BitVec 8
opaque freeThreshold {σ : Type} (before : σ) : BitVec 5
opaque freeFw {σ : Type} (before : σ) : BitVec 9
opaque freeFc {σ : Type} (before : σ) : BitVec 25
opaque freeCarry {σ : Type} (before : σ) : Bool
opaque freeDist {σ : Type} (before : σ) : BitVec 16
opaque freeDisp {σ : Type} (before : σ) : BitVec 16
opaque freeLength {σ : Type} (before : σ) : BitVec 10
opaque freeSrc {σ : Type} (before : σ) : Nat
opaque freeRem {σ : Type} (before : σ) : BitVec 10
/-- The entry of the length table at `index`. -/
opaque freeLt {σ : Type} (before : σ) (index : Nat) : BitVec 10

end Config

end Sys2Proof
end

