-- ==== Sys2Proof/Syntax.lean ====
section
/-! DEFINITION. The thirteen operations of spec/opcode_table.json (30_encoding.md R70), each with the operand its format holds
(R61, R63 to R65, R67). Operands are the encoded fields as fetched: the descriptor byte whole, since where its fields stand is
the parameter DESC_LAYOUT (R62). -/

namespace Sys2Proof

/-- One operation, with its operand. -/
inductive Instr where
  /-- Host command `CMD.START` (R141). -/
  | start
  /-- Host command `CMD.ABORT` (R149). -/
  | abort
  /-- Format HDR (R61, R80): descriptor byte and 24-bit count. -/
  | header (desc : Byte) (count : BitVec 24)
  /-- Format FLG (R63, R102): eight flag bits, bit 0 used first. -/
  | flagfill (flags : Byte)
  /-- Takes one flag bit from the window (R101). -/
  | flagtake
  /-- Format LIT (R64, R110): the byte to append. -/
  | literal (value : Byte)
  /-- Format REF (R65, R120): the 16-bit distance field. -/
  | backref (dist : BitVec 16)
  /-- One byte of the copy loop (R126). -/
  | copy
  /-- The end of a decode step (R145). -/
  | count
  /-- Format RAW (R67, R146): a tail byte. -/
  | tailcopy (value : Byte)
  /-- The end of the tail (R147). -/
  | finish
  /-- Format RAW (R67, R151): a byte of a tiny input. -/
  | tinycopy (value : Byte)
  /-- The end of a tiny input (R152). -/
  | tinydone
deriving DecidableEq, Repr

end Sys2Proof
end

