-- ==== Sys2Proof/WellFormed.lean ====
section
/-! DEFINITION. Which terms are well formed. Operand widths are in the types; what remains is the table of illegal operand values
(30_encoding.md R69), all in format REF, which depend on the stream's LEN_BITS, and the sanity of the parameter DESC_LAYOUT. An
ill-formed REF still decodes and runs: it takes the fault the spec names. -/

namespace Sys2Proof

/-- `ixbit` of R65: bit LEN_BITS of the distance field, the one bit the index mask keeps. -/
def refIndexBit (lenBits : BitVec 3) (dist : BitVec 16) : Bool :=
  dist.getLsbD lenBits.toNat

/-- `disp` of R65: bits 15 down to LEN_BITS of the distance field. -/
def refDisplacement (lenBits : BitVec 3) (dist : BitVec 16) : Nat :=
  dist.toNat / 2 ^ lenBits.toNat

/-- The operand values R69 allows in a stream with this LEN_BITS whose output so far has `outLen` bytes. Every operand of every
other format is legal. -/
def Instr.wellFormed (lenBits : BitVec 3) (outLen : Nat) : Instr → Bool
  | .backref dist =>
    refIndexBit lenBits dist && refDisplacement lenBits dist != 0 && decide (refDisplacement lenBits dist ≤ outLen)
  | .start | .abort | .header _ _ | .flagfill _ | .flagtake | .literal _ | .copy | .count | .tailcopy _ | .finish
  | .tinycopy _ | .tinydone => true

/-- Both descriptor fields lie inside the byte and share no bit (R62: two fields of one byte). -/
def DescLayout.wellFormed (l : DescLayout) : Bool :=
  decide (l.shifterLo + 2 ≤ 8) && decide (l.nlenLo + 3 ≤ 8)
    && (decide (l.shifterLo + 2 ≤ l.nlenLo) || decide (l.nlenLo + 3 ≤ l.shifterLo))

end Sys2Proof
end

