-- ==== Sys2Proof/Decode.lean ====
section
/-! DEFINITION. Decoder and encoder. A stream item has no opcode bits: the engine's state says which operation the bytes at CUR
belong to (30_encoding.md R60), so the decoder takes that opcode and the bytes. Multi-byte fields are big-endian
(20_memory.md R44). -/

namespace Sys2Proof

/-- Which row of spec/opcode_table.json: the operation without its operand. -/
inductive Opcode where
  | start | abort | header | flagfill | flagtake | literal | backref | copy | count | tailcopy | finish | tinycopy | tinydone
deriving DecidableEq, Repr

/-- Why bytes do not decode: fewer bytes are there than the operation's format holds. -/
inductive DecodeError where
  | operandMissing (op : Opcode)
deriving DecidableEq, Repr

/-- The column "bytes consumed" of R70. -/
def Opcode.size : Opcode → Nat
  | .header => 4
  | .backref => 2
  | .flagfill | .literal | .tailcopy | .tinycopy => 1
  | .start | .abort | .flagtake | .copy | .count | .finish | .tinydone => 0

/-- `{hi, lo}` of R65 and R68: the byte at the lower address is the more significant. -/
def bigEndian16 (hi lo : Byte) : BitVec 16 := hi ++ lo

/-- `{IN[1], IN[2], IN[3]}` of R68. -/
def bigEndian24 (hi mid lo : Byte) : BitVec 24 := hi ++ mid ++ lo

/-- Reads the operand of `op` from the front of `bytes` and returns the operation with the bytes after it. -/
def decode (op : Opcode) (bytes : List Byte) : Except DecodeError (Instr × List Byte) :=
  match op with
  | .start => .ok (.start, bytes)
  | .abort => .ok (.abort, bytes)
  | .header =>
    match bytes with
    | desc :: hi :: mid :: lo :: rest => .ok (.header desc (bigEndian24 hi mid lo), rest)
    | _ => .error (.operandMissing .header)
  | .flagfill =>
    match bytes with
    | flags :: rest => .ok (.flagfill flags, rest)
    | [] => .error (.operandMissing .flagfill)
  | .flagtake => .ok (.flagtake, bytes)
  | .literal =>
    match bytes with
    | value :: rest => .ok (.literal value, rest)
    | [] => .error (.operandMissing .literal)
  | .backref =>
    match bytes with
    | hi :: lo :: rest => .ok (.backref (bigEndian16 hi lo), rest)
    | _ => .error (.operandMissing .backref)
  | .copy => .ok (.copy, bytes)
  | .count => .ok (.count, bytes)
  | .tailcopy =>
    match bytes with
    | value :: rest => .ok (.tailcopy value, rest)
    | [] => .error (.operandMissing .tailcopy)
  | .finish => .ok (.finish, bytes)
  | .tinycopy =>
    match bytes with
    | value :: rest => .ok (.tinycopy value, rest)
    | [] => .error (.operandMissing .tinycopy)
  | .tinydone => .ok (.tinydone, bytes)

/-- The row an operation stands in. -/
def Instr.opcode : Instr → Opcode
  | .start => .start
  | .abort => .abort
  | .header _ _ => .header
  | .flagfill _ => .flagfill
  | .flagtake => .flagtake
  | .literal _ => .literal
  | .backref _ => .backref
  | .copy => .copy
  | .count => .count
  | .tailcopy _ => .tailcopy
  | .finish => .finish
  | .tinycopy _ => .tinycopy
  | .tinydone => .tinydone

/-- The operand bytes of an operation in stream order, by its format (R61, R63 to R65, R67). -/
def encode : Instr → List Byte
  | .header desc count => [desc, count.extractLsb' 16 8, count.extractLsb' 8 8, count.extractLsb' 0 8]
  | .flagfill flags => [flags]
  | .literal value => [value]
  | .backref dist => [dist.extractLsb' 8 8, dist.extractLsb' 0 8]
  | .tailcopy value => [value]
  | .tinycopy value => [value]
  | .start | .abort | .flagtake | .copy | .count | .finish | .tinydone => []

/-- The operation a write of CMD issues (R25): bit 0 START, bit 1 ABORT; both together ABORT only; neither, nothing. -/
def decodeCmd (value : Nat) : Option Instr :=
  if value.testBit 1 then some .abort else if value.testBit 0 then some .start else none

/-- The bytes of a table word, first byte in bits 7 to 0, second in bits 15 to 8, and so on. -/
def tableBytes (nbytes w : Nat) : List Byte :=
  (List.range nbytes).map fun k => BitVec.ofNat 8 (w >>> (8 * k))

/-- Which row a word of `nbits` bits alone stands for: the table's rows have no opcode bits, so rows of one width cannot be told
apart without the engine's state, and this answers the first row of that width (notes/assumptions/10.md). -/
def tableOpcode : Nat → Option Opcode
  | 0 => some .start
  | 8 => some .flagfill
  | 16 => some .backref
  | 32 => some .header
  | _ => none

/-- The instruction the decoder reads from a word of the opcode table. -/
def decodeTableWord (nbits w : Nat) : Option Instr :=
  match tableOpcode nbits with
  | none => none
  | some op =>
    match decode op (tableBytes (nbits / 8) w) with
    | .ok (i, _) => some i
    | .error _ => none

end Sys2Proof
end

