-- ==== Sys2Proof/Machine/Params.lean ====
section
/-! DEFINITION. The values State.reset gives the open parameters, and the address widths that follow from them (R4). No statement
about every state rests on the values. -/

namespace Sys2Proof.Machine

/-- The default of DESC_LAYOUT: `shifter = desc[4:3]`, stored length field `desc[2:0]` (R62, R81; notes/assumptions/8.md). -/
def defaultDescLayout : DescLayout := { shifterLo := 3, nlenLo := 0 }

/-- Unbounded IN and OUT (R4: "unbounded reproduces the document exactly"; notes/assumptions/7.md). -/
def defaultParams : Params := { inMax := none, outMax := none, layout := defaultDescLayout }

/-- `ceil(log2(max + 1))`, the bits an address or a length up to `max` needs (R4: IN_AW, OUT_AW). -/
def addrWidth (max : Nat) : Nat :=
  if max = 0 then 0 else Nat.log2 max + 1

/-- What a register as wide as the addresses of a space of `max` bytes holds of a number: all of it where the space is unbounded, its
low bits where it is not (R4). -/
def withinAddrWidth (max : Option Nat) (n : Nat) : Nat :=
  match max with
  | none => n
  | some m => n % 2 ^ addrWidth m

end Sys2Proof.Machine
end

