-- ==== Sys2Proof/Machine/State.lean ====
section
/-! DEFINITION. Everything the machine holds (10_state.md R10), as plain data, the reasons a step can stop, and the state after
reset (R34, R200). -/

namespace Sys2Proof.Machine

/-- STATE, eleven values (R20). -/
inductive EngineState where
  | idle | tiny | header | awaitingFlag | literal | backref | copy | count | tail | done | fault
deriving DecidableEq, Repr

/-- The error kinds (60_exceptions.md R170). `truncatedHeader` belongs to the host's archive parser; the engine never raises it
(R172). -/
inductive ErrKind where
  | truncatedStream | truncatedHeader | invalidDisplacement | invalidLengthIndex | copyOutOfRange | outputOverflow
deriving DecidableEq, Repr

/-- What the host does at one step boundary (R22, R25, R201, R203); notes/assumptions/1.md. -/
inductive HostMove where
  /-- Nothing: the engine takes its step. -/
  | pass
  /-- Writes CFG: bit 0 INCL_TAIL, bit 1 TINY_EN (R22). -/
  | writeCfg (value : Nat)
  /-- Writes IN_LEN (R26). -/
  | writeInLen (value : Nat)
  /-- Writes bytes of the IN space from an address on (R30, R203). -/
  | loadIn (addr : Nat) (bytes : List Byte)
  /-- Writes CMD: bit 0 START, bit 1 ABORT (R25). -/
  | writeCmd (value : Nat)
  /-- Applies reset (R200, R201). -/
  | reset
deriving DecidableEq, Repr

/-- The launch premises of R204 that a host move can break. -/
inductive Premise where
  /-- P1: `IN_LEN <= IN_MAX`. -/
  | inLenFits
  /-- P2: IN does not change between START and the end of the run. -/
  | inputStable
deriving DecidableEq, Repr

/-- Where the model stops because the spec defines no value to go on with. All are safe: the machine has no defined behaviour there,
and no state that keeps the invariant of R36 with its input loaded reaches the first three. -/
inductive Fault where
  /-- A fetch reads an IN byte below IN_LEN that the host never loaded (R30, premise P2 of R204; R34: "an unwritten cell whose
  read is a fault"). Raised by the fetch of an operand. Safe. -/
  | inputByteUndefined (addr : Nat)
  /-- The copy loop reads an OUT byte that was not appended in this run (R41: defined only below OUT_LEN). Raised by COPY. Safe. -/
  | outputByteUndefined (addr : Nat)
  /-- A table index of 128 or more (R7: `LT[i]` is for `0 <= i < 128`). Raised by BACKREF. Safe. -/
  | tableEntryUndefined (index : Nat)
  /-- The host loads bytes from this IN address on, past the last address of IN, which has none at or above IN_MAX (R30). Raised by
  the host move. Safe. -/
  | noSuchInputAddress (addr : Nat)
deriving DecidableEq, Repr

/-- What the model declines to give a meaning. -/
inductive Refusal where
  /-- An instruction without a meaning yet; no arm answers it. Safe. -/
  | notModelled (mnemonic : String)
  /-- A host move that breaks a launch premise: R204, "a model gives the host no move that breaks them". Raised by host moves only,
  never by an instruction. Safe with respect to a host that keeps the premises. -/
  | hostBreaksPremise (p : Premise)
deriving DecidableEq, Repr

/-- A byte-addressed space: (address, byte) pairs, addresses strictly rising. An address not listed has no value. -/
abbrev Memory := List Host.Cell

/-- The whole state of the machine (R10), and two fields of the model's own at the end. -/
structure State where
  /-- STATE, which operation is enabled (R20). -/
  state : EngineState
  /-- CUR, the read offset into IN (R11). -/
  cur : Nat
  /-- DESC, the descriptor byte as read (R12). -/
  desc : BitVec 8
  /-- SHIFTER, extra shift of long lengths (R13). -/
  shifter : BitVec 2
  /-- LEN_BITS, the displacement shift (R13). -/
  lenBits : BitVec 3
  /-- LEN_MASK, table size and index mask (R14). -/
  lenMask : BitVec 8
  /-- THRESHOLD, last index of the table's linear part (R14). -/
  threshold : BitVec 5
  /-- FW, the flag window (R15). -/
  fw : BitVec 9
  /-- FC, decode steps left (R16). -/
  fc : BitVec 25
  /-- CARRY, the flag bit of the current decode step (R17). -/
  carry : Bool
  /-- DIST, the distance field (R18). -/
  dist : BitVec 16
  /-- DISP, the displacement (R18). -/
  disp : BitVec 16
  /-- LENGTH, the length of the current back-reference (R19). -/
  length : BitVec 10
  /-- SRC, the OUT address of the next byte to copy (R19). -/
  src : Nat
  /-- REM, bytes of the current copy still to do (R19). -/
  rem : BitVec 10
  /-- LT, the length table (R21). -/
  lt : Vector (BitVec 10) 128
  /-- CFG.INCL_TAIL (R23). -/
  inclTail : Bool
  /-- CFG.TINY_EN (R24). -/
  tinyEn : Bool
  /-- IN_LEN, number of input bytes (R26). -/
  inLen : Nat
  /-- ERR, the error code (R28). -/
  err : BitVec 3
  /-- OUT_LEN, number of output bytes (R29). -/
  outLen : Nat
  /-- OVF_VALID (R29). -/
  ovfValid : Bool
  /-- OVF_BASE (R29). -/
  ovfBase : Nat
  /-- OVF_LEN (R29). -/
  ovfLen : Nat
  /-- The IN space (R30). -/
  inMem : Memory
  /-- The OUT space (R31). -/
  outMem : Memory
  /-- The model's own: the open parameters (R4); no step writes it. -/
  params : Params
  /-- The model's own: the host's moves still to come, the next one first. -/
  host : List HostMove
deriving DecidableEq, Repr

/-- The machine right after reset: the "after reset" column of R34. The registers that column leaves unspecified are 0
(notes/assumptions/3.md); the two fields of the model's own are at notes/assumptions/1.md and 7.md. -/
def State.reset : State where
  state := .idle
  cur := 0
  desc := 0
  shifter := 0
  lenBits := 0
  lenMask := 0
  threshold := 0
  fw := 0
  fc := 0
  carry := false
  dist := 0
  disp := 0
  length := 0
  src := 0
  rem := 0
  lt := Vector.replicate 128 0
  inclTail := false
  tinyEn := true
  inLen := 0
  err := 0
  outLen := 0
  ovfValid := false
  ovfBase := 0
  ovfLen := 0
  inMem := []
  outMem := []
  params := defaultParams
  host := []

end Sys2Proof.Machine
end

