-- ==== Sys2Proof/Machine/Flags.lean ====
section
/-! DEFINITION. The flag window and the one flag CARRY (41_flag_window.md), and the summary STATUS (R27). -/

namespace Sys2Proof.Machine

/-- `FW[0]`, the flag bit of the current decode step (R101). -/
def flagBit (fw : BitVec 9) : Bool :=
  fw.getLsbD 0

/-- `FW >> 1` (R100). -/
def windowShift (fw : BitVec 9) : BitVec 9 :=
  fw >>> 1

/-- The window holds no data bit: `FW >> 1 = 0` (R100). -/
def windowExhausted (fw : BitVec 9) : Bool :=
  windowShift fw == 0

/-- `refill(b) = 0x100 + b` (R102, R105): the sentinel at bit 8 above the flag byte. -/
def refill (flags : Byte) : BitVec 9 :=
  0x100#9 + flags.setWidth 9

/-- `next_flag(FW)` of R105: the flag bit and the window after it, or `none` for "needs refill". -/
def nextFlag (fw : BitVec 9) : Option (Bool × BitVec 9) :=
  if windowExhausted fw then none else some (flagBit fw, windowShift fw)

/-- STATUS (R22, R27): 0 IDLE, 1 BUSY, 2 DONE, 3 FAULT. -/
def statusOf (st : EngineState) : BitVec 2 :=
  match st with
  | .idle => 0
  | .done => 2
  | .fault => 3
  | .tiny | .header | .awaitingFlag | .literal | .backref | .copy | .count | .tail => 1

/-- `STATUS = BUSY` (R27). -/
def State.busy (s : State) : Bool :=
  statusOf s.state == 1

end Sys2Proof.Machine
end

