-- ==== Sys2Proof/Machine/Operands.lean ====
section
/-! DEFINITION. How operands and derived registers are computed (30_encoding.md R68): the descriptor fields, the length table, the
distance field. All values are unsigned and nothing wraps (R5, R86, R131). -/

namespace Sys2Proof.Machine

/-- `shifter_of(d)` (R81): the 2-bit field of the descriptor. -/
def shifterOf (layout : DescLayout) (desc : Byte) : BitVec 2 :=
  desc.extractLsb' layout.shifterLo 2

/-- `lenbits_of(d)` (R81): the stored 3-bit field, each bit inverted. -/
def lenBitsOf (layout : DescLayout) (desc : Byte) : BitVec 3 :=
  desc.extractLsb' layout.nlenLo 3 ^^^ 7#3

/-- `LEN_MASK = 1 << LEN_BITS` (R82). -/
def lenMaskOf (lenBits : BitVec 3) : BitVec 8 :=
  1#8 <<< lenBits.toNat

/-- `threshold_of(m)` (R82): `m >> 1`, replaced by 0x13 when above 0x07. -/
def thresholdOf (lenMask : BitVec 8) : BitVec 5 :=
  if 7#8 < lenMask >>> 1 then 0x13#5 else (lenMask >>> 1).setWidth 5

/-- `entry(i, s, t)` (R83) as a number. -/
def tableEntry (i shifter threshold : Nat) : Nat :=
  if i ≤ threshold then i + 3 else ((i - threshold) <<< shifter) + threshold + 3

/-- The table build (R80, R83): entries below LEN_MASK are written, the others keep what they held (R21). -/
def buildTable (lenMask : BitVec 8) (shifter : BitVec 2) (threshold : BitVec 5) (old : Vector (BitVec 10) 128) :
    Vector (BitVec 10) 128 :=
  Vector.ofFn fun i =>
    if i.val < lenMask.toNat then BitVec.ofNat 10 (tableEntry i.val shifter.toNat threshold.toNat) else old[i]

/-- `zext_25(count) + 1` (R68, R85): decode steps in the stream. -/
def stepsOf (count : BitVec 24) : BitVec 25 :=
  count.setWidth 25 + 1

/-- The mask BACKREF puts on the distance field, as a function of LEN_MASK: LEN_MASK itself (R122; the one place the advised
parameter INDEX_MASK of D2 stands in, notes/assumptions/9.md). -/
def indexMask (lenMask : BitVec 8) : BitVec 8 :=
  lenMask

/-- The masked value `m = DIST & LEN_MASK` (R122), the mask zero-extended to 16 bits. -/
def maskedValue (lenMask : BitVec 8) (dist : BitVec 16) : BitVec 16 :=
  dist &&& (indexMask lenMask).setWidth 16

/-- `DISP = DIST >> LEN_BITS` (R123). -/
def displacementOf (lenBits : BitVec 3) (dist : BitVec 16) : BitVec 16 :=
  dist >>> lenBits.toNat

/-- `LT[i]` (R7): defined for `i < 128` only. -/
def tableRead (lt : Vector (BitVec 10) 128) (i : Nat) : Option (BitVec 10) :=
  lt[i]?

end Sys2Proof.Machine
end

