-- ==== Sys2Proof/Machine/Ops.lean ====
section
/-! DEFINITION. The shared operations: the memory primitives of 20_memory.md, Fetch and Append, and fault entry
(60_exceptions.md R180). There is no return from a fault (R182): START, ABORT and reset leave FAULT. -/

namespace Sys2Proof.Machine

/-! ## Bytes of a space -/

/-- The byte at an address; `none` where nothing is listed. -/
def Memory.read : Memory → Nat → Option Byte
  | [], _ => none
  | (k, b) :: m, a => if k = a then some b else Memory.read m a

/-- The byte at an address becomes `v` (R42), keeping the addresses strictly rising. -/
def Memory.write : Memory → Nat → Byte → Memory
  | [], a, v => [(a, v)]
  | (k, b) :: m, a, v =>
    if a < k then (a, v) :: (k, b) :: m
    else if a = k then (a, v) :: m
    else (k, b) :: Memory.write m a v

/-- Consecutive bytes written from an address on. -/
def Memory.load : Memory → Nat → List Byte → Memory
  | m, _, [] => m
  | m, a, b :: bs => Memory.load (Memory.write m a b) (a + 1) bs

/-- The `n` bytes from an address on, lowest address first; `none` where one of them has no value. -/
def Memory.readBytes : Memory → Nat → Nat → Option (List Byte)
  | _, _, 0 => some []
  | m, a, n + 1 =>
    match Memory.read m a, Memory.readBytes m (a + 1) n with
    | some b, some bs => some (b :: bs)
    | _, _ => none

/-- The canonical form: addresses strictly rising. No entry equals what an unlisted address reads as, since that is no byte. -/
abbrev Memory.wf (m : Memory) : Prop :=
  m.Pairwise fun x y => x.1 < y.1

/-- Bytes as one unsigned number, the first the most significant (R40, R44). -/
def bigEndianNat (bytes : List Byte) : Nat :=
  bytes.foldl (fun acc b => acc * 256 + b.toNat) 0

/-- `MemRead(IN, a, n)` (R40): defined only for `a + n <= IN_LEN`. -/
def State.memReadIn (s : State) (a n : Nat) : Option Nat :=
  if a + n ≤ s.inLen then (s.inMem.readBytes a n).map bigEndianNat else none

/-- `MemRead(OUT, a, 1)` (R41): defined only for `a < OUT_LEN`. -/
def State.outByte (s : State) (a : Nat) : Option Byte :=
  if a < s.outLen then s.outMem.read a else none

/-! ## Fetch and Append -/

/-- The bounds test and the cursor's advance of `Fetch(n)` (R45). The bytes themselves are read by the fetch of the operand. -/
def advance (n : Nat) (s : State) : Except ErrKind State :=
  if s.inLen - s.cur < n then .error .truncatedStream else .ok { s with cur := s.cur + n }

/-- `Append(v)` (R46). -/
def append (v : Byte) (s : State) : Except ErrKind State :=
  if s.params.outMax = some s.outLen then .error .outputOverflow
  else .ok { s with outMem := s.outMem.write s.outLen v, outLen := s.outLen + 1 }

/-! ## Taking a fault -/

/-- The error codes (R170). -/
def ErrKind.code : ErrKind → BitVec 3
  | .truncatedStream => 1
  | .truncatedHeader => 2
  | .invalidDisplacement => 3
  | .invalidLengthIndex => 4
  | .copyOutOfRange => 5
  | .outputOverflow => 6

/-- The working registers, CARRY, LT and OUT hold unspecified values (R180, U4; notes/assumptions/5.md): the registers take free
values (Sys2Proof.Config), and no OUT byte has a value. -/
def discardWork (s : State) : State :=
  { s with
    desc := Config.freeDesc s
    shifter := Config.freeShifter s
    lenBits := Config.freeLenBits s
    lenMask := Config.freeLenMask s
    threshold := Config.freeThreshold s
    fw := Config.freeFw s
    fc := Config.freeFc s
    carry := Config.freeCarry s
    dist := Config.freeDist s
    disp := Config.freeDisp s
    length := Config.freeLength s
    src := withinAddrWidth s.params.outMax (Config.freeSrc s)
    rem := Config.freeRem s
    lt := Vector.ofFn fun i => Config.freeLt s i.val
    outMem := [] }

/-- The result registers and the cursor at 0 (R141, R149, R180). -/
def clearResults (s : State) : State :=
  { s with cur := 0, outLen := 0, ovfValid := false, ovfBase := 0, ovfLen := 0 }

/-- Fault entry (R180) with error kind `e`, from the state before the step: no other write of the faulting step is kept. -/
def faultEntry (e : ErrKind) (s : State) : State :=
  { clearResults (discardWork s) with state := .fault, err := e.code }

/-- `raise E` or the step's result: where an operation's tests fail, fault entry is the next state (R7, R180). -/
def completes (s : State) (result : Except ErrKind State) : Host.Outcome State Fault Refusal :=
  match result with
  | .ok t => .next t
  | .error e => .next (faultEntry e s)

end Sys2Proof.Machine
end

