-- ==== Sys2Proof/Machine/FlagWindow.lean ====
section
/-! DEFINITION. The operations FLAGFILL and FLAGTAKE (41_flag_window.md). -/

namespace Sys2Proof.Machine

/-- FLAGFILL (R102): the window is loaded from the next input byte; STATE, CARRY and FC stay. -/
def execFlagfill (flags : Byte) (s : State) : Host.Outcome State Fault Refusal :=
  completes s <|
    match advance 1 s with
    | .error e => .error e
    | .ok t => .ok { t with fw := refill flags, state := .awaitingFlag }

/-- FLAGTAKE (R101): CARRY takes bit 0 of the window, which shifts right; the bit chooses the token. -/
def execFlagtake (s : State) : Host.Outcome State Fault Refusal :=
  .next { s with
    carry := flagBit s.fw
    fw := windowShift s.fw
    state := if flagBit s.fw then .literal else .backref }

end Sys2Proof.Machine
end

