-- ==== Sys2Proof/Machine/Header.lean ====
section
/-! DEFINITION. The operation HEADER (40_header_and_length_table.md). -/

namespace Sys2Proof.Machine

/-- The descriptor fields and the length table they give (R80 to R83). -/
def loadMethod (desc : Byte) (s : State) : State :=
  let shifter := shifterOf s.params.layout desc
  let lenBits := lenBitsOf s.params.layout desc
  let lenMask := lenMaskOf lenBits
  let threshold := thresholdOf lenMask
  { s with
    desc := desc
    shifter := shifter
    lenBits := lenBits
    lenMask := lenMask
    threshold := threshold
    lt := buildTable lenMask shifter threshold s.lt }

/-- HEADER (R80): the descriptor, the table, then the count; each read only when the one before it succeeded (R87). -/
def execHeader (desc : Byte) (count : BitVec 24) (s : State) : Host.Outcome State Fault Refusal :=
  completes s <|
    match advance 1 s with
    | .error e => .error e
    | .ok t =>
      match advance 3 (loadMethod desc t) with
      | .error e => .error e
      | .ok u => .ok { u with fc := stepsOf count, state := .awaitingFlag }

end Sys2Proof.Machine
end

