-- ==== Sys2Proof/Machine/RunControl.lean ====
section
/-! DEFINITION. Run control (44_sequencing_tail_tiny.md): START, ABORT, COUNT, TAILCOPY, FINISH, TINYCOPY, TINYDONE. -/

namespace Sys2Proof.Machine

/-- The largest input the shortcut copies verbatim (R150). -/
def tinyInputLimit : Nat := 9

/-- The registers START, ABORT and reset clear (R141, R149, R200), and OUT with no byte of value: OUT_LEN is 0, and OUT at and above
OUT_LEN is unspecified (R31, R34). -/
def clearRun (s : State) : State :=
  { clearResults s with fw := 0, fc := 0, carry := false, err := 0, outMem := [] }

/-- START (R141); ignored while BUSY (R155). -/
def execStart (s : State) : Host.Outcome State Fault Refusal :=
  if s.busy then .next s
  else .next { clearRun s with
    state := if s.tinyEn = true ∧ s.inLen ≤ tinyInputLimit then .tiny else .header }

/-- ABORT (R149): accepted in every state; the working registers it does not clear, LT and OUT are unspecified after it (U4). -/
def execAbort (s : State) : Host.Outcome State Fault Refusal :=
  .next { clearRun (discardWork s) with state := .idle }

/-- COUNT (R145): one decode step less to do. -/
def execCount (s : State) : Host.Outcome State Fault Refusal :=
  .next { s with
    fc := s.fc - 1
    state := if s.fc - 1 = 0 then .tail else .awaitingFlag }

/-- A raw byte appended unchanged, STATE as it was (format RAW, R67). -/
def copyRaw (value : Byte) (s : State) : Except ErrKind State :=
  match advance 1 s with
  | .error e => .error e
  | .ok t => append value t

/-- TAILCOPY (R146). -/
def execTailcopy (value : Byte) (s : State) : Host.Outcome State Fault Refusal :=
  completes s (copyRaw value s)

/-- FINISH (R147): with INCL_TAIL = 0 the tail is the overflow result, present even when empty; with INCL_TAIL = 1 there is none. -/
def execFinish (s : State) : Host.Outcome State Fault Refusal :=
  if s.inclTail then .next { s with ovfValid := false, ovfBase := 0, ovfLen := 0, state := .done }
  else .next { s with ovfValid := true, ovfBase := s.cur, ovfLen := s.inLen - s.cur, state := .done }

/-- TINYCOPY (R151). -/
def execTinycopy (value : Byte) (s : State) : Host.Outcome State Fault Refusal :=
  completes s (copyRaw value s)

/-- TINYDONE (R152): no overflow result, whatever INCL_TAIL says. -/
def execTinydone (s : State) : Host.Outcome State Fault Refusal :=
  .next { s with ovfValid := false, ovfBase := 0, ovfLen := 0, state := .done }

end Sys2Proof.Machine
end

