-- ==== Sys2Proof/Machine/Tokens.lean ====
section
/-! DEFINITION. The tokens: LITERAL (42_literal.md), BACKREF and COPY (43_backref.md). -/

namespace Sys2Proof.Machine

/-- LITERAL (R110): the operand byte is appended; TruncatedStream is tested before OutputOverflow. -/
def execLiteral (value : Byte) (s : State) : Host.Outcome State Fault Refusal :=
  completes s <|
    match advance 1 s with
    | .error e => .error e
    | .ok t =>
      match append value t with
      | .error e => .error e
      | .ok u => .ok { u with state := .count }

/-- The displacement and range checks and the loop set-up, once the length is known (R123 to R125). -/
def startCopy (dist : BitVec 16) (length : BitVec 10) (s : State) : Except ErrKind State :=
  let disp := displacementOf s.lenBits dist
  if disp = 0 then .error .invalidDisplacement
  else if s.outLen < disp.toNat then .error .copyOutOfRange
  else .ok { s with
    dist := dist
    length := length
    disp := disp
    src := s.outLen - disp.toNat
    rem := length
    state := .copy }

/-- BACKREF (R120): tests in the order TruncatedStream, InvalidLengthIndex, InvalidDisplacement, CopyOutOfRange (R178). -/
def execBackref (dist : BitVec 16) (s : State) : Host.Outcome State Fault Refusal :=
  match advance 2 s with
  | .error e => completes s (.error e)
  | .ok t =>
    let m := maskedValue t.lenMask dist
    if m = 0 then completes s (.error .invalidLengthIndex)
    else
      match tableRead t.lt (m.toNat - 1) with
      | none => .fault (.tableEntryUndefined (m.toNat - 1))
      | some length => completes s (startCopy dist length t)

/-- COPY (R126): one byte from OUT[SRC] to the end of OUT, the read before the append; at REM = 0 the token is over. -/
def execCopy (s : State) : Host.Outcome State Fault Refusal :=
  if s.rem = 0 then .next { s with state := .count }
  else
    match s.outByte s.src with
    | none => .fault (.outputByteUndefined s.src)
    | some b =>
      completes s <|
        match append b s with
        | .error e => .error e
        | .ok t => .ok { t with src := t.src + 1, rem := t.rem - 1 }

end Sys2Proof.Machine
end

