-- ==== Sys2Proof/Machine/Dispatch.lean ====
section
/-! DEFINITION. Which meaning each operation has. -/

namespace Sys2Proof.Machine

def exec (i : Instr) (s : State) : Host.Outcome State Fault Refusal :=
  match i with
  | .start => Sys2Proof.Machine.execStart s
  | .abort => Sys2Proof.Machine.execAbort s
  | .header desc count => Sys2Proof.Machine.execHeader desc count s
  | .flagfill flags => Sys2Proof.Machine.execFlagfill flags s
  | .flagtake => Sys2Proof.Machine.execFlagtake s
  | .literal value => Sys2Proof.Machine.execLiteral value s
  | .backref dist => Sys2Proof.Machine.execBackref dist s
  | .copy => Sys2Proof.Machine.execCopy s
  | .count => Sys2Proof.Machine.execCount s
  | .tailcopy value => Sys2Proof.Machine.execTailcopy value s
  | .finish => Sys2Proof.Machine.execFinish s
  | .tinycopy value => Sys2Proof.Machine.execTinycopy value s
  | .tinydone => Sys2Proof.Machine.execTinydone s

end Sys2Proof.Machine
end

