-- ==== Sys2Proof/Machine/Fetch.lean ====
section
/-! DEFINITION. Which operation is enabled (10_state.md R20, 41_flag_window.md R100, 44 R156) and the fetch of its operand at CUR. -/

namespace Sys2Proof.Machine

/-- The one operation enabled in a state; none in IDLE, DONE and FAULT (R140, R148, R181). -/
def enabledOp (s : State) : Option Opcode :=
  match s.state with
  | .idle | .done | .fault => none
  | .tiny => some (if s.cur < s.inLen then .tinycopy else .tinydone)
  | .header => some .header
  | .awaitingFlag => some (if windowExhausted s.fw then .flagfill else .flagtake)
  | .literal => some .literal
  | .backref => some .backref
  | .copy => some .copy
  | .count => some .count
  | .tail => some (if s.inclTail = true ∧ s.cur < s.inLen then .tailcopy else .finish)

/-- What the engine finds to do. -/
inductive Fetched where
  /-- No operation is enabled. -/
  | quiet
  /-- The enabled operation with its operand. -/
  | instr (i : Instr)
  /-- Fewer bytes are left below IN_LEN than the operand has (R45). -/
  | truncated
  /-- The operand lies below IN_LEN but the host never loaded all of it; the address of CUR. -/
  | unloaded (addr : Nat)
deriving DecidableEq, Repr

/-- The operand of `op` at CUR: the bounds test first (R45), then the bytes. -/
def fetchOperand (op : Opcode) (s : State) : Fetched :=
  if s.inLen - s.cur < op.size then .truncated
  else
    match s.inMem.readBytes s.cur op.size with
    | none => .unloaded s.cur
    | some bytes =>
      match decode op bytes with
      | .ok (i, _) => .instr i
      | .error _ => .truncated

/-- The enabled operation, fetched. -/
def fetchInstr (s : State) : Fetched :=
  match enabledOp s with
  | none => .quiet
  | some op => fetchOperand op s

/-- The state in which the operation of a table word is enabled, with the word's bytes at CUR (notes/assumptions/11.md). Stream
items: the host passes, STATE (and FW for FLAGFILL) enables the row, the bytes and zeros up to the longest operand stand at CUR, and
IN_LEN covers them. START: the host writes CMD. -/
def placeTableWord (s : State) (nbits w : Nat) : State :=
  match tableOpcode nbits with
  | some .flagfill => { placed s with state := .awaitingFlag, fw := 0 }
  | some .backref => { placed s with state := .backref }
  | some .header => { placed s with state := .header }
  | some .start => { s with host := .writeCmd 1 :: s.host }
  | some .abort | some .flagtake | some .literal | some .copy | some .count | some .tailcopy | some .finish | some .tinycopy
  | some .tinydone | none => s
where
  placed (s : State) : State :=
    { s with
      host := .pass :: s.host
      inMem := s.inMem.load s.cur (tableBytes 4 (w % 2 ^ nbits))
      inLen := max s.inLen (s.cur + 4) }

end Sys2Proof.Machine
end

