-- ==== Sys2Proof/Machine/HostPort.lean ====
section
/-! DEFINITION. The host interface beside CMD (10_state.md R22 to R31, 70_reset_and_hazards.md R200 to R205): writes of CFG and
IN_LEN, the load of IN, reset, and what the host reads. -/

namespace Sys2Proof.Machine

/-- A write of CFG (R22 to R24): ignored while BUSY; bits beyond INCL_TAIL and TINY_EN are ignored. -/
def hostWriteCfg (value : Nat) (s : State) : State :=
  if s.busy then s else { s with inclTail := value.testBit 0, tinyEn := value.testBit 1 }

/-- A value of IN_LEN or an end of IN lies within IN_MAX (R4). -/
def State.fitsIn (s : State) (n : Nat) : Bool :=
  match s.params.inMax with
  | none => true
  | some m => decide (n ≤ m)

/-- A write of IN_LEN (R22, R26): ignored while BUSY; bits beyond its IN_AW are ignored (notes/assumptions/23.md), and a length above
IN_MAX breaks premise P1 (R204). -/
def hostWriteInLen (value : Nat) (s : State) : Host.Outcome State Fault Refusal :=
  if s.busy then .next s
  else if s.fitsIn (withinAddrWidth s.params.inMax value) then
    .next { s with inLen := withinAddrWidth s.params.inMax value }
  else .refused (.hostBreaksPremise .inLenFits)

/-- The host loads bytes of IN (R30, R203): during a run that breaks premise P2 (R204); IN has addresses below IN_MAX only. -/
def hostLoadIn (addr : Nat) (bytes : List Byte) (s : State) : Host.Outcome State Fault Refusal :=
  if s.busy then .refused (.hostBreaksPremise .inputStable)
  else if s.fitsIn (addr + bytes.length) then .next { s with inMem := s.inMem.load addr bytes }
  else .fault (.noSuchInputAddress addr)

/-- Reset in any state (R200, R201): the "after reset" column of R34; what that column leaves unspecified takes free values, and no
byte of IN or OUT has a value. The parameters and the host's later moves stay. -/
def hostReset (s : State) : State :=
  { clearRun (discardWork s) with
    state := .idle
    inclTail := false
    tinyEn := true
    inLen := 0
    inMem := [] }

/-- The host-visible registers (R22: H0 to H6). -/
inductive HostReg where
  | cfg | cmd | inLen | status | err | outLen | cur | ovfValid | ovfBase | ovfLen
deriving DecidableEq, Repr

/-- STATUS (R27). -/
def State.status (s : State) : BitVec 2 :=
  statusOf s.state

/-- What the host reads of a register (R22 and its table): CMD reads 0, unnamed bits of CFG read 0; while BUSY the result registers read as those
of the run in progress (notes/assumptions/15.md). -/
def State.hostRead (s : State) : HostReg → Nat
  | .cfg => s.inclTail.toNat + 2 * s.tinyEn.toNat
  | .cmd => 0
  | .inLen => s.inLen
  | .status => s.status.toNat
  | .err => s.err.toNat
  | .outLen => s.outLen
  | .cur => s.cur
  | .ovfValid => s.ovfValid.toNat
  | .ovfBase => s.ovfBase
  | .ovfLen => s.ovfLen

/-- The OUT byte the host reads after DONE (R29, R31); at other times a read is outside the contract (R53, U3, U7). -/
def State.hostReadOut (s : State) (a : Nat) : Option Byte :=
  if s.state = .done then s.outByte a else none

/-- The overflow result after DONE (R29): absent, or the OVF_LEN bytes of IN from OVF_BASE, which the engine does not copy. -/
def State.overflowBytes (s : State) : Option (List (Option Byte)) :=
  if s.state = .done ∧ s.ovfValid = true then
    some ((List.range s.ovfLen).map fun k => s.inMem.read (s.ovfBase + k))
  else none

end Sys2Proof.Machine
end

