-- ==== Sys2Proof/Machine/Engine.lean ====
section
/-! DEFINITION. One step: a move of the host, or the engine's enabled operation (00_scope.md R8, 60_exceptions.md R178: "commands
take effect between steps"). -/

namespace Sys2Proof.Machine

/-- The engine's step: the enabled operation on its operand; an operand that runs past IN_LEN raises TruncatedStream (R45, R171);
in IDLE, DONE and FAULT nothing changes (R140, R148, R181, R189; notes/assumptions/2.md). -/
def engineStep (s : State) : Host.Outcome State Fault Refusal :=
  match fetchInstr s with
  | .quiet => .next s
  | .instr i => exec i s
  | .truncated => completes s (.error .truncatedStream)
  | .unloaded addr => .fault (.inputByteUndefined addr)

/-- A write of CMD (R25): the command it issues, or nothing. -/
def hostWriteCmd (value : Nat) (s : State) : Host.Outcome State Fault Refusal :=
  match decodeCmd value with
  | some i => exec i s
  | none => .next s

/-- One move of the host, taken off the queue already. -/
def hostStep (m : HostMove) (s : State) : Host.Outcome State Fault Refusal :=
  match m with
  | .pass => engineStep s
  | .writeCfg value => .next (hostWriteCfg value s)
  | .writeInLen value => hostWriteInLen value s
  | .loadIn addr bytes => hostLoadIn addr bytes s
  | .writeCmd value => hostWriteCmd value s
  | .reset => .next (hostReset s)

/-- The next move of the host, or the engine's step where the host has none left. -/
def stepOnce (s : State) : Host.Outcome State Fault Refusal :=
  match s.host with
  | [] => engineStep s
  | m :: later => hostStep m { s with host := later }

end Sys2Proof.Machine
end

