-- ==== Sys2Proof/Machine/Step.lean ====
section
/-! DEFINITION. The step and the placing of one table word, both by name of the definitions that hold them. -/

namespace Sys2Proof.Machine

/-- One step of the machine (R8). -/
def step (s : State) : Host.Outcome State Fault Refusal :=
  stepOnce s

/-- `s` with the instruction of a table word where the very next step runs it (notes/assumptions/11.md). -/
def State.withFetchWord (s : State) (nbits w : Nat) : State :=
  placeTableWord s nbits w

end Sys2Proof.Machine
end

