-- ==== Sys2Proof/Machine/Archive.lean ====
section
/-! DEFINITION. The archive header parser of the host wrapper (45_host_wrapper.md R160 to R163): outside the block (R3), no step runs
it; it says what bytes archive mode places in IN (R162). -/

namespace Sys2Proof.Machine

/-- The parser's result record (R163). -/
structure ArchiveHeader where
  version : BitVec 32
  identifier : BitVec 32
  fileCount : BitVec 32
  entries : List (BitVec 32 × BitVec 32 × BitVec 32)
  checksum : List Byte
  payloadOffset : Nat
deriving DecidableEq, Repr

/-- Which size makes a header truncated (R161): the 0x800 bytes before the payload, or the `16 + 12N` bytes the fields occupy. The third
size of 90_conflicts.md C8, the first 12 bytes, makes no parser of its own: fields that run out have no failure but this one. -/
inductive HeaderSize where
  | beforePayload
  | fieldsOnly
deriving DecidableEq, Repr

/-- The payload's fixed offset (R160). -/
def archivePayloadOffset : Nat := 0x800

/-- A 4-byte little-endian field and the bytes after it (R160). -/
def takeLe32 : List Byte → Option (BitVec 32 × List Byte)
  | b0 :: b1 :: b2 :: b3 :: rest => some (b3 ++ b2 ++ b1 ++ b0, rest)
  | _ => none

/-- So many 12-byte entries (R160). -/
def takeEntries : Nat → List Byte → Option (List (BitVec 32 × BitVec 32 × BitVec 32) × List Byte)
  | 0, bytes => some ([], bytes)
  | n + 1, bytes => do
    let (x, bytes) ← takeLe32 bytes
    let (y, bytes) ← takeLe32 bytes
    let (z, bytes) ← takeLe32 bytes
    let (entries, bytes) ← takeEntries n bytes
    pure ((x, y, z) :: entries, bytes)

/-- The fields from the container's first byte on; `none` where the bytes run out. -/
def takeArchiveFields (bytes : List Byte) : Option ArchiveHeader := do
  let (version, bytes) ← takeLe32 bytes
  let (identifier, bytes) ← takeLe32 bytes
  let (fileCount, bytes) ← takeLe32 bytes
  let (entries, bytes) ← takeEntries fileCount.toNat bytes
  let (_, _) ← takeLe32 bytes
  pure {
    version := version
    identifier := identifier
    fileCount := fileCount
    entries := entries
    checksum := bytes.take 4
    payloadOffset := archivePayloadOffset }

/-- The parser for either size (R161): its one failure is TruncatedHeader; the checksum is never checked. -/
def parseArchiveHeader (size : HeaderSize) (container : List Byte) : Except ErrKind ArchiveHeader :=
  if size = .beforePayload ∧ container.length < archivePayloadOffset then .error .truncatedHeader
  else
    match takeArchiveFields container with
    | some header => .ok header
    | none => .error .truncatedHeader

/-- The size this model picks, as R161 asks of it: the 0x800 bytes before the payload (notes/assumptions/19.md). -/
def archiveHeaderSize : HeaderSize := .beforePayload

/-- The parser with the size picked. -/
def parseArchive (container : List Byte) : Except ErrKind ArchiveHeader :=
  parseArchiveHeader archiveHeaderSize container

/-- The number the four bytes from offset `a` on stand for, the first the least significant (R160); bytes past the end count 0. -/
def littleEndianAt (bytes : List Byte) (a : Nat) : Nat :=
  ((bytes.drop a).take 4).foldr (fun b acc => b.toNat + 256 * acc) 0

/-- What the host loads into IN in archive mode (R162). -/
def archivePayload (container : List Byte) : List Byte :=
  container.drop archivePayloadOffset

end Sys2Proof.Machine
end

