-- ==== Sys2Proof/Machine/BigStep.lean ====
section
/-! DEFINITION. The run as one function of the input (44_sequencing_tail_tiny.md R153), over byte lists and independent of the
step. Output is a list that grows at its end. -/

namespace Sys2Proof.Machine

/-- How a run ends (R153): DONE with output, bytes consumed and overflow, or a fault with no output. -/
inductive RunResult where
  | done (out : List Byte) (consumed : Nat) (overflow : Option (List Byte))
  | fault (kind : ErrKind)
deriving DecidableEq, Repr

/-- One byte more of output, while OUT has room (R46). -/
def pushByte (outMax : Option Nat) (v : Byte) (out : List Byte) : Except ErrKind (List Byte) :=
  if outMax = some out.length then .error .outputOverflow else .ok (out ++ [v])

/-- Bytes copied to the output one by one (R146, R151). -/
def pushAll (outMax : Option Nat) : List Byte → List Byte → Except ErrKind (List Byte)
  | [], out => .ok out
  | v :: vs, out =>
    match pushByte outMax v out with
    | .error e => .error e
    | .ok out' => pushAll outMax vs out'

/-- `length` bytes, each read `disp` behind the end of the output as it then is (R126, R127). -/
def copyBack (outMax : Option Nat) (disp : Nat) : Nat → List Byte → Except ErrKind (List Byte)
  | 0, out => .ok out
  | length + 1, out =>
    match out[out.length - disp]? with
    | none => .error .copyOutOfRange
    | some b =>
      match pushByte outMax b out with
      | .error e => .error e
      | .ok out' => copyBack outMax disp length out'

/-- The length table of a descriptor as a list of `1 << len_bits` numbers (R83, R84). -/
def lengthTable (layout : DescLayout) (desc : Byte) : List Nat :=
  let lenMask := lenMaskOf (lenBitsOf layout desc)
  (List.range lenMask.toNat).map fun i => tableEntry i (shifterOf layout desc).toNat (thresholdOf lenMask).toNat

/-- A whole back-reference (R120 to R126). -/
def backrefToken (layout : DescLayout) (outMax : Option Nat) (desc : Byte) (dist : BitVec 16) (out : List Byte) :
    Except ErrKind (List Byte) :=
  let m := (maskedValue (lenMaskOf (lenBitsOf layout desc)) dist).toNat
  if m = 0 then .error .invalidLengthIndex
  else
    match (lengthTable layout desc)[m - 1]? with
    | none => .error .invalidLengthIndex
    | some length =>
      let disp := (displacementOf (lenBitsOf layout desc) dist).toNat
      if disp = 0 then .error .invalidDisplacement
      else if out.length < disp then .error .copyOutOfRange
      else copyBack outMax disp length out

/-- The window a decode step takes its flag from, and the unread input after a refill if it needed one (R100 to R105). -/
def ensureFlag (fw : BitVec 9) (rest : List Byte) : Except ErrKind (BitVec 9 × List Byte) :=
  if windowExhausted fw then
    match rest with
    | [] => .error .truncatedStream
    | b :: rest' => .ok (refill b, rest')
  else .ok (fw, rest)

/-- One token's effect on the unread input and the output, by its flag (R110, R120). -/
def decodeToken (layout : DescLayout) (outMax : Option Nat) (desc : Byte) (flag : Bool) (rest out : List Byte) :
    Except ErrKind (List Byte × List Byte) :=
  match flag, rest with
  | true, v :: rest' =>
    match pushByte outMax v out with
    | .error e => .error e
    | .ok out' => .ok (rest', out')
  | false, hi :: lo :: rest' =>
    match backrefToken layout outMax desc (bigEndian16 hi lo) out with
    | .error e => .error e
    | .ok out' => .ok (rest', out')
  | _, _ => .error .truncatedStream

/-- The flag loop (R142): the unread input and the output after so many decode steps. -/
def decodeSteps (layout : DescLayout) (outMax : Option Nat) (desc : Byte) :
    Nat → BitVec 9 → List Byte → List Byte → Except ErrKind (List Byte × List Byte)
  | 0, _, rest, out => .ok (rest, out)
  | steps + 1, fw, rest, out =>
    match ensureFlag fw rest with
    | .error e => .error e
    | .ok (fw', rest') =>
      match decodeToken layout outMax desc (flagBit fw') rest' out with
      | .error e => .error e
      | .ok (rest'', out') => decodeSteps layout outMax desc steps (windowShift fw') rest'' out'

/-- The end of the run after the flag loop (R146, R147). -/
def finishRun (outMax : Option Nat) (inclTail : Bool) (inputLength : Nat) (rest out : List Byte) : RunResult :=
  if inclTail then
    match pushAll outMax rest out with
    | .error e => .fault e
    | .ok out' => .done out' inputLength none
  else .done out (inputLength - rest.length) (some rest)

/-- `decode(tiny_en, incl_tail, inp)` of R153. -/
def decodeRun (params : Params) (tinyEn inclTail : Bool) (inp : List Byte) : RunResult :=
  if tinyEn = true ∧ inp.length ≤ tinyInputLimit then
    match pushAll params.outMax inp [] with
    | .error e => .fault e
    | .ok out => .done out inp.length none
  else
    match inp with
    | desc :: hi :: mid :: lo :: rest =>
      match decodeSteps params.layout params.outMax desc (stepsOf (bigEndian24 hi mid lo)).toNat 0 rest [] with
      | .error e => .fault e
      | .ok (rest', out) => finishRun params.outMax inclTail inp.length rest' out
    | _ => .fault .truncatedStream

end Sys2Proof.Machine
end

