-- ==== Sys2Proof/Machine/Listing.lean ====
section
/-! DEFINITION. The listing notation of 30_encoding.md R71 and its pseudo-operations (R72), with the assembly into bytes; the
notation's descriptor fields are those of the default DESC_LAYOUT. No step reads a listing. -/

namespace Sys2Proof.Machine

/-- One token of a stream: `LIT <byte>` or `REF <word16>` (R71). -/
inductive Token where
  | lit (value : Byte)
  | ref (dist : BitVec 16)
deriving DecidableEq, Repr

/-- A stream in parts (R71): descriptor, count field, tokens, tail. -/
structure Listing where
  desc : Byte
  count : BitVec 24
  tokens : List Token
  tail : List Byte
deriving DecidableEq, Repr

/-- `.count <n>`: the stream has exactly n + 1 tokens (R71). -/
def Listing.wellFormed (l : Listing) : Bool :=
  l.tokens.length == l.count.toNat + 1

/-- The flag bit of a token: 1 for LIT (R63). -/
def Token.flag : Token → Bool
  | .lit _ => true
  | .ref _ => false

/-- The operand bytes of a token (R64, R65). -/
def Token.operand : Token → List Byte
  | .lit value => encode (.literal value)
  | .ref dist => encode (.backref dist)

/-- Flag bits as a number, the first in bit 0. -/
def flagNumber : List Token → Nat
  | [] => 0
  | t :: ts => t.flag.toNat + 2 * flagNumber ts

/-- The flag byte that governs the first eight of these tokens; a bit without a token is 0 (R71). -/
def flagByteOf (ts : List Token) : Byte :=
  BitVec.ofNat 8 (flagNumber (ts.take 8))

/-- The tokens from number `k` on, a flag byte before each whose number is a multiple of 8 (R66, R71). -/
def assembleTokens : Nat → List Token → List Byte
  | _, [] => []
  | k, t :: ts => (if k % 8 = 0 then [flagByteOf (t :: ts)] else []) ++ t.operand ++ assembleTokens (k + 1) ts

/-- Assembly into bytes (R71). -/
def Listing.assemble (l : Listing) : List Byte :=
  encode (.header l.desc l.count) ++ assembleTokens 0 l.tokens ++ l.tail

/-- What the tokens stand for: literals appended, back-references copied (R110, R120 to R128). -/
def expandTokens (layout : DescLayout) (outMax : Option Nat) (desc : Byte) :
    List Token → List Byte → Except ErrKind (List Byte)
  | [], out => .ok out
  | .lit value :: ts, out =>
    match pushByte outMax value out with
    | .error e => .error e
    | .ok out' => expandTokens layout outMax desc ts out'
  | .ref dist :: ts, out =>
    match backrefToken layout outMax desc dist out with
    | .error e => .error e
    | .ok out' => expandTokens layout outMax desc ts out'

/-- One line of a listing (R71, R72), with the numbers as written. -/
inductive ListingLine where
  | desc (byte : Nat)
  | count (n : Nat)
  | lit (byte : Nat)
  | ref (word : Nat)
  | tail (bytes : List Nat)
  /-- `.steps <k>` = `.count <k-1>`. -/
  | steps (k : Nat)
  /-- `.method <shifter>, <len_bits>`. -/
  | method (shifter lenBits : Nat)
  /-- `COPY <disp>` = `REF (disp << LEN_BITS)`. -/
  | copy (disp : Nat)
deriving DecidableEq, Repr

/-- The conditions on a line: every number within its field, and the column "condition" of R72. `desc` is the descriptor above it. -/
def ListingLine.wellFormed (desc : Byte) : ListingLine → Bool
  | .desc byte => decide (byte < 256)
  | .count n => decide (n < 2 ^ 24)
  | .lit byte => decide (byte < 256)
  | .ref word => decide (word < 2 ^ 16)
  | .tail bytes => bytes.all fun b => decide (b < 256)
  | .steps k => decide (1 ≤ k) && decide (k ≤ 16777216)
  | .method shifter lenBits => decide (shifter ≤ 3) && decide (lenBits ≤ 7)
  | .copy disp => disp % 2 == 1 && decide (disp ≤ 0xFFFF >>> (lenBitsOf defaultDescLayout desc).toNat)

/-- A listing with one more line, the pseudo-operations expanded (R72). DESIGN CHOICE, where R71 is silent: a later `.desc` or `.count`
line (`.method` and `.steps` among them) overwrites an earlier one, and `.tail` lines join (notes/assumptions/18.md). -/
def Listing.addLine (l : Listing) : ListingLine → Listing
  | .desc byte => { l with desc := BitVec.ofNat 8 byte }
  | .count n => { l with count := BitVec.ofNat 24 n }
  | .lit byte => { l with tokens := l.tokens ++ [.lit (BitVec.ofNat 8 byte)] }
  | .ref word => { l with tokens := l.tokens ++ [.ref (BitVec.ofNat 16 word)] }
  | .tail bytes => { l with tail := l.tail ++ bytes.map (BitVec.ofNat 8) }
  | .steps k => { l with count := BitVec.ofNat 24 (k - 1) }
  | .method shifter lenBits => { l with desc := BitVec.ofNat 8 ((shifter <<< 3) ||| (lenBits ^^^ 7)) }
  | .copy disp =>
    { l with tokens := l.tokens ++ [.ref (BitVec.ofNat 16 (disp <<< (lenBitsOf defaultDescLayout l.desc).toNat))] }

/-- Lines added one after another to a listing; `none` where a line breaks its condition. -/
def Listing.addLines : Listing → List ListingLine → Option Listing
  | l, [] => some l
  | l, line :: lines => if line.wellFormed l.desc then Listing.addLines (l.addLine line) lines else none

/-- The bytes of a listing; `none` where a line breaks its condition or the token number is not the count plus one. -/
def assembleLines (lines : List ListingLine) : Option (List Byte) :=
  match Listing.addLines { desc := 0, count := 0, tokens := [], tail := [] } lines with
  | some l => if l.wellFormed then some l.assemble else none
  | none => none

end Sys2Proof.Machine
end

