-- ==== Sys2Proof/Machine/StreamCheck.lean ====
section
/-! DEFINITION. Which streams decode to DONE (30_encoding.md R73), as a check that follows lengths only: it never builds the output. -/

namespace Sys2Proof.Machine

/-- The length of every back-reference of a stream: the table's last entry (R129 (a)). -/
def copyLengthOf (layout : DescLayout) (desc : Byte) : Nat :=
  let lenMask := lenMaskOf (lenBitsOf layout desc)
  tableEntry (lenMask.toNat - 1) (shifterOf layout desc).toNat (thresholdOf lenMask).toNat

/-- Conditions (b), (c) and (d) of R73 for the decode steps that remain. `flags` are the flag bits of the current flag byte not yet
used, next first; `outLen` is the number of output bytes so far. -/
def stepsFit (layout : DescLayout) (desc : Byte) : Nat → List Bool → List Byte → Nat → Bool
  | 0, _, _, _ => true
  | steps + 1, true :: flags, _ :: rest, outLen => stepsFit layout desc steps flags rest (outLen + 1)
  | steps + 1, false :: flags, hi :: lo :: rest, outLen =>
    refIndexBit (lenBitsOf layout desc) (bigEndian16 hi lo)
      && decide (refDisplacement (lenBitsOf layout desc) (bigEndian16 hi lo) ≤ outLen)
      && stepsFit layout desc steps flags rest (outLen + copyLengthOf layout desc)
  | steps + 1, [], b :: rest, outLen =>
    match b.getLsbD 0, rest with
    | true, _ :: rest' => stepsFit layout desc steps (laterFlags b) rest' (outLen + 1)
    | false, hi :: lo :: rest' =>
      refIndexBit (lenBitsOf layout desc) (bigEndian16 hi lo)
        && decide (refDisplacement (lenBitsOf layout desc) (bigEndian16 hi lo) ≤ outLen)
        && stepsFit layout desc steps (laterFlags b) rest' (outLen + copyLengthOf layout desc)
    | _, _ => false
  | _ + 1, _ :: _, _, _ => false
  | _ + 1, [], [], _ => false
where
  laterFlags (b : Byte) : List Bool :=
    [b.getLsbD 1, b.getLsbD 2, b.getLsbD 3, b.getLsbD 4, b.getLsbD 5, b.getLsbD 6, b.getLsbD 7]

/-- R73: the stream decodes to DONE with the shortcut not taken and OUT large enough. -/
def streamWellFormed (layout : DescLayout) (inp : List Byte) : Bool :=
  decide (5 ≤ inp.length) &&
    match inp with
    | desc :: hi :: mid :: lo :: rest => stepsFit layout desc (stepsOf (bigEndian24 hi mid lo)).toNat [] rest 0
    | _ => false

end Sys2Proof.Machine
end

