-- ==== Sys2Proof/Safety.lean ====
section
/-! DEFINITION. The words the statements use: runs, the invariant of reachable states (10_state.md R36), loaded input, what fault
entry leaves, and what of a run the host may rely on. -/

namespace Sys2Proof.Machine

/-- `n` steps, stopping where one does not answer a next state. -/
def runFor : Nat → State → Host.Outcome State Fault Refusal
  | 0, s => .next s
  | n + 1, s =>
    match step s with
    | .next t => runFor n t
    | .fault f => .fault f
    | .refused r => .refused r

/-- Premise P2 of R204: the host loaded every IN byte below IN_LEN. -/
def InputLoaded (s : State) : Prop :=
  ∀ a, a < s.inLen → (s.inMem.read a).isSome = true

/-- IN holds exactly these bytes below IN_LEN. -/
def InputIs (s : State) (inp : List Byte) : Prop :=
  s.inLen = inp.length ∧ ∀ a, a < inp.length → s.inMem.read a = inp[a]?

/-- Every OUT byte below OUT_LEN has a value, and none at or above (R31, R41). -/
def OutputFilled (s : State) : Prop :=
  ∀ a, (s.outMem.read a).isSome = true ↔ a < s.outLen

/-- `n` more bytes fit in OUT (R46). -/
def OutputRoom (s : State) (n : Nat) : Prop :=
  ∀ m, s.params.outMax = some m → s.outLen + n ≤ m

/-- The states of a run after HEADER (R142, R156). -/
def AfterHeader (s : State) : Prop :=
  s.state = .awaitingFlag ∨ s.state = .literal ∨ s.state = .backref ∨ s.state = .copy ∨ s.state = .count ∨ s.state = .tail

/-- The descriptor registers and the table are those of DESC (R13, R14, R21, R36). -/
structure MethodLoaded (s : State) : Prop where
  shifter : s.shifter = shifterOf s.params.layout s.desc
  lenBits : s.lenBits = lenBitsOf s.params.layout s.desc
  lenMask : s.lenMask = lenMaskOf s.lenBits
  threshold : s.threshold = thresholdOf s.lenMask
  table : ∀ i, i < s.lenMask.toNat →
    s.lt[i]? = some (BitVec.ofNat 10 (tableEntry i s.shifter.toNat s.threshold.toNat))

/-- OVF_VALID, OVF_BASE and OVF_LEN are 0. -/
def NoOverflow (s : State) : Prop :=
  s.ovfValid = false ∧ s.ovfBase = 0 ∧ s.ovfLen = 0

/-- What DONE shows of the way there: through the flag loop, the sentinel is still in FW and the method is that of DESC; after a tiny
input, FW is as START left it and all input is the output (R36, R151, R152). -/
def RunFinished (s : State) : Prop :=
  (s.fw ≠ 0 ∧ MethodLoaded s) ∨
  (s.fw = 0 ∧ s.carry = false ∧ s.outLen = s.cur ∧ s.cur ≤ tinyInputLimit ∧ NoOverflow s)

/-- The invariant of reachable states (R36, with R4, R11, R15, R16, R17, R19, R28, R29). Registers of IN_AW bits stay within IN_MAX and
those of OUT_AW bits within OUT_MAX or that width (R4). FW is 0 in a run through the flag loop exactly before its first FLAGFILL, where
CUR is still 4. CUR against IN_LEN, and what a fault leaves of R36: notes/assumptions/24.md. -/
structure Inv (s : State) : Prop where
  inMemCanonical : s.inMem.wf
  outMemCanonical : s.outMem.wf
  inMemInSpace : ∀ m, s.params.inMax = some m → ∀ c ∈ s.inMem, c.1 < m
  inLenFits : ∀ m, s.params.inMax = some m → s.inLen ≤ m
  cursorFits : ∀ m, s.params.inMax = some m → s.cur ≤ m ∧ s.ovfBase ≤ m ∧ s.ovfLen ≤ m
  outLenFits : ∀ m, s.params.outMax = some m → s.outLen ≤ m
  srcFits : ∀ m, s.params.outMax = some m → s.src < 2 ^ addrWidth m
  outFilled : OutputFilled s
  cursor : s.busy = true → s.cur ≤ s.inLen
  noErr : s.state ≠ .fault → s.err = 0
  errKind : s.state = .fault → ∃ e, e ≠ ErrKind.truncatedHeader ∧ s.err = e.code
  results : s.state ≠ .done → NoOverflow s
  cleared : s.state = .idle ∨ s.state = .fault → s.cur = 0 ∧ s.outLen = 0
  atStart : s.state = .idle ∨ s.state = .header → s.cur = 0 ∧ s.outLen = 0
  cleanWindow : s.state = .idle ∨ s.state = .header ∨ s.state = .tiny → s.fw = 0 ∧ s.fc = 0 ∧ s.carry = false
  tiny : s.state = .tiny → s.outLen = s.cur ∧ s.inLen ≤ tinyInputLimit
  method : AfterHeader s → MethodLoaded s
  window : AfterHeader s → 4 ≤ s.cur ∧ (s.fw = 0 ↔ s.cur = 4) ∧ (s.cur = 4 → s.state = .awaitingFlag)
  counter : AfterHeader s → s.fc.toNat ≤ 2 ^ 24 ∧ (s.fc = 0 ↔ s.state = .tail)
  finished : s.state = .done → s.fc = 0 ∧ RunFinished s
  carryLiteral : s.state = .literal → s.carry = true
  carryBackref : s.state = .backref ∨ s.state = .copy → s.carry = false
  copying : s.state = .copy →
    1 ≤ s.disp.toNat ∧ s.src + s.disp.toNat = s.outLen ∧ s.disp = displacementOf s.lenBits s.dist
      ∧ s.lt[s.lenMask.toNat - 1]? = some s.length ∧ s.rem ≤ s.length

/-- What fault entry with kind `e` leaves (R180), `s` being the state before the step: the registers the rule names, and
everything that no step writes. Nothing is said of the working registers, LT and OUT (U4). -/
def FaultEntered (e : ErrKind) (s t : State) : Prop :=
  t.state = .fault ∧ t.err = e.code ∧ t.outLen = 0 ∧ t.cur = 0 ∧ NoOverflow t ∧ (∀ a, t.outByte a = none)
    ∧ t.inclTail = s.inclTail ∧ t.tinyEn = s.tinyEn ∧ t.inLen = s.inLen ∧ t.inMem = s.inMem
    ∧ t.params = s.params ∧ t.host = s.host

/-- Equal results (R154): STATE, ERR, OUT_LEN, CUR, OVF_* and the OUT bytes below OUT_LEN. -/
def SameResults (s t : State) : Prop :=
  s.state = t.state ∧ s.err = t.err ∧ s.outLen = t.outLen ∧ s.cur = t.cur ∧ s.ovfValid = t.ovfValid
    ∧ s.ovfBase = t.ovfBase ∧ s.ovfLen = t.ovfLen ∧ ∀ a, s.outByte a = t.outByte a

/-- The end of a run shows this result (R29, R153, R180). -/
def Shows (t : State) : RunResult → Prop
  | .done out consumed overflow =>
    t.state = .done ∧ t.err = 0 ∧ t.outLen = out.length ∧ (∀ a, t.hostReadOut a = out[a]?) ∧ t.cur = consumed
      ∧ t.overflowBytes = overflow.map (fun bs => bs.map some)
  | .fault kind => t.state = .fault ∧ t.err = kind.code ∧ t.outLen = 0 ∧ t.cur = 0 ∧ NoOverflow t

/-- How many of the first `n` steps run the operation `op`. -/
def timesRun (op : Opcode) : Nat → State → Nat
  | 0, _ => 0
  | n + 1, s =>
    (if enabledOp s = some op then 1 else 0) +
      match step s with
      | .next t => timesRun op n t
      | .fault _ | .refused _ => 0

end Sys2Proof.Machine
end

