-- ==== Sys2Proof/Certificates/Slice0/Obligations.lean ====
section
/-! DEFINITION. The statements for the provers. Each docstring names the rule of spec/ it formalises. -/

open Sys2Proof Sys2Proof.Machine

/-! ## Encoding -/

/-- Decoding an encoded operation gives it back with the bytes after it, and what decodes is the encoding of what it decodes to
(R61, R63 to R65, R67, R68). -/
def Obligations.DecodeAndEncodeAgree : Prop :=
  (∀ (i : Instr) (rest : List Byte), decode i.opcode (encode i ++ rest) = .ok (i, rest)) ∧
  ∀ (op : Opcode) (bytes rest : List Byte) (i : Instr),
    decode op bytes = .ok (i, rest) → i.opcode = op ∧ bytes = encode i ++ rest

/-- A decoding fails exactly where fewer bytes are there than the format holds (R60, R70). -/
def Obligations.DecodeRefusesExactlyShortOperands : Prop :=
  ∀ (op : Opcode) (bytes : List Byte), decode op bytes = .error (.operandMissing op) ↔ bytes.length < op.size

/-- Words written out from the spec's formats and vectors decode to what they stand for (R61, R63 to R65). -/
def Obligations.WrittenWordsDecode : Prop :=
  decode .header [0x0D, 0x00, 0x01, 0x09, 0xF7] = .ok (.header 0x0D 0x000109, [0xF7]) ∧
  decode .flagfill [0x3F, 0x42] = .ok (.flagfill 0x3F, [0x42]) ∧
  decode .literal [0x42] = .ok (.literal 0x42, []) ∧
  decode .backref [0x07, 0x0C, 0x64] = .ok (.backref 0x070C, [0x64])

/-- The engine's step on a loaded operand runs the decoded operation on the state as it is, with nothing added: the operation itself
moves CUR (R8, R60). -/
def Obligations.StepRunsDecodedOperation : Prop :=
  ∀ (s : State) (op : Opcode) (bytes : List Byte) (i : Instr),
    s.host = [] → enabledOp s = some op → op.size ≤ s.inLen - s.cur →
    s.inMem.readBytes s.cur op.size = some bytes → decode op bytes = .ok (i, []) → step s = exec i s

/-- A `pass` of the host lets the engine take exactly its step; the queue loses that move (the model's queue, log entry 1; R178). -/
def Obligations.PassLetsTheEngineStep : Prop :=
  ∀ (s : State) (later : List HostMove), s.host = .pass :: later → step s = engineStep { s with host := later }

/-- A table word placed by withFetchWord is run by the very next step (the model's, log entries 10 and 11). -/
def Obligations.PlacedTableWordRunsNext : Prop :=
  ∀ (s : State) (nbits w : Nat) (i : Instr), decodeTableWord nbits w = some i →
    step (s.withFetchWord nbits w) = exec i { s.withFetchWord nbits w with host := s.host }

/-! ## Which operation is enabled -/

/-- Which operation is enabled: the column "selected by" of R70, with the test on FW of R100. -/
def Obligations.EnabledOperationByState : Prop :=
  ∀ s : State,
    (enabledOp s = none ↔ s.state = .idle ∨ s.state = .done ∨ s.state = .fault) ∧
    (enabledOp s = some .header ↔ s.state = .header) ∧
    (enabledOp s = some .flagfill ↔ s.state = .awaitingFlag ∧ s.fw >>> 1 = 0) ∧
    (enabledOp s = some .flagtake ↔ s.state = .awaitingFlag ∧ s.fw >>> 1 ≠ 0) ∧
    (enabledOp s = some .literal ↔ s.state = .literal) ∧
    (enabledOp s = some .backref ↔ s.state = .backref) ∧
    (enabledOp s = some .copy ↔ s.state = .copy) ∧
    (enabledOp s = some .count ↔ s.state = .count) ∧
    (enabledOp s = some .tailcopy ↔ s.state = .tail ∧ s.inclTail = true ∧ s.cur < s.inLen) ∧
    (enabledOp s = some .finish ↔ s.state = .tail ∧ ¬(s.inclTail = true ∧ s.cur < s.inLen)) ∧
    (enabledOp s = some .tinycopy ↔ s.state = .tiny ∧ s.cur < s.inLen) ∧
    (enabledOp s = some .tinydone ↔ s.state = .tiny ∧ ¬ s.cur < s.inLen) ∧
    enabledOp s ≠ some .start ∧ enabledOp s ≠ some .abort

/-- In IDLE nothing is enabled, nothing changes by itself, and only START leaves it; IDLE is the state after reset and after ABORT
(R140; that a step without a host move leaves the state as it is, is log entry 2). -/
def Obligations.IdleIsLeftOnlyByStart : Prop :=
  (∀ s : State, s.state = .idle → enabledOp s = none) ∧
  (∀ s t : State, s.state = .idle → step s = .next t → t.state ≠ .idle →
    ∃ value later, s.host = .writeCmd value :: later ∧ decodeCmd value = some .start) ∧
  State.reset.state = .idle ∧
  ∀ s : State, ∃ t, exec .abort s = .next t ∧ t.state = .idle

/-- In IDLE, DONE and FAULT, with no move of the host, a step changes nothing (R140, R148, R181, R189; the stutter is log entry 2). -/
def Obligations.QuiescentStatesHold : Prop :=
  ∀ s : State, s.host = [] → (s.state = .idle ∨ s.state = .done ∨ s.state = .fault) → step s = .next s

/-! ## HEADER and the length table -/

/-- HEADER (R80, R82, R83): enabled in STATE = HEADER; TruncatedStream where fewer than four bytes are left; otherwise the descriptor
registers, every table entry below LEN_MASK by the formula of R83 (between 3 and 886), the others kept, FC, CUR + 4; nothing else
changes. -/
def Obligations.HeaderLoadsMethodTableAndCount : Prop :=
  (∀ s : State, enabledOp s = some .header ↔ s.state = .header) ∧
  (∀ (s : State) (desc : Byte) (count : BitVec 24), s.inLen - s.cur < 4 →
    ∃ t, exec (.header desc count) s = .next t ∧ FaultEntered .truncatedStream s t) ∧
  ∀ (s : State) (desc : Byte) (count : BitVec 24), 4 ≤ s.inLen - s.cur →
    ∃ t, exec (.header desc count) s = .next t ∧
      t = { s with
        desc := desc
        shifter := shifterOf s.params.layout desc
        lenBits := lenBitsOf s.params.layout desc
        lenMask := t.lenMask
        threshold := t.threshold
        lt := t.lt
        fc := t.fc
        cur := s.cur + 4
        state := .awaitingFlag } ∧
      t.lenMask.toNat = 2 ^ t.lenBits.toNat ∧
      t.threshold.toNat = (if 7 < t.lenMask.toNat / 2 then 19 else t.lenMask.toNat / 2) ∧
      t.fc.toNat = count.toNat + 1 ∧
      (∀ i, i < t.lenMask.toNat → ∃ e, t.lt[i]? = some e ∧ 3 ≤ e.toNat ∧ e.toNat ≤ 886 ∧
        e.toNat = if i ≤ t.threshold.toNat then i + 3
          else (i - t.threshold.toNat) * 2 ^ t.shifter.toNat + t.threshold.toNat + 3) ∧
      ∀ i, t.lenMask.toNat ≤ i → t.lt[i]? = s.lt[i]?

/-- The descriptor fields under the default DESC_LAYOUT (R81, from general knowledge by the spec's own mark, log entry 8), with its
worked examples. -/
def Obligations.DescriptorFieldsUnderDefaultLayout : Prop :=
  (∀ d : Byte, (shifterOf defaultDescLayout d).toNat = d.toNat / 8 % 4 ∧
    (lenBitsOf defaultDescLayout d).toNat = 7 - d.toNat % 8) ∧
  lenBitsOf defaultDescLayout 0x00 = 7 ∧ lenBitsOf defaultDescLayout 0xE7 = 0 ∧ shifterOf defaultDescLayout 0x1F = 3

/-- LEN_MASK and THRESHOLD for each LEN_BITS: the whole table of R82. -/
def Obligations.MaskAndThresholdTable : Prop :=
  (List.range 8).map (fun n => ((lenMaskOf (BitVec.ofNat 3 n)).toNat, (thresholdOf (lenMaskOf (BitVec.ofNat 3 n))).toNat)) =
    [(1, 0), (2, 1), (4, 2), (8, 4), (16, 19), (32, 19), (64, 19), (128, 19)]

/-- Properties (c) to (f) of R84 for every descriptor byte and layout: as many entries as LEN_MASK, strictly increasing, the first
`min(THRESHOLD + 1, LEN_MASK)` equal to index + 3, all between 3 and 886. -/
def Obligations.LengthTableProperties : Prop :=
  ∀ (layout : DescLayout) (desc : Byte),
    let table := lengthTable layout desc
    let lenMask := lenMaskOf (lenBitsOf layout desc)
    table.length = 2 ^ (lenBitsOf layout desc).toNat ∧
    table.Pairwise (· < ·) ∧
    table[0]? = some 3 ∧
    (∀ i, i < min ((thresholdOf lenMask).toNat + 1) lenMask.toNat → table[i]? = some (i + 3)) ∧
    ∀ e ∈ table, 3 ≤ e ∧ e ≤ 886

/-- The flag counter after the header, from the bytes in IN: the 24-bit big-endian number at addresses 1 to 3, plus one (R85, R44). -/
def Obligations.HeaderCountIsBigEndianPlusOne : Prop :=
  ∀ s : State, s.host = [] → s.state = .header → s.cur = 0 → 4 ≤ s.inLen → InputLoaded s →
    ∃ t c, step s = .next t ∧ s.memReadIn 1 3 = some c ∧ t.fc.toNat = c + 1 ∧ 1 ≤ t.fc.toNat ∧
      ∃ b1 b2 b3, s.inMem.read 1 = some b1 ∧ s.inMem.read 2 = some b2 ∧ s.inMem.read 3 = some b3 ∧
        c = b1.toNat * 65536 + b2.toNat * 256 + b3.toNat

/-! ## The flag window -/

/-- FLAGFILL (R102): on one byte it loads `0x100 + byte` and moves CUR by one, STATE, CARRY and FC as they were; without a byte it takes
TruncatedStream. After it the window is not exhausted. -/
def Obligations.FlagfillLoadsWindow : Prop :=
  (∀ s : State, enabledOp s = some .flagfill ↔ s.state = .awaitingFlag ∧ s.fw >>> 1 = 0) ∧
  (∀ (s : State) (b : Byte), s.state = .awaitingFlag → s.cur < s.inLen →
    ∃ t, exec (.flagfill b) s = .next t ∧ t = { s with fw := t.fw, cur := s.cur + 1 } ∧
      t.fw.toNat = 0x100 + b.toNat ∧ enabledOp t = some .flagtake) ∧
  ∀ (s : State) (b : Byte), s.inLen ≤ s.cur →
    ∃ t, exec (.flagfill b) s = .next t ∧ FaultEntered .truncatedStream s t

/-- FLAGTAKE (R101): CARRY is bit 0 of FW, FW shifts right, the bit chooses LITERAL or BACKREF; nothing else changes, CUR and FC among
it, and the sentinel stays inside. -/
def Obligations.FlagtakeDeliversLowBit : Prop :=
  (∀ s : State, enabledOp s = some .flagtake ↔ s.state = .awaitingFlag ∧ s.fw >>> 1 ≠ 0) ∧
  ∀ s : State, ∃ t, exec .flagtake s = .next t ∧
    t = { s with
      carry := s.fw.toNat % 2 == 1
      fw := t.fw
      state := if s.fw.toNat % 2 = 1 then .literal else .backref } ∧
    t.fw.toNat = s.fw.toNat / 2 ∧ (enabledOp s = some .flagtake → 1 ≤ t.fw.toNat)

/-- A refilled window delivers the eight bits of the byte, bit 0 first, and then asks for a refill: the sentinel is never delivered
(R103). -/
def Obligations.EightFlagsPerFlagByte : Prop :=
  ∀ b : Byte,
    (∀ k, k < 8 → nextFlag (refill b >>> k) = some (b.getLsbD k, refill b >>> (k + 1))) ∧
    nextFlag (refill b >>> 8) = none ∧ refill b >>> 8 = 1

/-- The document's `next_flag` and `refill` agree with the two operations (R105). -/
def Obligations.NextFlagAgreesWithTheStep : Prop :=
  ∀ s : State, s.host = [] → s.state = .awaitingFlag →
    (nextFlag s.fw = none → enabledOp s = some .flagfill) ∧
    (∀ flag fw, nextFlag s.fw = some (flag, fw) →
      step s = .next { s with carry := flag, fw := fw, state := if flag then .literal else .backref })

/-! ## Tokens -/

/-- LITERAL (R110): enabled in STATE = LITERAL; TruncatedStream first, then OutputOverflow; otherwise the operand is OUT's new last
byte, CUR and OUT_LEN go up by one, STATE is COUNT, and nothing else changes, no other byte of OUT among it. -/
def Obligations.LiteralAppendsItsOperand : Prop :=
  (∀ s : State, enabledOp s = some .literal ↔ s.state = .literal) ∧
  (∀ (s : State) (v : Byte), s.inLen ≤ s.cur →
    ∃ t, exec (.literal v) s = .next t ∧ FaultEntered .truncatedStream s t) ∧
  (∀ (s : State) (v : Byte), s.cur < s.inLen → s.params.outMax = some s.outLen →
    ∃ t, exec (.literal v) s = .next t ∧ FaultEntered .outputOverflow s t) ∧
  ∀ (s : State) (v : Byte), s.cur < s.inLen → s.params.outMax ≠ some s.outLen →
    ∃ t, exec (.literal v) s = .next t ∧
      t = { s with cur := s.cur + 1, outLen := s.outLen + 1, state := .count, outMem := t.outMem } ∧
      t.outByte s.outLen = some v ∧ ∀ a, a ≠ s.outLen → t.outMem.read a = s.outMem.read a

/-- BACKREF (R120): the tests in the order TruncatedStream, InvalidLengthIndex, InvalidDisplacement, CopyOutOfRange; where all pass, DIST,
LENGTH = LT[m - 1], DISP, SRC, REM, CUR + 2 and STATE = COPY, and nothing else changes, OUT among it. -/
def Obligations.BackrefTestsThenSetsUpTheCopy : Prop :=
  (∀ s : State, enabledOp s = some .backref ↔ s.state = .backref) ∧
  (∀ (s : State) (d : BitVec 16), s.inLen - s.cur < 2 →
    ∃ t, exec (.backref d) s = .next t ∧ FaultEntered .truncatedStream s t) ∧
  (∀ (s : State) (d : BitVec 16), 2 ≤ s.inLen - s.cur → d &&& s.lenMask.setWidth 16 = 0 →
    ∃ t, exec (.backref d) s = .next t ∧ FaultEntered .invalidLengthIndex s t) ∧
  ∀ (s : State) (d : BitVec 16) (len : BitVec 10),
    2 ≤ s.inLen - s.cur → d &&& s.lenMask.setWidth 16 ≠ 0 →
    s.lt[(d &&& s.lenMask.setWidth 16).toNat - 1]? = some len →
    (d >>> s.lenBits.toNat = 0 →
      ∃ t, exec (.backref d) s = .next t ∧ FaultEntered .invalidDisplacement s t) ∧
    (d >>> s.lenBits.toNat ≠ 0 → s.outLen < (d >>> s.lenBits.toNat).toNat →
      ∃ t, exec (.backref d) s = .next t ∧ FaultEntered .copyOutOfRange s t) ∧
    (d >>> s.lenBits.toNat ≠ 0 → (d >>> s.lenBits.toNat).toNat ≤ s.outLen →
      exec (.backref d) s = .next { s with
        cur := s.cur + 2
        dist := d
        length := len
        disp := d >>> s.lenBits.toNat
        src := s.outLen - (d >>> s.lenBits.toNat).toNat
        rem := len
        state := .copy })

/-- The distance field stands big-endian at CUR (R121, R44): the step of a completing BACKREF leaves DIST = IN[CUR] * 256 + IN[CUR + 1]. -/
def Obligations.DistanceFieldIsBigEndian : Prop :=
  ∀ (s t : State) (hi lo : Byte), s.host = [] → s.state = .backref → s.cur + 2 ≤ s.inLen →
    s.inMem.read s.cur = some hi → s.inMem.read (s.cur + 1) = some lo → step s = .next t → t.state = .copy →
    t.dist.toNat = hi.toNat * 256 + lo.toNat ∧ t.disp = t.dist >>> s.lenBits.toNat ∧ t.src + t.disp.toNat = s.outLen

/-- What the one-bit mask entails (R129): with the method loaded, a back-reference starts a copy exactly when its operand is
well formed (R69), every copy has the length of the table's last entry and an odd displacement, and InvalidDisplacement is never
raised. -/
def Obligations.OneBitMaskConsequences : Prop :=
  ∀ (s : State) (d : BitVec 16), MethodLoaded s → s.state = .backref → 2 ≤ s.inLen - s.cur →
    ∃ t, exec (.backref d) s = .next t ∧
      (t.state = .copy ↔ (Instr.backref d).wellFormed s.lenBits s.outLen = true) ∧
      (t.state = .copy →
        t.length.toNat = tableEntry (s.lenMask.toNat - 1) s.shifter.toNat s.threshold.toNat ∧
        t.disp.toNat % 2 = 1 ∧ t.rem = t.length) ∧
      (t.state ≠ .copy →
        FaultEntered (if refIndexBit s.lenBits d then .copyOutOfRange else .invalidLengthIndex) s t)

/-- COPY (R126): at REM = 0 only STATE changes, to COUNT; otherwise the byte at SRC becomes OUT's new last byte, SRC and OUT_LEN go up
and REM goes down by one, STATE stays; OutputOverflow where OUT is full. Nothing else changes. -/
def Obligations.CopyMovesOneByte : Prop :=
  (∀ s : State, enabledOp s = some .copy ↔ s.state = .copy) ∧
  (∀ s : State, s.rem = 0 → exec .copy s = .next { s with state := .count }) ∧
  ∀ (s : State) (b : Byte), s.rem ≠ 0 → s.outByte s.src = some b →
    (s.params.outMax = some s.outLen → ∃ t, exec .copy s = .next t ∧ FaultEntered .outputOverflow s t) ∧
    (s.params.outMax ≠ some s.outLen →
      ∃ t, exec .copy s = .next t ∧
        t = { s with src := s.src + 1, rem := t.rem, outLen := s.outLen + 1, outMem := t.outMem } ∧
        t.rem.toNat = s.rem.toNat - 1 ∧
        t.outByte s.outLen = some b ∧ ∀ a, a ≠ s.outLen → t.outMem.read a = s.outMem.read a)

/-- The closed form of a copy (R128): REM steps append the last DISP bytes repeated cyclically, keep every earlier byte, and one more step
goes to COUNT. -/
def Obligations.CopyLoopRepeatsCyclically : Prop :=
  ∀ (s : State) (d : Nat), s.host = [] → s.state = .copy → 1 ≤ d → s.src + d = s.outLen →
    (∀ a, a < s.outLen → (s.outMem.read a).isSome = true) → OutputRoom s s.rem.toNat →
    ∃ t, runFor s.rem.toNat s = .next t ∧ t.state = .copy ∧ t.rem = 0 ∧ t.outLen = s.outLen + s.rem.toNat ∧
      (∀ i, i < s.rem.toNat → t.outByte (s.outLen + i) = s.outByte (s.outLen - d + i % d)) ∧
      (∀ a, a < s.outLen → t.outByte a = s.outByte a) ∧
      step t = .next { t with state := .count }

/-! ## Run control -/

/-- START (R141): accepted in IDLE, DONE and FAULT; it clears CUR, OUT_LEN, FW, FC, CARRY, ERR and OVF_*, and STATE is TINY exactly when
TINY_EN = 1 and IN_LEN <= 9, else HEADER; every other register and every byte of IN is unchanged (for the registers R34 calls unspecified after START this is log
entry 25), and OUT has no byte left. While BUSY it changes nothing (R155). -/
def Obligations.StartBeginsARunUnlessBusy : Prop :=
  (∀ s : State, s.status = 1 → exec .start s = .next s) ∧
  ∀ s : State, s.state = .idle ∨ s.state = .done ∨ s.state = .fault →
    ∃ t, exec .start s = .next t ∧
      t = { s with
        cur := 0, outLen := 0, fw := 0, fc := 0, carry := false, err := 0
        ovfValid := false, ovfBase := 0, ovfLen := 0, outMem := t.outMem
        state := if s.tinyEn = true ∧ s.inLen ≤ 9 then .tiny else .header } ∧
      ∀ a, t.outByte a = none

/-- ABORT (R149): accepted in every state; STATE = IDLE, the named registers cleared, no byte of OUT left; CFG, IN_LEN, IN and everything no
step writes unchanged. Of the registers it does not name nothing is said (U4). -/
def Obligations.AbortLeadsToIdle : Prop :=
  ∀ s : State, ∃ t, exec .abort s = .next t ∧
    t.state = .idle ∧ t.outLen = 0 ∧ t.cur = 0 ∧ t.err = 0 ∧ NoOverflow t ∧ t.fw = 0 ∧ t.fc = 0 ∧ t.carry = false ∧
    (∀ a, t.outByte a = none) ∧
    t.inclTail = s.inclTail ∧ t.tinyEn = s.tinyEn ∧ t.inLen = s.inLen ∧ t.inMem = s.inMem ∧
    t.params = s.params ∧ t.host = s.host

/-- COUNT (R145): FC goes down by one; at 0 STATE is TAIL, else AWAITING_FLAG; nothing else changes. -/
def Obligations.CountEndsADecodeStep : Prop :=
  (∀ s : State, enabledOp s = some .count ↔ s.state = .count) ∧
  ∀ s : State, 1 ≤ s.fc.toNat →
    ∃ t, exec .count s = .next t ∧
      t = { s with fc := t.fc, state := if s.fc.toNat = 1 then .tail else .awaitingFlag } ∧
      t.fc.toNat = s.fc.toNat - 1

/-- TAILCOPY and TINYCOPY (R146, R151): when each is enabled; where a byte is left, the operand becomes OUT's new last byte, CUR and OUT_LEN go up by one, STATE
stays and nothing else changes; OutputOverflow where OUT is full. -/
def Obligations.RawCopiesAppendTheirByte : Prop :=
  (∀ s : State, enabledOp s = some .tailcopy ↔ s.state = .tail ∧ s.inclTail = true ∧ s.cur < s.inLen) ∧
  (∀ s : State, enabledOp s = some .tinycopy ↔ s.state = .tiny ∧ s.cur < s.inLen) ∧
  ∀ (s : State) (v : Byte) (i : Instr), (i = .tailcopy v ∨ i = .tinycopy v) → s.cur < s.inLen →
    (s.params.outMax = some s.outLen → ∃ t, exec i s = .next t ∧ FaultEntered .outputOverflow s t) ∧
    (s.params.outMax ≠ some s.outLen →
      ∃ t, exec i s = .next t ∧
        t = { s with cur := s.cur + 1, outLen := s.outLen + 1, outMem := t.outMem } ∧
        t.outByte s.outLen = some v ∧ ∀ a, a ≠ s.outLen → t.outMem.read a = s.outMem.read a)

/-- FINISH (R147): enabled in TAIL where TAILCOPY is not; the overflow result by INCL_TAIL, STATE = DONE, nothing else. -/
def Obligations.FinishReportsTheOverflow : Prop :=
  (∀ s : State, enabledOp s = some .finish ↔ s.state = .tail ∧ enabledOp s ≠ some .tailcopy) ∧
  ∀ s : State,
    (s.inclTail = false → exec .finish s =
      .next { s with ovfValid := true, ovfBase := s.cur, ovfLen := s.inLen - s.cur, state := .done }) ∧
    (s.inclTail = true → exec .finish s =
      .next { s with ovfValid := false, ovfBase := 0, ovfLen := 0, state := .done })

/-- TINYDONE (R152): enabled in TINY where no byte is left; no overflow result whatever INCL_TAIL says. -/
def Obligations.TinydoneEndsWithoutOverflow : Prop :=
  (∀ s : State, s.cur ≤ s.inLen → (enabledOp s = some .tinydone ↔ s.state = .tiny ∧ s.cur = s.inLen)) ∧
  ∀ s : State, exec .tinydone s = .next { s with ovfValid := false, ovfBase := 0, ovfLen := 0, state := .done }

/-! ## Faults -/

/-- Fault entry (R180), for every kind: the registers the rule names with the code of R170, and CFG, IN_LEN and IN as they were. -/
def Obligations.FaultEntryLeavesNoResult : Prop :=
  (∀ (s : State) (e : ErrKind), completes s (.error e) = .next (faultEntry e s) ∧ FaultEntered e s (faultEntry e s) ∧
    (faultEntry e s).status = 3) ∧
  ErrKind.truncatedStream.code = 1 ∧ ErrKind.truncatedHeader.code = 2 ∧ ErrKind.invalidDisplacement.code = 3 ∧
  ErrKind.invalidLengthIndex.code = 4 ∧ ErrKind.copyOutOfRange.code = 5 ∧ ErrKind.outputOverflow.code = 6

/-- An operand that runs past IN_LEN (R45, R171): the operations that fetch in the flag loop and HEADER take TruncatedStream, and so does
the engine's step of whichever operation is enabled, without reading IN. -/
def Obligations.TruncatedOperandFaults : Prop :=
  (∀ (s : State) (i : Instr),
    i.opcode = .header ∨ i.opcode = .flagfill ∨ i.opcode = .literal ∨ i.opcode = .backref →
    s.inLen - s.cur < i.opcode.size → ∃ t, exec i s = .next t ∧ FaultEntered .truncatedStream s t) ∧
  ∀ (s : State) (op : Opcode), s.host = [] → enabledOp s = some op → s.inLen - s.cur < op.size →
    ∃ t, step s = .next t ∧ FaultEntered .truncatedStream s t

/-- Which operation can raise what (R179): a step of the engine that enters FAULT did so by a pair of the matrix. -/
def Obligations.FaultsFollowTheMatrix : Prop :=
  ∀ s t : State, s.host = [] → s.state ≠ .fault → step s = .next t → t.state = .fault →
    ∃ op e, enabledOp s = some op ∧ FaultEntered e s t ∧
      (op, e) ∈ [(Opcode.header, ErrKind.truncatedStream), (.flagfill, .truncatedStream), (.literal, .truncatedStream),
        (.literal, .outputOverflow), (.backref, .truncatedStream), (.backref, .invalidLengthIndex),
        (.backref, .invalidDisplacement), (.backref, .copyOutOfRange), (.copy, .outputOverflow),
        (.tailcopy, .outputOverflow), (.tinycopy, .outputOverflow)]

/-- FAULT holds ERR and STATUS until START, ABORT or reset (R181, R182): any other step keeps both. -/
def Obligations.OnlyTheHostLeavesFault : Prop :=
  ∀ s t : State, s.state = .fault → step s = .next t → t.state ≠ .fault ∨ t.err ≠ s.err →
    (∃ value later, s.host = .writeCmd value :: later ∧
      ((decodeCmd value = some .start ∧ t.state ≠ .idle) ∨ (decodeCmd value = some .abort ∧ t.state = .idle)) ∧ t.err = 0) ∨
    (∃ later, s.host = .reset :: later ∧ t.state = .idle ∧ t.err = 0)

/-- Where the model stops for want of a defined value: an IN byte the host never loaded (log entries 4 and 13), an OUT byte outside this
run's output and a table index of 128 or more (log entry 13), and a load past the end of IN (log entry 14). -/
def Obligations.UndefinedReadsStop : Prop :=
  (∀ (s : State) (op : Opcode), s.host = [] → enabledOp s = some op → op.size ≤ s.inLen - s.cur →
    s.inMem.readBytes s.cur op.size = none → step s = .fault (.inputByteUndefined s.cur)) ∧
  (∀ s : State, s.rem ≠ 0 → s.outByte s.src = none → exec .copy s = .fault (.outputByteUndefined s.src)) ∧
  (∀ (s : State) (d : BitVec 16), 2 ≤ s.inLen - s.cur → 128 < (d &&& s.lenMask.setWidth 16).toNat →
    exec (.backref d) s = .fault (.tableEntryUndefined ((d &&& s.lenMask.setWidth 16).toNat - 1))) ∧
  ∀ (s : State) (addr m : Nat) (bytes : List Byte) (later : List HostMove), s.status ≠ 1 → s.params.inMax = some m →
    m < addr + bytes.length → s.host = .loadIn addr bytes :: later → step s = .fault (.noSuchInputAddress addr)

/-! ## The host interface -/

/-- CMD (R25): a write with bit 1 set issues ABORT only, with bit 0 alone START, with neither nothing (log entry 22); nothing is
stored. -/
def Obligations.CommandWritesIssueCommands : Prop :=
  ∀ (s : State) (value : Nat) (later : List HostMove),
    s.host = .writeCmd value :: later →
    (value.testBit 1 = true → step s = exec .abort { s with host := later }) ∧
    (value.testBit 1 = false → value.testBit 0 = true → step s = exec .start { s with host := later }) ∧
    (value.testBit 1 = false → value.testBit 0 = false → step s = .next { s with host := later })

/-- Writes of CFG and IN_LEN (R22 to R24, R26): while BUSY they change nothing; otherwise they set CFG's two bits, or IN_LEN to the value,
with IN_MAX bounded to its low IN_AW bits where these are a legal length (log entry 23), and nothing else. -/
def Obligations.HostWritesConfigureUnlessBusy : Prop :=
  ∀ (s : State) (value : Nat) (later : List HostMove),
    (s.status = 1 → s.host = .writeCfg value :: later ∨ s.host = .writeInLen value :: later →
      step s = .next { s with host := later }) ∧
    (s.status ≠ 1 → s.host = .writeCfg value :: later →
      step s = .next { s with host := later, inclTail := value.testBit 0, tinyEn := value.testBit 1 }) ∧
    (s.status ≠ 1 → s.host = .writeInLen value :: later →
      (s.params.inMax = none → step s = .next { s with host := later, inLen := value }) ∧
      ∀ m, s.params.inMax = some m →
        (value ≤ m → step s = .next { s with host := later, inLen := value }) ∧
        (value % 2 ^ addrWidth m ≤ m → step s = .next { s with host := later, inLen := value % 2 ^ addrWidth m }))

/-- Moves that break a premise are refused by name (R204, U6; log entries 14 and 23). -/
def Obligations.BrokenPremisesAreRefused : Prop :=
  ∀ (s : State) (later : List HostMove),
    (∀ addr bytes, s.status = 1 → s.host = .loadIn addr bytes :: later →
      step s = .refused (.hostBreaksPremise .inputStable)) ∧
    (∀ value m, s.status ≠ 1 → s.params.inMax = some m → m < value % 2 ^ addrWidth m → s.host = .writeInLen value :: later →
      step s = .refused (.hostBreaksPremise .inLenFits))

/-- Loading IN (R30, R203): the bytes stand at their addresses, every other byte of IN and everything else is unchanged. -/
def Obligations.LoadingPlacesInputBytes : Prop :=
  ∀ (s : State) (addr : Nat) (bytes : List Byte) (later : List HostMove),
    s.status ≠ 1 → (∀ m, s.params.inMax = some m → addr + bytes.length ≤ m) → s.host = .loadIn addr bytes :: later →
    ∃ t, step s = .next t ∧ t = { s with host := later, inMem := t.inMem } ∧
      ∀ a, t.inMem.read a = if addr ≤ a ∧ a < addr + bytes.length then bytes[a - addr]? else s.inMem.read a

/-- STATUS summarises STATE (R27), and what the host reads (R22 and its table): CFG's two bits and zeros above, CMD as 0, IN_LEN, STATUS and
ERR at any time; OUT_LEN, CUR, OVF_*, the OUT bytes below OUT_LEN and the overflow's bytes of IN in DONE (R29). -/
def Obligations.StatusSummarisesState : Prop :=
  ∀ s : State,
    (s.status = 0 ↔ s.state = .idle) ∧ (s.status = 2 ↔ s.state = .done) ∧ (s.status = 3 ↔ s.state = .fault) ∧
    (s.status = 1 ↔ s.state = .tiny ∨ s.state = .header ∨ s.state = .awaitingFlag ∨ s.state = .literal ∨
      s.state = .backref ∨ s.state = .copy ∨ s.state = .count ∨ s.state = .tail) ∧
    s.hostRead .status = s.status.toNat ∧
    (∀ k, (s.hostRead .cfg).testBit k = if k = 0 then s.inclTail else if k = 1 then s.tinyEn else false) ∧
    s.hostRead .cmd = 0 ∧ s.hostRead .inLen = s.inLen ∧ s.hostRead .err = s.err.toNat ∧
    (s.state = .done →
      s.hostRead .outLen = s.outLen ∧ s.hostRead .cur = s.cur ∧
      s.hostRead .ovfValid = (if s.ovfValid then 1 else 0) ∧ s.hostRead .ovfBase = s.ovfBase ∧ s.hostRead .ovfLen = s.ovfLen ∧
      (∀ a, a < s.outLen → s.hostReadOut a = s.outMem.read a) ∧
      (s.ovfValid = false → s.overflowBytes = none) ∧
      (s.ovfValid = true → ∃ bytes, s.overflowBytes = some bytes ∧ bytes.length = s.ovfLen ∧
        ∀ k, k < s.ovfLen → bytes[k]? = some (s.inMem.read (s.ovfBase + k))))

/-- The values the spec gives for reset (R200, R34). -/
def Obligations.ResetValuesAsListed : Prop :=
  State.reset.state = .idle ∧ State.reset.inclTail = false ∧ State.reset.tinyEn = true ∧ State.reset.inLen = 0 ∧
  State.reset.err = 0 ∧ State.reset.cur = 0 ∧ State.reset.outLen = 0 ∧ NoOverflow State.reset ∧
  State.reset.fw = 0 ∧ State.reset.fc = 0 ∧ State.reset.carry = false ∧ State.reset.status = 0

/-- Reset in any state (R201): as ABORT, with CFG and IN_LEN at their reset values; that the parameters and the host's later moves stay is
log entry 16. -/
def Obligations.ResetMayComeInAnyState : Prop :=
  ∀ (s : State) (later : List HostMove), s.host = .reset :: later →
    ∃ t, step s = .next t ∧
      t.state = .idle ∧ t.inclTail = false ∧ t.tinyEn = true ∧ t.inLen = 0 ∧ t.err = 0 ∧ t.cur = 0 ∧ t.outLen = 0 ∧
      NoOverflow t ∧ t.fw = 0 ∧ t.fc = 0 ∧ t.carry = false ∧ (∀ a, t.outByte a = none) ∧
      t.params = s.params ∧ t.host = later

/-! ## The machine over all operations -/

/-- The transition relation of STATE (R156): a step of the engine follows a row of the table, stays where nothing is enabled, or enters
FAULT from a state whose operation can raise. -/
def Obligations.TransitionsFollowTheTable : Prop :=
  ∀ s t : State, s.host = [] → step s = .next t →
    (s.state, t.state) ∈ [(EngineState.idle, EngineState.idle), (.done, .done), (.fault, .fault),
      (.tiny, .tiny), (.tiny, .done), (.header, .awaitingFlag), (.awaitingFlag, .awaitingFlag), (.awaitingFlag, .literal),
      (.awaitingFlag, .backref), (.literal, .count), (.backref, .copy), (.copy, .copy), (.copy, .count),
      (.count, .awaitingFlag), (.count, .tail), (.tail, .tail), (.tail, .done),
      (.tiny, .fault), (.header, .fault), (.awaitingFlag, .fault), (.literal, .fault), (.backref, .fault), (.copy, .fault),
      (.tail, .fault)]

/-- How an operation advances CUR (R157): by the bytes it consumes, or to 0 where it faults; never back otherwise. -/
def Obligations.CursorAdvancesByBytesConsumed : Prop :=
  ∀ (s t : State) (op : Opcode), s.host = [] → enabledOp s = some op → step s = .next t →
    (t.state ≠ .fault → t.cur = s.cur + op.size) ∧ (t.state = .fault → t.cur = 0)

/-- The engine never writes IN, IN_LEN or CFG (R52, R22), and never the parameters. -/
def Obligations.EngineNeverWritesItsInput : Prop :=
  ∀ s t : State, s.host = [] → step s = .next t →
    t.inMem = s.inMem ∧ t.inLen = s.inLen ∧ t.inclTail = s.inclTail ∧ t.tinyEn = s.tinyEn ∧ t.params = s.params ∧ t.host = []

/-- OUT is append-only (R31, R42): a step of the engine that does not fault keeps every byte below OUT_LEN and appends at most one. -/
def Obligations.OutputIsAppendOnly : Prop :=
  ∀ s t : State, s.host = [] → step s = .next t → t.state ≠ .fault →
    s.outLen ≤ t.outLen ∧ t.outLen ≤ s.outLen + 1 ∧ ∀ a, a < s.outLen → t.outByte a = s.outByte a

/-- CARRY changes by FLAGTAKE alone among the engine's operations that do not fault (R17), and the descriptor registers and the table by
HEADER alone ("computed once per decode stream, immutable thereafter", 10_state.md section 3). -/
def Obligations.CarryAndMethodHaveOneWriter : Prop :=
  ∀ (s t : State) (op : Opcode), s.host = [] → enabledOp s = some op → step s = .next t → t.state ≠ .fault →
    (op ≠ .flagtake → t.carry = s.carry) ∧
    (op ≠ .header → t.desc = s.desc ∧ t.shifter = s.shifter ∧ t.lenBits = s.lenBits ∧ t.lenMask = s.lenMask ∧
      t.threshold = s.threshold ∧ t.lt = s.lt)

/-- The state after reset meets the invariant (R36; the values that the spec leaves unspecified are log entry 3). -/
def Obligations.ResetMeetsTheInvariant : Prop :=
  Inv State.reset

/-- Every step keeps the invariant of R36, whatever the host does at its boundary. -/
def Obligations.StepKeepsTheInvariant : Prop :=
  ∀ s t : State, Inv s → step s = .next t → Inv t

/-- On loaded input the engine always has a next state: the copy loop never reads a byte that has not been written (R127), the table is
read where it was built (R122), and no byte at or above IN_LEN is read (R45). -/
def Obligations.EngineNeverStops : Prop :=
  ∀ s : State, Inv s → InputLoaded s → s.host = [] → ∃ t, step s = .next t ∧ Inv t ∧ InputLoaded t ∧ t.host = []

/-- Every run ends (R158), within 1 step for HEADER, 2 + 1 + 887 + 1 for each of at most 2^24 decode steps, and IN_LEN + 1 for the tail or
the tiny copy. -/
def Obligations.EveryRunEnds : Prop :=
  ∀ s t : State, s.status ≠ 1 → s.host = [] → InputLoaded s → exec .start s = .next t →
    ∃ n u, n ≤ 1 + 2 ^ 24 * (2 + 1 + 887 + 1) + (s.inLen + 1) ∧ runFor n t = .next u ∧ (u.state = .done ∨ u.state = .fault)

/-- The run as one function (R153): from START on loaded input the steps reach DONE or FAULT with exactly the result `decodeRun`
computes from the configuration, the input bytes and OUT_MAX. -/
def Obligations.RunComputesDecodeRun : Prop :=
  ∀ (s t : State) (inp : List Byte), s.status ≠ 1 → s.host = [] → InputIs s inp → exec .start s = .next t →
    ∃ n u, runFor n t = .next u ∧ Shows u (decodeRun s.params s.tinyEn s.inclTail inp)

/-- Runs with equal configuration and input agree on every result after the same number of steps, whatever the machine held before START
(R154, R141). -/
def Obligations.EarlierRunsLeaveNoTrace : Prop :=
  ∀ s s' t t' : State, s.status ≠ 1 → s'.status ≠ 1 → s.host = [] → s'.host = [] →
    s.params = s'.params → s.inclTail = s'.inclTail → s.tinyEn = s'.tinyEn → s.inLen = s'.inLen →
    (∀ a, a < s.inLen → s.inMem.read a = s'.inMem.read a) →
    exec .start s = .next t → exec .start s' = .next t' →
    ∀ n u, runFor n t = .next u → ∃ u', runFor n t' = .next u' ∧ SameResults u u'

/-- A run through the flag loop that reaches DONE fetched `ceil((count + 1) / 8)` flag bytes (R106, R104). -/
def Obligations.OneFlagByteForEightSteps : Prop :=
  ∀ (s t u : State) (c n : Nat), s.status ≠ 1 → s.host = [] → exec .start s = .next t → t.state = .header →
    s.memReadIn 1 3 = some c → runFor n t = .next u → u.state = .done → timesRun .flagfill n t = (c + 1 + 7) / 8

/-- How many steps a run through the flag loop takes to DONE (R211): HEADER, the flag bytes, three for each decode step, LENGTH + 1 for each
back-reference, the tail bytes copied, FINISH. -/
def Obligations.StepsToDone : Prop :=
  ∀ (s t u : State) (c n : Nat), s.status ≠ 1 → s.host = [] → exec .start s = .next t → t.state = .header →
    s.memReadIn 1 3 = some c → runFor n t = .next u → u.state = .done →
    (∀ k v, k < n → runFor k t = .next v → v.state ≠ .done) →
    n = 1 + (c + 1 + 7) / 8 + 3 * (c + 1)
      + timesRun .backref n t * (tableEntry (u.lenMask.toNat - 1) u.shifter.toNat u.threshold.toNat + 1)
      + (if s.inclTail then timesRun .tailcopy n t else 0) + 1 ∧
    (s.inclTail = true → u.cur = s.inLen)

/-! ## The run as one function, the stream check, listings -/

/-- Which streams decode to DONE (R73): with the shortcut not taken, exactly those the length-only check accepts, provided OUT is large
enough, that is, unbounded or with room for the output of the same run with OUT unbounded. -/
def Obligations.StreamCheckDecidesDone : Prop :=
  ∀ (params : Params) (tinyEn inclTail : Bool) (inp : List Byte), (tinyEn = true → 10 ≤ inp.length) →
    ((∃ out consumed overflow, decodeRun params tinyEn inclTail inp = .done out consumed overflow) ↔
      streamWellFormed params.layout inp = true ∧
      ∀ m out consumed overflow, params.outMax = some m →
        decodeRun { params with outMax := none } tinyEn inclTail inp = .done out consumed overflow → out.length ≤ m)

/-- Assembly is the decoding read backwards (R71, R66): an assembled listing decodes to what its tokens stand for, its tail handled by
INCL_TAIL, and faults where a token does. -/
def Obligations.AssembledListingDecodes : Prop :=
  ∀ (params : Params) (inclTail : Bool) (l : Listing), l.wellFormed = true →
    decodeRun params false inclTail l.assemble =
      match expandTokens params.layout params.outMax l.desc l.tokens [] with
      | .ok out => finishRun params.outMax inclTail l.assemble.length l.tail out
      | .error e => .fault e

/-- Splitting and joining (95_test_vectors.md section 8, item 4): with OUT unbounded, the output with INCL_TAIL = 1 is the output with
INCL_TAIL = 0 followed by the overflow, which is the input from CUR on. -/
def Obligations.TailSplitsOrJoins : Prop :=
  ∀ (params : Params) (tinyEn : Bool) (inp out rest : List Byte) (consumed : Nat), params.outMax = none →
    decodeRun params tinyEn false inp = .done out consumed (some rest) →
    decodeRun params tinyEn true inp = .done (out ++ rest) inp.length none ∧ rest = inp.drop consumed

/-- A run depends on the bytes it consumed only (95_test_vectors.md section 8, item 5): another tail changes the overflow alone. -/
def Obligations.DoneDependsOnConsumedBytes : Prop :=
  ∀ (params : Params) (inp out rest rest' : List Byte) (consumed : Nat),
    decodeRun params false false inp = .done out consumed (some rest) →
    decodeRun params false false (inp.take consumed ++ rest') = .done out consumed (some rest')

/-! ## The host's archive parser -/

/-- The archive parser (R160 to R163), outside the block: it fails by TruncatedHeader alone; for either size it succeeds exactly where the
fields, and the 0x800 bytes where that is the size, are there; the model picks 0x800 (log entry 19). Where it succeeds, version,
identifier, file_count and the three fields of every entry are the little-endian numbers at their offsets, the checksum is the four bytes
after the entries, and archive mode places the container's bytes from 0x800 on in IN. -/
def Obligations.ArchiveParserReadsLittleEndian : Prop :=
  (∀ (size : HeaderSize) (container : List Byte) (e : ErrKind),
    parseArchiveHeader size container = .error e → e = .truncatedHeader) ∧
  (∀ (size : HeaderSize) (container : List Byte),
    (∃ h, parseArchiveHeader size container = .ok h) ↔
      16 + 12 * littleEndianAt container 8 ≤ container.length ∧ (size = .beforePayload → 0x800 ≤ container.length)) ∧
  (∀ container : List Byte, parseArchive container = parseArchiveHeader .beforePayload container) ∧
  (∀ (size : HeaderSize) (container : List Byte) (h : ArchiveHeader), parseArchiveHeader size container = .ok h →
    h.version.toNat = littleEndianAt container 0 ∧ h.identifier.toNat = littleEndianAt container 4 ∧
    h.fileCount.toNat = littleEndianAt container 8 ∧ h.entries.length = h.fileCount.toNat ∧
    (∀ k x y z, h.entries[k]? = some (x, y, z) →
      x.toNat = littleEndianAt container (12 + 12 * k) ∧ y.toNat = littleEndianAt container (12 + 12 * k + 4) ∧
      z.toNat = littleEndianAt container (12 + 12 * k + 8)) ∧
    h.checksum = (container.drop (12 + 12 * h.fileCount.toNat)).take 4 ∧ h.payloadOffset = 0x800) ∧
  ∀ (container : List Byte) (k : Nat), (archivePayload container)[k]? = container[0x800 + k]?
end

