-- ==== Sys2Proof/Laws/Memory.lean ====
section
/-! SUPPORT. The laws of a space: a read after a write, the canonical form kept by every operation, and runs of bytes. -/

namespace Sys2Proof.Machine

@[simp] theorem Memory.read_nil (a : Nat) : Memory.read [] a = none := rfl

theorem Memory.read_cons (k : Nat) (b : Byte) (m : Memory) (a : Nat) :
    Memory.read ((k, b) :: m) a = if k = a then some b else Memory.read m a := rfl

/-- What a write does to every address at once. -/
theorem Memory.read_write (m : Memory) (a : Nat) (v : Byte) (x : Nat) :
    Memory.read (Memory.write m a v) x = if x = a then some v else Memory.read m x := by
  induction m with
  | nil => simp only [Memory.write, Memory.read, eq_comm]
  | cons c m ih =>
    obtain ⟨k, b⟩ := c
    simp only [Memory.write]
    split
    · simp only [Memory.read_cons, eq_comm]
    · split
      · subst a
        simp only [Memory.read_cons, eq_comm]
        split <;> rfl
      · simp only [Memory.read_cons, ih]
        rename_i hlt hne
        by_cases hx : x = a
        · subst hx
          simp [Ne.symm hne]
        · simp [hx]

@[simp] theorem Memory.read_write_same (m : Memory) (a : Nat) (v : Byte) :
    Memory.read (Memory.write m a v) a = some v := by
  simp [Memory.read_write]

theorem Memory.read_write_other (m : Memory) {a x : Nat} (v : Byte) (h : x ≠ a) :
    Memory.read (Memory.write m a v) x = Memory.read m x := by
  simp [Memory.read_write, h]

/-- A write adds no address but its own. -/
theorem Memory.mem_write {m : Memory} {a : Nat} {v : Byte} {c : Host.Cell} (h : c ∈ Memory.write m a v) :
    c = (a, v) ∨ c ∈ m := by
  induction m with
  | nil => simpa [Memory.write] using h
  | cons d m ih =>
    obtain ⟨k, b⟩ := d
    simp only [Memory.write] at h
    split at h
    · simpa using h
    · split at h
      · rcases List.mem_cons.mp h with h | h
        · exact .inl h
        · exact .inr (List.mem_cons_of_mem _ h)
      · rcases List.mem_cons.mp h with h | h
        · exact .inr (h ▸ List.mem_cons_self)
        · rcases ih h with h | h
          · exact .inl h
          · exact .inr (List.mem_cons_of_mem _ h)

/-- A write keeps the canonical form. -/
theorem Memory.write_wf {m : Memory} (h : Memory.wf m) (a : Nat) (v : Byte) : Memory.wf (Memory.write m a v) := by
  induction m with
  | nil => simp [Memory.write, Memory.wf]
  | cons d m ih =>
    obtain ⟨k, b⟩ := d
    have hk : ∀ c ∈ m, k < c.1 := (List.pairwise_cons.mp h).1
    have hm : Memory.wf m := (List.pairwise_cons.mp h).2
    simp only [Memory.write]
    split
    · rename_i hlt
      refine List.pairwise_cons.mpr ⟨fun c hc => ?_, h⟩
      rcases List.mem_cons.mp hc with rfl | hc
      · exact hlt
      · exact hlt.trans (hk c hc)
    · split
      · rename_i heq
        exact List.pairwise_cons.mpr ⟨fun c hc => heq ▸ hk c hc, hm⟩
      · refine List.pairwise_cons.mpr ⟨fun c hc => ?_, ih hm⟩
        rcases Memory.mem_write hc with rfl | hc
        · change k < a
          omega
        · exact hk c hc

/-- A load keeps the canonical form. -/
theorem Memory.load_wf {m : Memory} (h : Memory.wf m) (a : Nat) (bytes : List Byte) : Memory.wf (Memory.load m a bytes) := by
  induction bytes generalizing m a with
  | nil => exact h
  | cons b bs ih => exact ih (Memory.write_wf h a b) (a + 1)

/-- What a load does to every address at once. -/
theorem Memory.read_load (m : Memory) (a : Nat) (bytes : List Byte) (x : Nat) :
    Memory.read (Memory.load m a bytes) x =
      if a ≤ x ∧ x < a + bytes.length then bytes[x - a]? else Memory.read m x := by
  induction bytes generalizing m a with
  | nil =>
    have : ¬ (a ≤ x ∧ x < a + ([] : List Byte).length) := by simp
    rw [if_neg this]
    rfl
  | cons b bs ih =>
    rw [Memory.load, ih, Memory.read_write]
    by_cases hx : x = a
    · subst hx
      rw [if_neg (by omega), if_pos rfl, if_pos (by simp)]
      simp
    · rw [if_neg hx]
      by_cases hlt : a + 1 ≤ x ∧ x < a + 1 + bs.length
      · rw [if_pos hlt, if_pos (by simp; omega)]
        obtain ⟨n, rfl⟩ : ∃ n, x = a + 1 + n := ⟨x - (a + 1), by omega⟩
        have h1 : a + 1 + n - (a + 1) = n := by omega
        have h2 : a + 1 + n - a = n + 1 := by omega
        rw [h1, h2, List.getElem?_cons_succ]
      · rw [if_neg hlt, if_neg (by simp; omega)]

/-- A load adds only addresses of its own range. -/
theorem Memory.mem_load {m : Memory} {a : Nat} {bytes : List Byte} {c : Host.Cell} (h : c ∈ Memory.load m a bytes) :
    c ∈ m ∨ (a ≤ c.1 ∧ c.1 < a + bytes.length) := by
  induction bytes generalizing m a with
  | nil => exact .inl h
  | cons b bs ih =>
    rcases ih h with h | h
    · rcases Memory.mem_write h with rfl | h
      · exact .inr ⟨le_refl _, by simp⟩
      · exact .inl h
    · exact .inr ⟨by omega, by simp; omega⟩

/-- A run of bytes is read exactly where each of them has a value. -/
theorem Memory.readBytes_eq_some {m : Memory} {a n : Nat} {bytes : List Byte} :
    Memory.readBytes m a n = some bytes ↔ bytes.length = n ∧ ∀ k, k < n → Memory.read m (a + k) = bytes[k]? := by
  induction n generalizing a bytes with
  | zero =>
    have : [] = bytes ↔ bytes.length = 0 := by rw [List.length_eq_zero_iff, eq_comm]
    simp [Memory.readBytes, this]
  | succ n ih =>
    constructor
    · intro h
      simp only [Memory.readBytes] at h
      split at h
      · rename_i b bs hb hbs
        obtain rfl : b :: bs = bytes := by simpa using h
        obtain ⟨hlen, hread⟩ := ih.mp hbs
        refine ⟨by simp [hlen], fun k hk => ?_⟩
        cases k with
        | zero => simpa using hb
        | succ k =>
          rw [List.getElem?_cons_succ, ← hread k (by omega)]
          congr 1
          omega
      · simp at h
    · rintro ⟨hlen, hread⟩
      match bytes, hlen with
      | b :: bs, hlen =>
        have hb : Memory.read m a = some b := by simpa using hread 0 (by omega)
        have hbs : Memory.readBytes m (a + 1) n = some bs := by
          refine ih.mpr ⟨by simpa using hlen, fun k hk => ?_⟩
          have := hread (k + 1) (by omega)
          rw [List.getElem?_cons_succ] at this
          rw [← this]
          congr 1
          omega
        simp only [Memory.readBytes, hb, hbs]

/-- Where every byte of a run has a value, the run is read. -/
theorem Memory.readBytes_isSome {m : Memory} {a n : Nat} (h : ∀ k, k < n → (Memory.read m (a + k)).isSome = true) :
    ∃ bytes, Memory.readBytes m a n = some bytes := by
  induction n generalizing a with
  | zero => exact ⟨[], rfl⟩
  | succ n ih =>
    obtain ⟨b, hb⟩ := Option.isSome_iff_exists.mp (h 0 (by omega))
    obtain ⟨bs, hbs⟩ := ih (a := a + 1) fun k hk => by
      have := h (k + 1) (by omega)
      rwa [show a + (k + 1) = a + 1 + k by omega] at this
    exact ⟨b :: bs, by simp only [Memory.readBytes, show Memory.read m a = some b from hb, hbs]⟩

/-- The spaces after reset are canonical. -/
theorem reset_memories_wf : Memory.wf State.reset.inMem ∧ Memory.wf State.reset.outMem :=
  ⟨List.Pairwise.nil, List.Pairwise.nil⟩

end Sys2Proof.Machine
end

