-- ==== Sys2Proof/Laws/Operands.lean ====
section
/-! SUPPORT. The derived registers as numbers. -/

namespace Sys2Proof.Machine

theorem lenMaskOf_toNat (lenBits : BitVec 3) : (lenMaskOf lenBits).toNat = 2 ^ lenBits.toNat := by
  revert lenBits
  decide

theorem lenMaskOf_pos (lenBits : BitVec 3) : 1 ≤ (lenMaskOf lenBits).toNat ∧ (lenMaskOf lenBits).toNat ≤ 128 := by
  revert lenBits
  decide

theorem thresholdOf_lenMaskOf_le (lenBits : BitVec 3) : (thresholdOf (lenMaskOf lenBits)).toNat ≤ 19 := by
  revert lenBits
  decide

theorem shifter_le_three (shifter : BitVec 2) : shifter.toNat ≤ 3 := by
  have := shifter.isLt
  omega

/-- Every entry of a table that is read lies between 3 and 886. -/
theorem tableEntry_bounds (lenBits : BitVec 3) (shifter : BitVec 2) {i : Nat} (h : i < (lenMaskOf lenBits).toNat) :
    3 ≤ tableEntry i shifter.toNat (thresholdOf (lenMaskOf lenBits)).toNat ∧
      tableEntry i shifter.toNat (thresholdOf (lenMaskOf lenBits)).toNat ≤ 886 := by
  revert lenBits shifter
  have key : ∀ (b : Fin 8) (s : Fin 4), ∀ i < (lenMaskOf (BitVec.ofFin b)).toNat,
      3 ≤ tableEntry i s.val (thresholdOf (lenMaskOf (BitVec.ofFin b))).toNat ∧
        tableEntry i s.val (thresholdOf (lenMaskOf (BitVec.ofFin b))).toNat ≤ 886 := by
    decide +kernel
  intro lenBits shifter h
  exact key lenBits.toFin shifter.toFin i h

/-- The table after a build: the formula below LEN_MASK, the old entry elsewhere. -/
theorem buildTable_getElem? (lenMask : BitVec 8) (shifter : BitVec 2) (threshold : BitVec 5)
    (old : Vector (BitVec 10) 128) (i : Nat) (h : i < 128) :
    (buildTable lenMask shifter threshold old)[i]? =
      if i < lenMask.toNat then some (BitVec.ofNat 10 (tableEntry i shifter.toNat threshold.toNat)) else old[i]? := by
  unfold buildTable
  simp only [h, Vector.getElem?_eq_getElem, Vector.getElem_ofFn, Fin.getElem_fin]
  split <;> simp

/-- A length a space can hold fits the register that is as wide as its addresses (R4). -/
theorem lt_two_pow_addrWidth {m n : Nat} (h : n ≤ m) : n < 2 ^ addrWidth m := by
  unfold addrWidth
  split
  · simp; omega
  · exact lt_of_le_of_lt h (by simpa using Nat.lt_log2_self)

/-- What such a register holds has its width. -/
theorem withinAddrWidth_lt (m n : Nat) : withinAddrWidth (some m) n < 2 ^ addrWidth m :=
  Nat.mod_lt _ (by positivity)

@[simp] theorem withinAddrWidth_none (n : Nat) : withinAddrWidth none n = n := rfl

/-- A legal length is held whole. -/
theorem withinAddrWidth_of_le {m n : Nat} (h : n ≤ m) : withinAddrWidth (some m) n = n :=
  Nat.mod_eq_of_lt (lt_two_pow_addrWidth h)

theorem windowShift_toNat (fw : BitVec 9) : (windowShift fw).toNat = fw.toNat / 2 := by
  simp [windowShift, BitVec.toNat_ushiftRight, Nat.shiftRight_eq_div_pow]

theorem windowExhausted_iff (fw : BitVec 9) : windowExhausted fw = true ↔ fw >>> 1 = 0 := by
  simp [windowExhausted, windowShift]

theorem refill_toNat (b : Byte) : (refill b).toNat = 0x100 + b.toNat := by
  have := b.isLt
  simp [refill, BitVec.toNat_add]
  omega

theorem flagBit_iff (fw : BitVec 9) : flagBit fw = true ↔ fw.toNat % 2 = 1 := by
  simp [flagBit, BitVec.getLsbD]

theorem stepsOf_toNat (count : BitVec 24) : (stepsOf count).toNat = count.toNat + 1 := by
  have := count.isLt
  simp [stepsOf, BitVec.toNat_add]
  omega

/-- With the one-bit mask the masked value is LEN_MASK or 0, by the bit of R65. -/
theorem maskedValue_lenMaskOf (lenBits : BitVec 3) (dist : BitVec 16) :
    (maskedValue (lenMaskOf lenBits) dist).toNat =
      if refIndexBit lenBits dist then (lenMaskOf lenBits).toNat else 0 := by
  have hmask : ((lenMaskOf lenBits).setWidth 16).toNat = 2 ^ lenBits.toNat := by
    revert lenBits
    decide
  rw [maskedValue, indexMask, BitVec.toNat_and, hmask, lenMaskOf_toNat, Nat.and_two_pow, refIndexBit, BitVec.getLsbD]
  cases dist.toNat.testBit lenBits.toNat <;> simp

theorem displacementOf_toNat (lenBits : BitVec 3) (dist : BitVec 16) :
    (displacementOf lenBits dist).toNat = refDisplacement lenBits dist := by
  simp [displacementOf, refDisplacement, BitVec.toNat_ushiftRight, Nat.shiftRight_eq_div_pow]

/-- The index bit is the lowest bit of the displacement. -/
theorem refDisplacement_odd {lenBits : BitVec 3} {dist : BitVec 16} :
    refDisplacement lenBits dist % 2 = 1 ↔ refIndexBit lenBits dist = true := by
  rw [refDisplacement, refIndexBit, BitVec.getLsbD, Nat.testBit_eq_decide_div_mod_eq, decide_eq_true_iff]

end Sys2Proof.Machine
end

