-- ==== Sys2Proof/Laws/State.lean ====
section
/-! SUPPORT. Each field after each shared update of the state, so that no proof unfolds a record update. -/

namespace Sys2Proof.Machine

/-! ## `clearResults`: The result registers and CUR at 0. -/

@[simp] theorem clearResults_state (s : State) : (clearResults s).state = s.state := rfl
@[simp] theorem clearResults_cur (s : State) : (clearResults s).cur = 0 := rfl
@[simp] theorem clearResults_desc (s : State) : (clearResults s).desc = s.desc := rfl
@[simp] theorem clearResults_shifter (s : State) : (clearResults s).shifter = s.shifter := rfl
@[simp] theorem clearResults_lenBits (s : State) : (clearResults s).lenBits = s.lenBits := rfl
@[simp] theorem clearResults_lenMask (s : State) : (clearResults s).lenMask = s.lenMask := rfl
@[simp] theorem clearResults_threshold (s : State) : (clearResults s).threshold = s.threshold := rfl
@[simp] theorem clearResults_fw (s : State) : (clearResults s).fw = s.fw := rfl
@[simp] theorem clearResults_fc (s : State) : (clearResults s).fc = s.fc := rfl
@[simp] theorem clearResults_carry (s : State) : (clearResults s).carry = s.carry := rfl
@[simp] theorem clearResults_dist (s : State) : (clearResults s).dist = s.dist := rfl
@[simp] theorem clearResults_disp (s : State) : (clearResults s).disp = s.disp := rfl
@[simp] theorem clearResults_length (s : State) : (clearResults s).length = s.length := rfl
@[simp] theorem clearResults_src (s : State) : (clearResults s).src = s.src := rfl
@[simp] theorem clearResults_rem (s : State) : (clearResults s).rem = s.rem := rfl
@[simp] theorem clearResults_lt (s : State) : (clearResults s).lt = s.lt := rfl
@[simp] theorem clearResults_inclTail (s : State) : (clearResults s).inclTail = s.inclTail := rfl
@[simp] theorem clearResults_tinyEn (s : State) : (clearResults s).tinyEn = s.tinyEn := rfl
@[simp] theorem clearResults_inLen (s : State) : (clearResults s).inLen = s.inLen := rfl
@[simp] theorem clearResults_err (s : State) : (clearResults s).err = s.err := rfl
@[simp] theorem clearResults_outLen (s : State) : (clearResults s).outLen = 0 := rfl
@[simp] theorem clearResults_ovfValid (s : State) : (clearResults s).ovfValid = false := rfl
@[simp] theorem clearResults_ovfBase (s : State) : (clearResults s).ovfBase = 0 := rfl
@[simp] theorem clearResults_ovfLen (s : State) : (clearResults s).ovfLen = 0 := rfl
@[simp] theorem clearResults_inMem (s : State) : (clearResults s).inMem = s.inMem := rfl
@[simp] theorem clearResults_outMem (s : State) : (clearResults s).outMem = s.outMem := rfl
@[simp] theorem clearResults_params (s : State) : (clearResults s).params = s.params := rfl
@[simp] theorem clearResults_host (s : State) : (clearResults s).host = s.host := rfl

/-! ## `discardWork`: The registers and OUT after which nothing of the run is defined. -/

@[simp] theorem discardWork_state (s : State) : (discardWork s).state = s.state := rfl
@[simp] theorem discardWork_cur (s : State) : (discardWork s).cur = s.cur := rfl
@[simp] theorem discardWork_desc (s : State) : (discardWork s).desc = Config.freeDesc s := rfl
@[simp] theorem discardWork_shifter (s : State) : (discardWork s).shifter = Config.freeShifter s := rfl
@[simp] theorem discardWork_lenBits (s : State) : (discardWork s).lenBits = Config.freeLenBits s := rfl
@[simp] theorem discardWork_lenMask (s : State) : (discardWork s).lenMask = Config.freeLenMask s := rfl
@[simp] theorem discardWork_threshold (s : State) : (discardWork s).threshold = Config.freeThreshold s := rfl
@[simp] theorem discardWork_fw (s : State) : (discardWork s).fw = Config.freeFw s := rfl
@[simp] theorem discardWork_fc (s : State) : (discardWork s).fc = Config.freeFc s := rfl
@[simp] theorem discardWork_carry (s : State) : (discardWork s).carry = Config.freeCarry s := rfl
@[simp] theorem discardWork_dist (s : State) : (discardWork s).dist = Config.freeDist s := rfl
@[simp] theorem discardWork_disp (s : State) : (discardWork s).disp = Config.freeDisp s := rfl
@[simp] theorem discardWork_length (s : State) : (discardWork s).length = Config.freeLength s := rfl
@[simp] theorem discardWork_src (s : State) :
    (discardWork s).src = withinAddrWidth s.params.outMax (Config.freeSrc s) := rfl
@[simp] theorem discardWork_rem (s : State) : (discardWork s).rem = Config.freeRem s := rfl
@[simp] theorem discardWork_lt (s : State) : (discardWork s).lt = Vector.ofFn fun i => Config.freeLt s i.val := rfl
@[simp] theorem discardWork_inclTail (s : State) : (discardWork s).inclTail = s.inclTail := rfl
@[simp] theorem discardWork_tinyEn (s : State) : (discardWork s).tinyEn = s.tinyEn := rfl
@[simp] theorem discardWork_inLen (s : State) : (discardWork s).inLen = s.inLen := rfl
@[simp] theorem discardWork_err (s : State) : (discardWork s).err = s.err := rfl
@[simp] theorem discardWork_outLen (s : State) : (discardWork s).outLen = s.outLen := rfl
@[simp] theorem discardWork_ovfValid (s : State) : (discardWork s).ovfValid = s.ovfValid := rfl
@[simp] theorem discardWork_ovfBase (s : State) : (discardWork s).ovfBase = s.ovfBase := rfl
@[simp] theorem discardWork_ovfLen (s : State) : (discardWork s).ovfLen = s.ovfLen := rfl
@[simp] theorem discardWork_inMem (s : State) : (discardWork s).inMem = s.inMem := rfl
@[simp] theorem discardWork_outMem (s : State) : (discardWork s).outMem = [] := rfl
@[simp] theorem discardWork_params (s : State) : (discardWork s).params = s.params := rfl
@[simp] theorem discardWork_host (s : State) : (discardWork s).host = s.host := rfl

/-! ## `clearRun`: What START, ABORT and reset clear. -/

@[simp] theorem clearRun_state (s : State) : (clearRun s).state = s.state := rfl
@[simp] theorem clearRun_cur (s : State) : (clearRun s).cur = 0 := rfl
@[simp] theorem clearRun_desc (s : State) : (clearRun s).desc = s.desc := rfl
@[simp] theorem clearRun_shifter (s : State) : (clearRun s).shifter = s.shifter := rfl
@[simp] theorem clearRun_lenBits (s : State) : (clearRun s).lenBits = s.lenBits := rfl
@[simp] theorem clearRun_lenMask (s : State) : (clearRun s).lenMask = s.lenMask := rfl
@[simp] theorem clearRun_threshold (s : State) : (clearRun s).threshold = s.threshold := rfl
@[simp] theorem clearRun_fw (s : State) : (clearRun s).fw = 0 := rfl
@[simp] theorem clearRun_fc (s : State) : (clearRun s).fc = 0 := rfl
@[simp] theorem clearRun_carry (s : State) : (clearRun s).carry = false := rfl
@[simp] theorem clearRun_dist (s : State) : (clearRun s).dist = s.dist := rfl
@[simp] theorem clearRun_disp (s : State) : (clearRun s).disp = s.disp := rfl
@[simp] theorem clearRun_length (s : State) : (clearRun s).length = s.length := rfl
@[simp] theorem clearRun_src (s : State) : (clearRun s).src = s.src := rfl
@[simp] theorem clearRun_rem (s : State) : (clearRun s).rem = s.rem := rfl
@[simp] theorem clearRun_lt (s : State) : (clearRun s).lt = s.lt := rfl
@[simp] theorem clearRun_inclTail (s : State) : (clearRun s).inclTail = s.inclTail := rfl
@[simp] theorem clearRun_tinyEn (s : State) : (clearRun s).tinyEn = s.tinyEn := rfl
@[simp] theorem clearRun_inLen (s : State) : (clearRun s).inLen = s.inLen := rfl
@[simp] theorem clearRun_err (s : State) : (clearRun s).err = 0 := rfl
@[simp] theorem clearRun_outLen (s : State) : (clearRun s).outLen = 0 := rfl
@[simp] theorem clearRun_ovfValid (s : State) : (clearRun s).ovfValid = false := rfl
@[simp] theorem clearRun_ovfBase (s : State) : (clearRun s).ovfBase = 0 := rfl
@[simp] theorem clearRun_ovfLen (s : State) : (clearRun s).ovfLen = 0 := rfl
@[simp] theorem clearRun_inMem (s : State) : (clearRun s).inMem = s.inMem := rfl
@[simp] theorem clearRun_outMem (s : State) : (clearRun s).outMem = [] := rfl
@[simp] theorem clearRun_params (s : State) : (clearRun s).params = s.params := rfl
@[simp] theorem clearRun_host (s : State) : (clearRun s).host = s.host := rfl

/-! ## `faultEntry`: Fault entry. -/

@[simp] theorem faultEntry_state (e : ErrKind) (s : State) : (faultEntry e s).state = .fault := rfl
@[simp] theorem faultEntry_cur (e : ErrKind) (s : State) : (faultEntry e s).cur = 0 := rfl
@[simp] theorem faultEntry_desc (e : ErrKind) (s : State) : (faultEntry e s).desc = Config.freeDesc s := rfl
@[simp] theorem faultEntry_shifter (e : ErrKind) (s : State) : (faultEntry e s).shifter = Config.freeShifter s := rfl
@[simp] theorem faultEntry_lenBits (e : ErrKind) (s : State) : (faultEntry e s).lenBits = Config.freeLenBits s := rfl
@[simp] theorem faultEntry_lenMask (e : ErrKind) (s : State) : (faultEntry e s).lenMask = Config.freeLenMask s := rfl
@[simp] theorem faultEntry_threshold (e : ErrKind) (s : State) :
    (faultEntry e s).threshold = Config.freeThreshold s := rfl
@[simp] theorem faultEntry_fw (e : ErrKind) (s : State) : (faultEntry e s).fw = Config.freeFw s := rfl
@[simp] theorem faultEntry_fc (e : ErrKind) (s : State) : (faultEntry e s).fc = Config.freeFc s := rfl
@[simp] theorem faultEntry_carry (e : ErrKind) (s : State) : (faultEntry e s).carry = Config.freeCarry s := rfl
@[simp] theorem faultEntry_dist (e : ErrKind) (s : State) : (faultEntry e s).dist = Config.freeDist s := rfl
@[simp] theorem faultEntry_disp (e : ErrKind) (s : State) : (faultEntry e s).disp = Config.freeDisp s := rfl
@[simp] theorem faultEntry_length (e : ErrKind) (s : State) : (faultEntry e s).length = Config.freeLength s := rfl
@[simp] theorem faultEntry_src (e : ErrKind) (s : State) :
    (faultEntry e s).src = withinAddrWidth s.params.outMax (Config.freeSrc s) := rfl
@[simp] theorem faultEntry_rem (e : ErrKind) (s : State) : (faultEntry e s).rem = Config.freeRem s := rfl
@[simp] theorem faultEntry_lt (e : ErrKind) (s : State) :
    (faultEntry e s).lt = Vector.ofFn fun i => Config.freeLt s i.val := rfl
@[simp] theorem faultEntry_inclTail (e : ErrKind) (s : State) : (faultEntry e s).inclTail = s.inclTail := rfl
@[simp] theorem faultEntry_tinyEn (e : ErrKind) (s : State) : (faultEntry e s).tinyEn = s.tinyEn := rfl
@[simp] theorem faultEntry_inLen (e : ErrKind) (s : State) : (faultEntry e s).inLen = s.inLen := rfl
@[simp] theorem faultEntry_err (e : ErrKind) (s : State) : (faultEntry e s).err = e.code := rfl
@[simp] theorem faultEntry_outLen (e : ErrKind) (s : State) : (faultEntry e s).outLen = 0 := rfl
@[simp] theorem faultEntry_ovfValid (e : ErrKind) (s : State) : (faultEntry e s).ovfValid = false := rfl
@[simp] theorem faultEntry_ovfBase (e : ErrKind) (s : State) : (faultEntry e s).ovfBase = 0 := rfl
@[simp] theorem faultEntry_ovfLen (e : ErrKind) (s : State) : (faultEntry e s).ovfLen = 0 := rfl
@[simp] theorem faultEntry_inMem (e : ErrKind) (s : State) : (faultEntry e s).inMem = s.inMem := rfl
@[simp] theorem faultEntry_outMem (e : ErrKind) (s : State) : (faultEntry e s).outMem = [] := rfl
@[simp] theorem faultEntry_params (e : ErrKind) (s : State) : (faultEntry e s).params = s.params := rfl
@[simp] theorem faultEntry_host (e : ErrKind) (s : State) : (faultEntry e s).host = s.host := rfl

/-! ## `loadMethod`: The descriptor registers and the table. -/

@[simp] theorem loadMethod_state (desc : Byte) (s : State) : (loadMethod desc s).state = s.state := rfl
@[simp] theorem loadMethod_cur (desc : Byte) (s : State) : (loadMethod desc s).cur = s.cur := rfl
@[simp] theorem loadMethod_desc (desc : Byte) (s : State) : (loadMethod desc s).desc = desc := rfl
@[simp] theorem loadMethod_shifter (desc : Byte) (s : State) : (loadMethod desc s).shifter = shifterOf s.params.layout desc := rfl
@[simp] theorem loadMethod_lenBits (desc : Byte) (s : State) : (loadMethod desc s).lenBits = lenBitsOf s.params.layout desc := rfl
@[simp] theorem loadMethod_lenMask (desc : Byte) (s : State) :
    (loadMethod desc s).lenMask = lenMaskOf (lenBitsOf s.params.layout desc) := rfl
@[simp] theorem loadMethod_threshold (desc : Byte) (s : State) :
    (loadMethod desc s).threshold = thresholdOf (lenMaskOf (lenBitsOf s.params.layout desc)) := rfl
@[simp] theorem loadMethod_fw (desc : Byte) (s : State) : (loadMethod desc s).fw = s.fw := rfl
@[simp] theorem loadMethod_fc (desc : Byte) (s : State) : (loadMethod desc s).fc = s.fc := rfl
@[simp] theorem loadMethod_carry (desc : Byte) (s : State) : (loadMethod desc s).carry = s.carry := rfl
@[simp] theorem loadMethod_dist (desc : Byte) (s : State) : (loadMethod desc s).dist = s.dist := rfl
@[simp] theorem loadMethod_disp (desc : Byte) (s : State) : (loadMethod desc s).disp = s.disp := rfl
@[simp] theorem loadMethod_length (desc : Byte) (s : State) : (loadMethod desc s).length = s.length := rfl
@[simp] theorem loadMethod_src (desc : Byte) (s : State) : (loadMethod desc s).src = s.src := rfl
@[simp] theorem loadMethod_rem (desc : Byte) (s : State) : (loadMethod desc s).rem = s.rem := rfl
@[simp] theorem loadMethod_lt (desc : Byte) (s : State) :
    (loadMethod desc s).lt = buildTable (lenMaskOf (lenBitsOf s.params.layout desc)) (shifterOf s.params.layout desc)
      (thresholdOf (lenMaskOf (lenBitsOf s.params.layout desc))) s.lt := rfl
@[simp] theorem loadMethod_inclTail (desc : Byte) (s : State) : (loadMethod desc s).inclTail = s.inclTail := rfl
@[simp] theorem loadMethod_tinyEn (desc : Byte) (s : State) : (loadMethod desc s).tinyEn = s.tinyEn := rfl
@[simp] theorem loadMethod_inLen (desc : Byte) (s : State) : (loadMethod desc s).inLen = s.inLen := rfl
@[simp] theorem loadMethod_err (desc : Byte) (s : State) : (loadMethod desc s).err = s.err := rfl
@[simp] theorem loadMethod_outLen (desc : Byte) (s : State) : (loadMethod desc s).outLen = s.outLen := rfl
@[simp] theorem loadMethod_ovfValid (desc : Byte) (s : State) : (loadMethod desc s).ovfValid = s.ovfValid := rfl
@[simp] theorem loadMethod_ovfBase (desc : Byte) (s : State) : (loadMethod desc s).ovfBase = s.ovfBase := rfl
@[simp] theorem loadMethod_ovfLen (desc : Byte) (s : State) : (loadMethod desc s).ovfLen = s.ovfLen := rfl
@[simp] theorem loadMethod_inMem (desc : Byte) (s : State) : (loadMethod desc s).inMem = s.inMem := rfl
@[simp] theorem loadMethod_outMem (desc : Byte) (s : State) : (loadMethod desc s).outMem = s.outMem := rfl
@[simp] theorem loadMethod_params (desc : Byte) (s : State) : (loadMethod desc s).params = s.params := rfl
@[simp] theorem loadMethod_host (desc : Byte) (s : State) : (loadMethod desc s).host = s.host := rfl

/-! ## `hostReset`: Reset in mid-run. -/

@[simp] theorem hostReset_state (s : State) : (hostReset s).state = .idle := rfl
@[simp] theorem hostReset_cur (s : State) : (hostReset s).cur = 0 := rfl
@[simp] theorem hostReset_desc (s : State) : (hostReset s).desc = Config.freeDesc s := rfl
@[simp] theorem hostReset_shifter (s : State) : (hostReset s).shifter = Config.freeShifter s := rfl
@[simp] theorem hostReset_lenBits (s : State) : (hostReset s).lenBits = Config.freeLenBits s := rfl
@[simp] theorem hostReset_lenMask (s : State) : (hostReset s).lenMask = Config.freeLenMask s := rfl
@[simp] theorem hostReset_threshold (s : State) : (hostReset s).threshold = Config.freeThreshold s := rfl
@[simp] theorem hostReset_fw (s : State) : (hostReset s).fw = 0 := rfl
@[simp] theorem hostReset_fc (s : State) : (hostReset s).fc = 0 := rfl
@[simp] theorem hostReset_carry (s : State) : (hostReset s).carry = false := rfl
@[simp] theorem hostReset_dist (s : State) : (hostReset s).dist = Config.freeDist s := rfl
@[simp] theorem hostReset_disp (s : State) : (hostReset s).disp = Config.freeDisp s := rfl
@[simp] theorem hostReset_length (s : State) : (hostReset s).length = Config.freeLength s := rfl
@[simp] theorem hostReset_src (s : State) :
    (hostReset s).src = withinAddrWidth s.params.outMax (Config.freeSrc s) := rfl
@[simp] theorem hostReset_rem (s : State) : (hostReset s).rem = Config.freeRem s := rfl
@[simp] theorem hostReset_lt (s : State) : (hostReset s).lt = Vector.ofFn fun i => Config.freeLt s i.val := rfl
@[simp] theorem hostReset_inclTail (s : State) : (hostReset s).inclTail = false := rfl
@[simp] theorem hostReset_tinyEn (s : State) : (hostReset s).tinyEn = true := rfl
@[simp] theorem hostReset_inLen (s : State) : (hostReset s).inLen = 0 := rfl
@[simp] theorem hostReset_err (s : State) : (hostReset s).err = 0 := rfl
@[simp] theorem hostReset_outLen (s : State) : (hostReset s).outLen = 0 := rfl
@[simp] theorem hostReset_ovfValid (s : State) : (hostReset s).ovfValid = false := rfl
@[simp] theorem hostReset_ovfBase (s : State) : (hostReset s).ovfBase = 0 := rfl
@[simp] theorem hostReset_ovfLen (s : State) : (hostReset s).ovfLen = 0 := rfl
@[simp] theorem hostReset_inMem (s : State) : (hostReset s).inMem = [] := rfl
@[simp] theorem hostReset_outMem (s : State) : (hostReset s).outMem = [] := rfl
@[simp] theorem hostReset_params (s : State) : (hostReset s).params = s.params := rfl
@[simp] theorem hostReset_host (s : State) : (hostReset s).host = s.host := rfl

end Sys2Proof.Machine
end

