-- ==== Sys2Proof/Laws/Ops.lean ====
section
/-! SUPPORT. For each shared operation, once, everything it can do. -/

namespace Sys2Proof.Machine

/-- The cursor's advance succeeds exactly where the bytes are there, and moves CUR alone. -/
theorem advance_ok {n : Nat} {s t : State} :
    advance n s = .ok t ↔ n ≤ s.inLen - s.cur ∧ t = { s with cur := s.cur + n } := by
  unfold advance
  split
  · simp; omega
  · simp only [Except.ok.injEq, eq_comm]
    constructor
    · exact fun h => ⟨by omega, h⟩
    · exact fun h => h.2

theorem advance_error {n : Nat} {s : State} {e : ErrKind} :
    advance n s = .error e ↔ s.inLen - s.cur < n ∧ e = .truncatedStream := by
  unfold advance
  split <;> simp_all [eq_comm]

/-- An append succeeds exactly where OUT is not full, writes at OUT_LEN and raises OUT_LEN by one. -/
theorem append_ok {v : Byte} {s t : State} :
    append v s = .ok t ↔ s.params.outMax ≠ some s.outLen ∧
      t = { s with outMem := s.outMem.write s.outLen v, outLen := s.outLen + 1 } := by
  unfold append
  split <;> simp_all [eq_comm]

theorem append_error {v : Byte} {s : State} {e : ErrKind} :
    append v s = .error e ↔ s.params.outMax = some s.outLen ∧ e = .outputOverflow := by
  unfold append
  split <;> simp_all [eq_comm]

/-- `completes` always answers a next state: the result, or fault entry from the state before. -/
theorem completes_next {s t : State} {r : Except ErrKind State} :
    completes s r = .next t ↔ r = .ok t ∨ ∃ e, r = .error e ∧ t = faultEntry e s := by
  cases r <;> simp [completes, eq_comm]

@[simp] theorem completes_ok (s t : State) : completes s (.ok t) = .next t := rfl

@[simp] theorem completes_error (s : State) (e : ErrKind) : completes s (.error e) = .next (faultEntry e s) := rfl

/-- A raw copy: one byte from CUR to the end of OUT. -/
theorem copyRaw_ok {v : Byte} {s t : State} :
    copyRaw v s = .ok t ↔ 1 ≤ s.inLen - s.cur ∧ s.params.outMax ≠ some s.outLen ∧
      t = { s with cur := s.cur + 1, outMem := s.outMem.write s.outLen v, outLen := s.outLen + 1 } := by
  unfold copyRaw
  cases h : advance 1 s with
  | error e =>
    have := (advance_error.mp h).1
    simp; omega
  | ok u =>
    obtain ⟨hle, rfl⟩ := advance_ok.mp h
    simp [append_ok, hle]

/-- The set-up of a copy: both checks passed, and the registers of R120 written. -/
theorem startCopy_ok {d : BitVec 16} {len : BitVec 10} {s t : State} :
    startCopy d len s = .ok t ↔
      displacementOf s.lenBits d ≠ 0 ∧ (displacementOf s.lenBits d).toNat ≤ s.outLen ∧
      t = { s with
        dist := d
        length := len
        disp := displacementOf s.lenBits d
        src := s.outLen - (displacementOf s.lenBits d).toNat
        rem := len
        state := .copy } := by
  unfold startCopy
  simp only
  split
  · simp_all
  · split
    · simp; omega
    · simp only [Except.ok.injEq, eq_comm]
      constructor
      · exact fun h => ⟨by assumption, by omega, h⟩
      · exact fun h => h.2.2

theorem startCopy_error {d : BitVec 16} {len : BitVec 10} {s : State} {e : ErrKind} :
    startCopy d len s = .error e ↔
      (displacementOf s.lenBits d = 0 ∧ e = .invalidDisplacement) ∨
      (displacementOf s.lenBits d ≠ 0 ∧ s.outLen < (displacementOf s.lenBits d).toNat ∧ e = .copyOutOfRange) := by
  unfold startCopy
  simp only
  split
  · simp_all [eq_comm]
  · split
    · simp_all [eq_comm]
    · simp_all

/-- A decoded operation is the one asked for, and its bytes are its encoding's many. -/
theorem decode_ok_opcode {op : Opcode} {bytes rest : List Byte} {i : Instr} (h : decode op bytes = .ok (i, rest)) :
    i.opcode = op ∧ bytes.length = op.size + rest.length := by
  cases op <;> simp only [decode] at h <;> (try split at h) <;>
    first
    | (obtain ⟨rfl, rfl⟩ := by simpa using h
       simp [Instr.opcode, Opcode.size] <;> omega)
    | simp at h

/-- With enough bytes an operation decodes. -/
theorem decode_succeeds {op : Opcode} {bytes : List Byte} (h : bytes.length = op.size) :
    ∃ i, decode op bytes = .ok (i, []) ∧ i.opcode = op := by
  have key : ∃ i rest, decode op bytes = .ok (i, rest) := by
    cases op <;> simp only [Opcode.size] at h <;>
      (first
        | exact ⟨_, _, rfl⟩
        | (match bytes, h with
           | [_], _ => exact ⟨_, _, rfl⟩)
        | (match bytes, h with
           | [_, _], _ => exact ⟨_, _, rfl⟩)
        | (match bytes, h with
           | [_, _, _, _], _ => exact ⟨_, _, rfl⟩))
  obtain ⟨i, rest, hi⟩ := key
  obtain ⟨hop, hlen⟩ := decode_ok_opcode hi
  obtain rfl : rest = [] := List.length_eq_zero_iff.mp (by omega)
  exact ⟨i, hi, hop⟩

/-- Everything the fetch of an operand can answer. -/
theorem fetchOperand_cases (op : Opcode) (s : State) :
    (fetchOperand op s = .truncated ∧ s.inLen - s.cur < op.size) ∨
    (fetchOperand op s = .unloaded s.cur ∧ op.size ≤ s.inLen - s.cur ∧ s.inMem.readBytes s.cur op.size = none) ∨
    (∃ bytes i, fetchOperand op s = .instr i ∧ op.size ≤ s.inLen - s.cur ∧
      s.inMem.readBytes s.cur op.size = some bytes ∧ decode op bytes = .ok (i, []) ∧ i.opcode = op) := by
  unfold fetchOperand
  split
  · exact .inl ⟨rfl, by assumption⟩
  · rename_i hle
    cases hb : s.inMem.readBytes s.cur op.size with
    | none => exact .inr (.inl ⟨rfl, by omega, rfl⟩)
    | some bytes =>
      obtain ⟨i, hi, hop⟩ := decode_succeeds (Memory.readBytes_eq_some.mp hb).1
      exact .inr (.inr ⟨bytes, i, by simp [hi], by omega, rfl, hi, hop⟩)

/-- Everything the engine's step can be. -/
theorem engineStep_cases (s : State) :
    (enabledOp s = none ∧ engineStep s = .next s) ∨
    (∃ op, enabledOp s = some op ∧
      ((s.inLen - s.cur < op.size ∧ engineStep s = .next (faultEntry .truncatedStream s)) ∨
       (op.size ≤ s.inLen - s.cur ∧ s.inMem.readBytes s.cur op.size = none ∧
          engineStep s = .fault (.inputByteUndefined s.cur)) ∨
       (∃ bytes i, op.size ≤ s.inLen - s.cur ∧ s.inMem.readBytes s.cur op.size = some bytes ∧
          decode op bytes = .ok (i, []) ∧ i.opcode = op ∧ engineStep s = exec i s))) := by
  unfold engineStep fetchInstr
  cases hop : enabledOp s with
  | none => exact .inl ⟨rfl, rfl⟩
  | some op =>
    refine .inr ⟨op, rfl, ?_⟩
    rcases fetchOperand_cases op s with ⟨h, hlt⟩ | ⟨h, hle, hb⟩ | ⟨bytes, i, h, hle, hb, hi, hio⟩
    · exact .inl ⟨hlt, by simp only [h]; rfl⟩
    · exact .inr (.inl ⟨hle, hb, by simp only [h]⟩)
    · exact .inr (.inr ⟨bytes, i, hle, hb, hi, hio, by simp only [h]⟩)

/-- With no move of the host a step is the engine's. -/
theorem stepOnce_engine {s : State} (h : s.host = []) : stepOnce s = engineStep s := by
  simp [stepOnce, h]

/-- With a move of the host a step is that move. -/
theorem stepOnce_host {s : State} {m : HostMove} {later : List HostMove} (h : s.host = m :: later) :
    stepOnce s = hostStep m { s with host := later } := by
  simp [stepOnce, h]

end Sys2Proof.Machine
end

