-- ==== Sys2Proof/Laws/PerInstr.lean ====
section
/-! SUPPORT. The family EncodeLength: the column "bytes consumed" of 30_encoding.md R70, one lemma per operation. -/

namespace Sys2Proof.Laws.EncodeLength

/-- An operation's encoding has as many bytes as its row consumes (R70). -/
def Statement (i : Instr) : Prop :=
  (encode i).length = i.opcode.size

theorem start : Statement .start := rfl
theorem abort : Statement .abort := rfl
theorem header (desc : Byte) (count : BitVec 24) : Statement (.header desc count) := rfl
theorem flagfill (flags : Byte) : Statement (.flagfill flags) := rfl
theorem flagtake : Statement .flagtake := rfl
theorem literal (value : Byte) : Statement (.literal value) := rfl
theorem backref (dist : BitVec 16) : Statement (.backref dist) := rfl
theorem copy : Statement .copy := rfl
theorem count : Statement .count := rfl
theorem tailcopy (value : Byte) : Statement (.tailcopy value) := rfl
theorem finish : Statement .finish := rfl
theorem tinycopy (value : Byte) : Statement (.tinycopy value) := rfl
theorem tinydone : Statement .tinydone := rfl

end Sys2Proof.Laws.EncodeLength
end

