-- ==== Sys2Proof/Tests/Slice0.lean ====
section
/-! SUPPORT. Tests. Words and expected values are written out from spec/ (the worked examples of the rules and 95_test_vectors.md),
never from the model. The second half shows, for each statement with hypotheses, a concrete state and operands that meet them. -/

namespace Sys2Proof.Tests

open Sys2Proof Sys2Proof.Machine

/-- Whether an outcome is a next state with this property. -/
def after (o : Host.Outcome State Fault Refusal) (p : State → Bool) : Bool :=
  match o with
  | .next t => p t
  | .fault _ | .refused _ => false

theorem after_next {o : Host.Outcome State Fault Refusal} {p : State → Bool} (h : after o p = true) :
    ∃ t, o = .next t ∧ p t = true := by
  match o with
  | .next t => exact ⟨t, rfl, h⟩
  | .fault _ => simp [after] at h
  | .refused _ => simp [after] at h

/-- The state after reset with these bytes loaded as the input. -/
def withInput (bytes : List Byte) : State :=
  { State.reset with inLen := bytes.length, inMem := Memory.load [] 0 bytes }

/-- These bytes as the output so far. -/
def withOutput (bytes : List Byte) (s : State) : State :=
  { s with outLen := bytes.length, outMem := Memory.load [] 0 bytes }

/-! ## Encoding: a word of every operation, from R61, R63 to R65, R67 and 30_encoding.md's tables -/

theorem test_decode_start : decode .start [] = .ok (.start, []) := by decide
theorem test_decode_abort : decode .abort [] = .ok (.abort, []) := by decide
theorem test_decode_header : decode .header [0x0D, 0x12, 0x34, 0x56, 0xFF] = .ok (.header 0x0D 0x123456, [0xFF]) := by decide
theorem test_decode_flagfill : decode .flagfill [0x3F, 0x42] = .ok (.flagfill 0x3F, [0x42]) := by decide
theorem test_decode_flagtake : decode .flagtake [0x3F] = .ok (.flagtake, [0x3F]) := by decide
theorem test_decode_literal : decode .literal [0x42, 0x00] = .ok (.literal 0x42, [0x00]) := by decide
theorem test_decode_backref : decode .backref [0x01, 0x80, 0x07] = .ok (.backref 0x0180, [0x07]) := by decide
theorem test_decode_copy : decode .copy [0x01] = .ok (.copy, [0x01]) := by decide
theorem test_decode_count : decode .count [0x01] = .ok (.count, [0x01]) := by decide
theorem test_decode_tailcopy : decode .tailcopy [0x01, 0x02] = .ok (.tailcopy 0x01, [0x02]) := by decide
theorem test_decode_finish : decode .finish [0x01] = .ok (.finish, [0x01]) := by decide
theorem test_decode_tinycopy : decode .tinycopy [0x80, 0x42] = .ok (.tinycopy 0x80, [0x42]) := by decide
theorem test_decode_tinydone : decode .tinydone [] = .ok (.tinydone, []) := by decide
theorem test_decode_refuses : decode .header [1, 2, 3] = .error (.operandMissing .header) ∧
    decode .backref [1] = .error (.operandMissing .backref) ∧ decode .literal [] = .error (.operandMissing .literal) ∧
    decode .flagfill [] = .error (.operandMissing .flagfill) := by decide

/-- A write of CMD (R25): both bits together are ABORT only. -/
theorem test_decodeCmd : decodeCmd 1 = some .start ∧ decodeCmd 2 = some .abort ∧ decodeCmd 3 = some .abort ∧ decodeCmd 0 = none ∧
    decodeCmd 4 = none := by decide

/-- The table numbers the first byte in bits 7 to 0. -/
theorem test_table_words : decodeTableWord 32 0x5634120D = some (.header 0x0D 0x123456) ∧
    decodeTableWord 16 0x8001 = some (.backref 0x0180) ∧ decodeTableWord 8 0x3F = some (.flagfill 0x3F) ∧
    decodeTableWord 0 0 = some .start ∧ decodeTableWord 24 0 = none := by decide

/-! ## WellFormed: each check refuses an ill-formed term -/

/-- `ixbit = 0` (R69, with LEN_BITS = 7: bit 7). -/
theorem smoke_index_bit : (Instr.backref 0x017F).wellFormed 7 100 = false := by decide
/-- A displacement beyond the output (R69): 0x0280 >> 7 = 5, with 4 bytes of output. -/
theorem smoke_displacement_range : (Instr.backref 0x0280).wellFormed 7 4 = false := by decide
/-- Displacement 0 (R69): 0x007F >> 7 = 0. -/
theorem smoke_displacement_zero : (Instr.backref 0x007F).wellFormed 7 4 = false := by decide
/-- A legal field: 0x0080 >> 7 = 1, bit 7 set. -/
theorem smoke_backref_accepted : (Instr.backref 0x0080).wellFormed 7 1 = true := by decide
theorem smoke_layout : DescLayout.wellFormed ⟨7, 0⟩ = false ∧ DescLayout.wellFormed ⟨0, 6⟩ = false ∧
    DescLayout.wellFormed ⟨2, 0⟩ = false ∧ defaultDescLayout.wellFormed = true := by decide
/-- The conditions of R71 and R72, line by line. -/
theorem smoke_listing_lines : (ListingLine.desc 256).wellFormed 0 = false ∧ (ListingLine.count 0x1000000).wellFormed 0 = false ∧
    (ListingLine.lit 256).wellFormed 0 = false ∧ (ListingLine.ref 0x10000).wellFormed 0 = false ∧
    (ListingLine.tail [0, 256]).wellFormed 0 = false ∧ (ListingLine.steps 0).wellFormed 0 = false ∧
    (ListingLine.method 4 0).wellFormed 0 = false ∧ (ListingLine.copy 2).wellFormed 0x07 = false ∧
    (ListingLine.copy 513).wellFormed 0x00 = false := by decide
/-- A count that is not the number of tokens less one (R71). -/
theorem smoke_listing : Listing.wellFormed ⟨0x07, 1, [.lit 0x61], []⟩ = false := by decide
/-- Conditions (a) to (d) of R73, descriptor 0x07 (LEN_BITS = 0, LEN_MASK = 1): four bytes; no flag byte; no literal; one distance byte;
index bit 0; displacement 3 of 1; and an accepted stream. -/
theorem smoke_stream : streamWellFormed defaultDescLayout [0x07, 0, 0, 0] = false ∧
    streamWellFormed defaultDescLayout [0x07, 0, 0, 8, 0xFF, 1, 2, 3, 4, 5, 6, 7, 8] = false ∧
    streamWellFormed defaultDescLayout [0x07, 0, 0, 0, 0x01] = false ∧
    streamWellFormed defaultDescLayout [0x07, 0, 0, 1, 0x01, 0x61, 0x00] = false ∧
    streamWellFormed defaultDescLayout [0x07, 0, 0, 1, 0x01, 0x61, 0x00, 0x02] = false ∧
    streamWellFormed defaultDescLayout [0x07, 0, 0, 1, 0x01, 0x61, 0x00, 0x03] = false ∧
    streamWellFormed defaultDescLayout [0x07, 0, 0, 1, 0x01, 0x61, 0x00, 0x01] = true := by decide

/-! ## One step of each operation, from the worked examples -/

/-- R141: IN_LEN = 11 goes to HEADER; 6 goes to TINY; 6 with TINY_EN = 0 goes to HEADER. -/
theorem test_start_choice : after (exec .start { State.reset with inLen := 11 }) (fun t => t.state == .header) = true ∧
    after (exec .start { State.reset with inLen := 6 }) (fun t => t.state == .tiny) = true ∧
    after (exec .start { State.reset with inLen := 6, tinyEn := false }) (fun t => t.state == .header) = true := by decide
/-- R150: 9 bytes are copied, 10 are interpreted. -/
theorem test_start_boundary : after (exec .start { State.reset with inLen := 9 }) (fun t => t.state == .tiny) = true ∧
    after (exec .start { State.reset with inLen := 10 }) (fun t => t.state == .header) = true := by decide

/-- R149, in mid-run: CFG and IN_LEN stay, the rest is cleared. -/
theorem test_abort : after (exec .abort { State.reset with state := .count, cur := 7, fc := 3, carry := true, inLen := 9, inclTail := true })
    (fun t => t.state == .idle && t.cur == 0 && t.fc == 0 && !t.carry && t.inLen == 9 && t.inclTail) = true := by decide

/-- R80: `0D 00 00 09` gives SHIFTER 1, LEN_BITS 2, LEN_MASK 4, THRESHOLD 2, LT = 3, 4, 5, 7, FC = 10, CUR = 4. -/
theorem test_header : after (step { withInput [0x0D, 0x00, 0x00, 0x09] with state := .header })
    (fun t => t.shifter == 1 && t.lenBits == 2 && t.lenMask == 4 && t.threshold == 2 && t.fc == 10 && t.cur == 4
      && t.lt[0]? == some 3 && t.lt[1]? == some 4 && t.lt[2]? == some 5 && t.lt[3]? == some 7) = true := by decide +kernel
/-- R83: `0x18` gives LT[19] = 22, LT[20] = 30, LT[127] = 886. -/
theorem test_header_long : after (exec (.header 0x18 0) { State.reset with inLen := 4, state := .header })
    (fun t => t.lt[19]? == some 22 && t.lt[20]? == some 30 && t.lt[127]? == some 886) = true := by decide +kernel

/-- R102: CUR = 4, IN[4] = 0x3F gives FW = 0x13F, CUR = 5. -/
theorem test_flagfill : after (step { withInput [0, 0, 0, 0, 0x3F] with state := .awaitingFlag, cur := 4 })
    (fun t => t.fw == 0x13F && t.cur == 5 && t.state == .awaitingFlag) = true := by decide

/-- R101: FW = 0x13F gives CARRY 1, FW 0x09F, LITERAL; FW = 0x002 gives CARRY 0, FW 0x001, BACKREF. -/
theorem test_flagtake : after (step { State.reset with state := .awaitingFlag, fw := 0x13F })
      (fun t => t.carry && t.fw == 0x09F && t.state == .literal) = true ∧
    after (step { State.reset with state := .awaitingFlag, fw := 0x002, carry := true })
      (fun t => !t.carry && t.fw == 0x001 && t.state == .backref) = true := by decide

/-- R110: CUR = 5, IN[5] = 0x42, OUT_LEN = 0. -/
theorem test_literal : after (step { withInput [0, 0, 0, 0, 0, 0x42] with state := .literal, cur := 5 })
    (fun t => t.outByte 0 == some 0x42 && t.outLen == 1 && t.cur == 6 && t.state == .count) = true := by decide
/-- R178: at the end of the input and of OUT, TruncatedStream decides. -/
theorem test_literal_order : after (exec (.literal 0x42)
    { State.reset with state := .literal, params := { defaultParams with outMax := some 0 } })
    (fun t => t.state == .fault && t.err == 1) = true := by decide

/-- R120: LEN_BITS = 2, LT = 3, 4, 5, 7, OUT_LEN = 3, operand 0x000C. -/
theorem test_backref : after (step { withOutput [1, 2, 3] (loadMethod 0x0D (withInput [0x00, 0x0C])) with state := .backref })
    (fun t => t.dist == 0x000C && t.length == 7 && t.disp == 3 && t.src == 0 && t.rem == 7 && t.state == .copy && t.cur == 2)
      = true := by decide +kernel
/-- R178: operand 0x0000 reports InvalidLengthIndex, and so does an index bit of 0 with a displacement beyond the output. -/
theorem test_backref_order : after (exec (.backref 0x0000) { loadMethod 0x0D (withInput [0, 0]) with state := .backref })
      (fun t => t.err == 4) = true ∧
    after (exec (.backref 0x00F8) { loadMethod 0x0D (withInput [0, 0]) with state := .backref })
      (fun t => t.err == 4) = true := by decide +kernel

/-- R126: OUT = 41, SRC = 0, REM = 5. -/
theorem test_copy : after (step (withOutput [0x41] { State.reset with state := .copy, rem := 5 }))
    (fun t => t.outByte 1 == some 0x41 && t.outLen == 2 && t.src == 1 && t.rem == 4 && t.state == .copy) = true := by decide
/-- R126: at REM = 0 the loop goes to COUNT. -/
theorem test_copy_closes : after (step { State.reset with state := .copy }) (fun t => t.state == .count && t.outLen == 0) = true := by
  decide

/-- R145: FC = 1 goes to TAIL; FC = 10 goes to AWAITING_FLAG with 9. -/
theorem test_count : after (step { State.reset with state := .count, fc := 1 }) (fun t => t.fc == 0 && t.state == .tail) = true ∧
    after (step { State.reset with state := .count, fc := 10 }) (fun t => t.fc == 9 && t.state == .awaitingFlag) = true := by decide

/-- R146: CUR = 6 of `.. 01 02 03 04`, OUT = 42. -/
theorem test_tailcopy : after
    (step (withOutput [0x42] { withInput [0, 0, 0, 0, 0, 0, 1, 2, 3, 4] with state := .tail, inclTail := true, cur := 6 }))
    (fun t => t.outByte 0 == some 0x42 && t.outByte 1 == some 0x01 && t.cur == 7 && t.state == .tail) = true := by decide

/-- R147: INCL_TAIL = 0, CUR = 11, IN_LEN = 13. -/
theorem test_finish : after (step { State.reset with state := .tail, cur := 11, inLen := 13 })
    (fun t => t.ovfValid && t.ovfBase == 11 && t.ovfLen == 2 && t.cur == 11 && t.state == .done) = true := by decide
/-- R147: with INCL_TAIL = 1 and nothing left there is no overflow. -/
theorem test_finish_joined : after (step { State.reset with state := .tail, inclTail := true, cur := 13, inLen := 13 })
    (fun t => !t.ovfValid && t.ovfLen == 0 && t.state == .done) = true := by decide

/-- R151: the fifth byte of `00 00 00 00 80 42`. -/
theorem test_tinycopy : after
    (step (withOutput [0, 0, 0, 0] { withInput [0, 0, 0, 0, 0x80, 0x42] with state := .tiny, cur := 4 }))
    (fun t => t.outByte 4 == some 0x80 && t.outLen == 5 && t.cur == 5 && t.state == .tiny) = true := by decide

/-- R152: no overflow although INCL_TAIL = 0. -/
theorem test_tinydone : after (step { State.reset with state := .tiny }) (fun t => t.state == .done && !t.ovfValid) = true := by decide

/-- R22 with R4: with IN_MAX = 7 the register has 3 bits, and a write of 11 leaves 3. -/
theorem test_in_len_bits : after (step { State.reset with params := { defaultParams with inMax := some 7 }, host := [.writeInLen 11] })
    (fun t => t.inLen == 3) = true := by decide +kernel

/-! ## Functions beside the step -/

/-- 95_test_vectors.md section 8, item 8: the alternating stream, assembled. -/
theorem test_assemble_alternating : assembleLines [.desc 0x07, .count 7, .lit 0x61, .copy 1, .lit 0x62, .copy 1, .lit 0x63, .copy 3,
    .lit 0x64, .copy 5] =
    some [0x07, 0x00, 0x00, 0x07, 0x55, 0x61, 0x00, 0x01, 0x62, 0x00, 0x01, 0x63, 0x00, 0x03, 0x64, 0x00, 0x05] := by decide +kernel
/-- The same stream decoded. -/
theorem test_decode_alternating : decodeRun defaultParams true false
    [0x07, 0x00, 0x00, 0x07, 0x55, 0x61, 0x00, 0x01, 0x62, 0x00, 0x01, 0x63, 0x00, 0x03, 0x64, 0x00, 0x05] =
    .done [0x61, 0x61, 0x61, 0x61, 0x62, 0x62, 0x62, 0x62, 0x63, 0x62, 0x62, 0x63, 0x64, 0x63, 0x62, 0x62] 17 (some []) := by
  decide +kernel
/-- R160: little-endian fields, one entry. -/
theorem test_archive : (parseArchiveHeader .fieldsOnly
      [1, 0, 0, 0, 2, 0, 0, 0, 1, 0, 0, 0, 3, 0, 0, 0, 4, 0, 0, 0, 5, 1, 0, 0, 9, 8, 7, 6]).toOption =
    some ⟨1, 2, 1, [(3, 4, 0x105)], [9, 8, 7, 6], 0x800⟩ := by decide +kernel

/-! ## Witnesses: states and operands that meet the hypotheses of the statements, clause by clause, at the edges of their ranges -/

theorem witness_DecodeAndEncodeAgree : decode .backref [0xFF, 0xFF, 0x00] = .ok (.backref 0xFFFF, [0x00]) := by decide

theorem witness_StepRunsDecodedOperation :
    let s := { withInput [0x0D, 0x00, 0x00, 0x09] with state := .header }
    s.host = [] ∧ enabledOp s = some .header ∧ Opcode.header.size ≤ s.inLen - s.cur ∧
      s.inMem.readBytes s.cur Opcode.header.size = some [0x0D, 0x00, 0x00, 0x09] ∧
      decode .header [0x0D, 0x00, 0x00, 0x09] = .ok (.header 0x0D 0x000009, []) := by decide

theorem witness_PassLetsTheEngineStep : { State.reset with host := [.pass, .reset] }.host = .pass :: [.reset] := rfl

/-- Each width of the table, and the largest and smallest words. -/
theorem witness_PlacedTableWordRunsNext : decodeTableWord 0 0 = some .start ∧ decodeTableWord 8 0xFF = some (.flagfill 0xFF) ∧
    decodeTableWord 16 0 = some (.backref 0) ∧ decodeTableWord 32 0xFFFFFFFF = some (.header 0xFF 0xFFFFFF) := by decide

theorem witness_IdleIsLeftOnlyByStart : ∃ t, step { State.reset with host := [.writeCmd 1] } = .next t ∧ t.state ≠ .idle := by
  obtain ⟨t, h, ht⟩ := after_next (o := step { State.reset with host := [.writeCmd 1] }) (p := fun t => t.state != .idle) (by decide)
  exact ⟨t, h, by simpa using ht⟩

theorem witness_QuiescentStatesHold : State.reset.host = [] ∧ State.reset.state = .idle ∧
    { State.reset with state := .done }.state = .done ∧ { State.reset with state := .fault }.state = .fault := ⟨rfl, rfl, rfl, rfl⟩

/-- Three bytes and four bytes. -/
theorem witness_HeaderLoadsMethodTableAndCount : { State.reset with inLen := 3 }.inLen - State.reset.cur < 4 ∧
    4 ≤ { State.reset with inLen := 4 }.inLen - State.reset.cur := by decide

theorem withInput_loaded (bytes : List Byte) : InputLoaded (withInput bytes) := by
  intro a ha
  change a < bytes.length at ha
  change (Memory.read (Memory.load [] 0 bytes) a).isSome = true
  rw [Memory.read_load, if_pos ⟨Nat.zero_le a, by omega⟩]
  simp [ha]

theorem withInput_is (bytes : List Byte) : InputIs (withInput bytes) bytes := by
  refine ⟨rfl, fun a ha => ?_⟩
  change Memory.read (Memory.load [] 0 bytes) a = _
  rw [Memory.read_load, if_pos ⟨Nat.zero_le a, by omega⟩, Nat.sub_zero]

theorem witness_HeaderCountIsBigEndianPlusOne :
    let s := { withInput [0x07, 0xFF, 0xFF, 0xFF] with state := .header }
    s.host = [] ∧ s.state = .header ∧ s.cur = 0 ∧ 4 ≤ s.inLen ∧ InputLoaded s :=
  ⟨rfl, rfl, rfl, le_refl 4, withInput_loaded [0x07, 0xFF, 0xFF, 0xFF]⟩

/-- The last byte, and no byte. -/
theorem witness_FlagfillLoadsWindow : { State.reset with state := .awaitingFlag, inLen := 1 }.state = .awaitingFlag ∧
    State.reset.cur < { State.reset with inLen := 1 }.inLen ∧ State.reset.inLen ≤ State.reset.cur := by decide

theorem witness_FlagtakeDeliversLowBit : enabledOp { State.reset with state := .awaitingFlag, fw := 2 } = some .flagtake := by decide

/-- FW = 1 asks for a refill; FW = 2 and 3 do not. -/
theorem witness_NextFlagAgreesWithTheStep : State.reset.host = [] ∧ { State.reset with state := .awaitingFlag }.state = .awaitingFlag ∧
    nextFlag 1 = none ∧ nextFlag 2 = some (false, 1) ∧ nextFlag 3 = some (true, 1) := by decide

/-- No byte; the last byte with OUT full; the last byte with room for one. -/
theorem witness_LiteralAppendsItsOperand : State.reset.inLen ≤ State.reset.cur ∧
    (let s := { State.reset with inLen := 1, params := { defaultParams with outMax := some 0 } };
      s.cur < s.inLen ∧ s.params.outMax = some s.outLen) ∧
    let s := { State.reset with inLen := 1, params := { defaultParams with outMax := some 1 } }
    s.cur < s.inLen ∧ s.params.outMax ≠ some s.outLen := by decide

/-- One byte left; two bytes left with the index bit 0; then, with the index bit 1: displacement 0 (a state no run reaches), one more than
OUT_LEN, and OUT_LEN. -/
theorem witness_BackrefTestsThenSetsUpTheCopy :
    let s := { State.reset with inLen := 2, lenMask := 1, outLen := 2 }
    { State.reset with inLen := 1 }.inLen - s.cur < 2 ∧ 2 ≤ s.inLen - s.cur ∧
    (0xFFFE#16) &&& s.lenMask.setWidth 16 = 0 ∧
    ((0x0003#16) &&& s.lenMask.setWidth 16 ≠ 0 ∧ s.lt[((0x0003#16) &&& s.lenMask.setWidth 16).toNat - 1]? = some 0 ∧
      (0x0003#16) >>> s.lenBits.toNat ≠ 0 ∧ s.outLen < ((0x0003#16) >>> s.lenBits.toNat).toNat) ∧
    (let s := { s with outLen := 3 };
      (0x0003#16) >>> s.lenBits.toNat ≠ 0 ∧ ((0x0003#16) >>> s.lenBits.toNat).toNat ≤ s.outLen) ∧
    let s := { s with lenBits := 1 }
    (0x0001#16) &&& s.lenMask.setWidth 16 ≠ 0 ∧ s.lt[((0x0001#16) &&& s.lenMask.setWidth 16).toNat - 1]? = some 0 ∧
      (0x0001#16) >>> s.lenBits.toNat = 0 := by decide +kernel

/-- A run in its copy loop: descriptor 0x07 (LEN_BITS = 0, LT = 3), one literal, one back-reference with displacement 1. -/
def copying : State :=
  { withOutput [0x61] (loadMethod 0x07 (withInput [0x07, 0x00, 0x00, 0x01, 0x01, 0x61, 0x00, 0x01])) with
    state := .copy, cur := 8, fw := 0x40, fc := 1, dist := 1, disp := 1, length := 3, rem := 3, tinyEn := false }

theorem copying_method : MethodLoaded copying where
  shifter := by decide +kernel
  lenBits := by decide +kernel
  lenMask := by decide +kernel
  threshold := by decide +kernel
  table := by decide +kernel

theorem copying_loaded : InputLoaded copying :=
  withInput_loaded [0x07, 0x00, 0x00, 0x01, 0x01, 0x61, 0x00, 0x01]

theorem copying_filled : OutputFilled copying := by
  intro a
  change (Memory.read [(0, 0x61)] a).isSome = true ↔ a < 1
  simp only [Memory.read_cons, Memory.read_nil]
  split <;> simp <;> omega

theorem copying_inv : Inv copying where
  inMemCanonical := by decide +kernel
  outMemCanonical := by decide +kernel
  inMemInSpace := by simp [copying, withOutput, loadMethod, withInput, State.reset, defaultParams]
  cursorFits := by simp [copying, withOutput, loadMethod, withInput, State.reset, defaultParams]
  inLenFits := by simp [copying, withOutput, loadMethod, withInput, State.reset, defaultParams]
  outLenFits := by simp [copying, withOutput, loadMethod, withInput, State.reset, defaultParams]
  srcFits := by simp [copying, withOutput, loadMethod, withInput, State.reset, defaultParams]
  outFilled := copying_filled
  cursor := by decide +kernel
  noErr := by decide +kernel
  errKind := fun h => absurd h (by decide +kernel)
  results := fun _ => ⟨rfl, rfl, rfl⟩
  cleared := by decide +kernel
  atStart := by decide +kernel
  cleanWindow := by decide +kernel
  tiny := by decide +kernel
  method := fun _ => copying_method
  window := fun _ => by decide +kernel
  counter := fun _ => by decide +kernel
  finished := fun h => absurd h (by decide +kernel)
  carryLiteral := by decide +kernel
  carryBackref := by decide +kernel
  copying := by decide +kernel

/-- Both forms of the operand: accepted and refused, the index bit 0 and the displacement one beyond the output. -/
theorem witness_OneBitMaskConsequences :
    let s := { copying with state := .backref, cur := 6 }
    MethodLoaded s ∧ s.state = .backref ∧ 2 ≤ s.inLen - s.cur ∧ (Instr.backref 1).wellFormed s.lenBits s.outLen = true ∧
      refIndexBit s.lenBits 3 = true ∧ (Instr.backref 3).wellFormed s.lenBits s.outLen = false ∧ refIndexBit s.lenBits 2 = false :=
  ⟨⟨copying_method.shifter, copying_method.lenBits, copying_method.lenMask, copying_method.threshold, copying_method.table⟩,
    by decide +kernel⟩

theorem witness_DistanceFieldIsBigEndian : ∃ t,
    let s := { copying with state := .backref, cur := 6 }
    s.host = [] ∧ s.state = .backref ∧ s.cur + 2 ≤ s.inLen ∧ s.inMem.read s.cur = some 0x00 ∧
      s.inMem.read (s.cur + 1) = some 0x01 ∧ step s = .next t ∧ t.state = .copy := by
  obtain ⟨t, h, ht⟩ := after_next (o := step { copying with state := .backref, cur := 6 }) (p := fun t => t.state == .copy)
    (by decide +kernel)
  exact ⟨t, rfl, rfl, by decide +kernel, by decide +kernel, by decide +kernel, h, by simpa using ht⟩

/-- REM = 0; REM = 1 with OUT full; REM = 1 with room for one byte. -/
theorem witness_CopyMovesOneByte : { copying with rem := 0 }.rem = 0 ∧
    (let s := { copying with rem := 1, params := { defaultParams with outMax := some 1 } };
      s.rem ≠ 0 ∧ s.outByte s.src = some 0x61 ∧ s.params.outMax = some s.outLen) ∧
    let s := { copying with rem := 1, params := { defaultParams with outMax := some 2 } }
    s.rem ≠ 0 ∧ s.outByte s.src = some 0x61 ∧ s.params.outMax ≠ some s.outLen := by decide +kernel

/-- OUT has exactly the room the copy needs. -/
theorem witness_CopyLoopRepeatsCyclically :
    let s := { copying with params := { defaultParams with outMax := some 4 } }
    s.host = [] ∧ s.state = .copy ∧ s.src + 1 = s.outLen ∧ (∀ a, a < s.outLen → (s.outMem.read a).isSome = true) ∧
      OutputRoom s s.rem.toNat :=
  ⟨rfl, rfl, rfl, fun a h => (copying_filled a).mpr h, fun m h => by cases h; decide +kernel⟩

theorem witness_StartBeginsARunUnlessBusy : copying.status = 1 ∧ State.reset.state = .idle ∧
    { State.reset with state := .done }.state = .done ∧ { State.reset with state := .fault }.state = .fault := by decide +kernel

/-- The last decode step, and one of two. -/
theorem witness_CountEndsADecodeStep : 1 ≤ { State.reset with fc := 1 }.fc.toNat ∧ 1 ≤ { State.reset with fc := 2 }.fc.toNat := by
  decide

theorem witness_RawCopiesAppendTheirByte :
    (let s := { State.reset with inLen := 1, params := { defaultParams with outMax := some 0 } };
      s.cur < s.inLen ∧ s.params.outMax = some s.outLen) ∧
    let s := { State.reset with inLen := 1, params := { defaultParams with outMax := some 1 } }
    s.cur < s.inLen ∧ s.params.outMax ≠ some s.outLen := by decide

theorem witness_FinishReportsTheOverflow : { State.reset with inclTail := false }.inclTail = false ∧
    { State.reset with inclTail := true }.inclTail = true := ⟨rfl, rfl⟩

theorem witness_TinydoneEndsWithoutOverflow : State.reset.cur ≤ State.reset.inLen ∧
    State.reset.cur ≤ { State.reset with inLen := 1 }.inLen := by decide

/-- One byte less than each operand holds. -/
theorem witness_TruncatedOperandFaults :
    { State.reset with inLen := 3 }.inLen - State.reset.cur < (Instr.header 0 0).opcode.size ∧
    State.reset.inLen - State.reset.cur < (Instr.flagfill 0).opcode.size ∧
    State.reset.inLen - State.reset.cur < (Instr.literal 0).opcode.size ∧
    { State.reset with inLen := 1 }.inLen - State.reset.cur < (Instr.backref 0).opcode.size ∧
    (let s := { State.reset with inLen := 1, state := .backref };
      s.host = [] ∧ enabledOp s = some .backref ∧ s.inLen - s.cur < Opcode.backref.size) := by decide

/-- A step that enters FAULT: the literal's byte is missing. -/
theorem witness_FaultsFollowTheMatrix : ∃ t,
    let s := { State.reset with state := .literal }
    s.host = [] ∧ s.state ≠ .fault ∧ step s = .next t ∧ t.state = .fault :=
  ⟨_, rfl, by decide, rfl, rfl⟩

/-- Each way out of FAULT. -/
theorem witness_OnlyTheHostLeavesFault : ∀ m ∈ [HostMove.writeCmd 1, .writeCmd 2, .reset], ∃ t,
    let s := { State.reset with state := .fault, err := 4, host := [m] }
    s.state = .fault ∧ step s = .next t ∧ t.state ≠ .fault := by
  intro m hm
  obtain ⟨t, h, ht⟩ := after_next (o := step { State.reset with state := .fault, err := 4, host := [m] })
    (p := fun t => t.state != .fault) (by revert m; decide)
  exact ⟨t, rfl, h, by simpa using ht⟩

/-- An IN byte not loaded; an OUT byte at OUT_LEN; the table index 128, the first beyond the table; a load of one byte more than IN_MAX. -/
theorem witness_UndefinedReadsStop :
    (let s := { State.reset with inLen := 1, state := .literal };
      s.host = [] ∧ enabledOp s = some .literal ∧ Opcode.literal.size ≤ s.inLen - s.cur ∧
        s.inMem.readBytes s.cur Opcode.literal.size = none) ∧
    (let s := { State.reset with rem := 1 };
      s.rem ≠ 0 ∧ s.outByte s.src = none) ∧
    (let s := { State.reset with inLen := 2, lenMask := 0x81 };
      2 ≤ s.inLen - s.cur ∧ 128 < ((0x0081#16) &&& s.lenMask.setWidth 16).toNat) ∧
    let s := { State.reset with params := { defaultParams with inMax := some 4 }, host := [.loadIn 4 [0x00]] }
    s.status ≠ 1 ∧ s.params.inMax = some 4 ∧ 4 < 4 + ([0x00] : List Byte).length ∧ s.host = [.loadIn 4 [0x00]] := by
  decide +kernel

theorem witness_CommandWritesIssueCommands : { State.reset with host := [.writeCmd 3] }.host = [.writeCmd 3] ∧
    (3).testBit 1 = true ∧ (2).testBit 1 = true ∧ (1).testBit 1 = false ∧ (1).testBit 0 = true ∧ (4).testBit 1 = false ∧
    (4).testBit 0 = false := by decide

/-- Both writes while BUSY and while not; the largest value of IN_LEN, and a value with a bit beyond its IN_AW = 3 bits. -/
theorem witness_HostWritesConfigureUnlessBusy : { copying with host := [.writeCfg 3] }.status = 1 ∧
    { copying with host := [.writeInLen 3] }.status = 1 ∧ { State.reset with host := [.writeCfg 3] }.status ≠ 1 ∧
    let s := { State.reset with params := { defaultParams with inMax := some 4 }, host := [.writeInLen 4] }
    s.status ≠ 1 ∧ s.host = [.writeInLen 4] ∧ s.params.inMax = some 4 ∧ 4 ≤ 4 ∧ 12 % 2 ^ addrWidth 4 ≤ 4 := by decide +kernel

theorem witness_BrokenPremisesAreRefused :
    (let s := { copying with host := [.loadIn 0 [0x00]] };
      s.status = 1 ∧ s.host = [.loadIn 0 [0x00]]) ∧
    let s := { State.reset with params := { defaultParams with inMax := some 4 }, host := [.writeInLen 5] }
    s.status ≠ 1 ∧ s.params.inMax = some 4 ∧ 4 < 5 % 2 ^ addrWidth 4 ∧ s.host = [.writeInLen 5] := by decide +kernel

/-- A load that ends at the last address of IN. -/
theorem witness_LoadingPlacesInputBytes :
    let s := { State.reset with params := { defaultParams with inMax := some 2 }, host := [.loadIn 1 [0x42]] }
    s.status ≠ 1 ∧ (∀ m, s.params.inMax = some m → 1 + ([0x42] : List Byte).length ≤ m) ∧ s.host = [.loadIn 1 [0x42]] := by
  refine ⟨by decide, ?_, rfl⟩
  intro m h
  cases h
  decide

theorem witness_ResetMayComeInAnyState : { copying with host := [.reset] }.host = [.reset] := rfl

/-- A step of the engine that goes on: for TransitionsFollowTheTable, CursorAdvancesByBytesConsumed, EngineNeverWritesItsInput,
OutputIsAppendOnly and CarryAndMethodHaveOneWriter. -/
theorem witness_engine_step : ∃ t,
    copying.host = [] ∧ enabledOp copying = some .copy ∧ Opcode.copy ≠ .flagtake ∧ Opcode.copy ≠ .header ∧ step copying = .next t ∧
      t.state ≠ .fault := by
  obtain ⟨t, h, ht⟩ := after_next (o := step copying) (p := fun t => t.state != .fault) (by decide +kernel)
  exact ⟨t, rfl, rfl, by decide, by decide, h, by simpa using ht⟩

/-- A step of the engine that faults: for the second clause of CursorAdvancesByBytesConsumed. -/
theorem witness_engine_fault : ∃ t,
    let s := { copying with params := { defaultParams with outMax := some 1 } }
    s.host = [] ∧ enabledOp s = some .copy ∧ step s = .next t ∧ t.state = .fault := by
  obtain ⟨t, h, ht⟩ := after_next (o := step { copying with params := { defaultParams with outMax := some 1 } })
    (p := fun t => t.state == .fault) (by decide +kernel)
  exact ⟨t, rfl, rfl, h, by simpa using ht⟩

theorem witness_StepKeepsTheInvariant : ∃ t, Inv copying ∧ step copying = .next t := by
  obtain ⟨t, -, -, -, -, h, -⟩ := witness_engine_step
  exact ⟨t, copying_inv, h⟩

theorem witness_EngineNeverStops : Inv copying ∧ InputLoaded copying ∧ copying.host = [] := ⟨copying_inv, copying_loaded, rfl⟩

/-- A machine that is not BUSY, with loaded input, and the state START leaves. -/
theorem witness_EveryRunEnds_RunComputesDecodeRun : ∃ t,
    let s := withInput [0x61, 0x62]
    s.status ≠ 1 ∧ s.host = [] ∧ InputLoaded s ∧ InputIs s [0x61, 0x62] ∧ exec .start s = .next t :=
  ⟨_, by decide, rfl, withInput_loaded _, withInput_is _, rfl⟩

/-- The same run started in a fresh machine and in one that holds the results of another. -/
theorem witness_EarlierRunsLeaveNoTrace : ∃ t t' u,
    let s := withInput [0x61]
    let s' := { withOutput [1, 2, 3] (withInput [0x61]) with state := .done, cur := 9, carry := true, fw := 0x1FF, rem := 5 }
    s.status ≠ 1 ∧ s'.status ≠ 1 ∧ s.host = [] ∧ s'.host = [] ∧ s.params = s'.params ∧ s.inclTail = s'.inclTail ∧
      s.tinyEn = s'.tinyEn ∧ s.inLen = s'.inLen ∧ (∀ a, a < s.inLen → s.inMem.read a = s'.inMem.read a) ∧
      exec .start s = .next t ∧ exec .start s' = .next t' ∧ runFor 1 t = .next u :=
  ⟨_, _, _, by decide, by decide, rfl, rfl, rfl, rfl, rfl, rfl, fun _ _ => rfl, rfl, rfl, rfl⟩

/-- The shortest run through the flag loop: one literal, six steps. -/
def shortest : State := { withInput [0x07, 0x00, 0x00, 0x00, 0x01, 0x42] with state := .header, tinyEn := false }

theorem shortest_run : after (runFor 6 shortest) (fun u => u.state == .done) = true ∧
    ∀ k, k < 6 → after (runFor k shortest) (fun v => v.state != .done) = true := by decide +kernel

theorem witness_OneFlagByteForEightSteps_StepsToDone : ∃ u,
    let s := { shortest with state := .idle }
    s.status ≠ 1 ∧ s.host = [] ∧ exec .start s = .next shortest ∧ shortest.state = .header ∧ s.memReadIn 1 3 = some 0 ∧
      runFor 6 shortest = .next u ∧ u.state = .done := by
  obtain ⟨u, h, hu⟩ := after_next shortest_run.1
  exact ⟨u, by decide, rfl, rfl, rfl, by decide +kernel, h, by simpa using hu⟩

theorem witness_StepsToDone_first : ∀ k v, k < 6 → runFor k shortest = .next v → v.state ≠ .done := by
  intro k v hk h
  have := shortest_run.2 k hk
  rw [h] at this
  simpa [after] using this

/-- With the shortcut on, the shortest input that is interpreted; OUT unbounded, and with exactly the room of the run. -/
theorem witness_StreamCheckDecidesDone :
    let inp : List Byte := [0x07, 0x00, 0x00, 0x00, 0x01, 0x42, 0x01, 0x02, 0x03, 0x04]
    10 ≤ inp.length ∧ defaultParams.outMax = none ∧
      decodeRun defaultParams true true inp = .done [0x42, 0x01, 0x02, 0x03, 0x04] 10 none ∧
      { defaultParams with outMax := some 5 }.outMax = some ([0x42, 0x01, 0x02, 0x03, 0x04] : List Byte).length := by
  decide +kernel

/-- DONE with no overflow, and DONE with one of one byte. -/
theorem witness_StatusSummarisesState : { State.reset with state := .done }.state = .done ∧
    { State.reset with state := .done }.ovfValid = false ∧ { State.reset with state := .done, ovfValid := true, ovfLen := 1 }.ovfValid = true ∧
    0 < { State.reset with state := .done, outLen := 1 }.outLen := by decide

theorem witness_AssembledListingDecodes : Listing.wellFormed ⟨0x07, 1, [.lit 0x61, .ref 0x0001], [0xAA]⟩ = true := by decide

theorem witness_TailSplitsOrJoins_DoneDependsOnConsumedBytes : defaultParams.outMax = none ∧
    decodeRun defaultParams false false [0x07, 0x00, 0x00, 0x00, 0x01, 0x42, 0x01, 0x02] = .done [0x42] 6 (some [0x01, 0x02]) := by
  decide +kernel

theorem parse_answers {size : HeaderSize} {container : List Byte} :
    ((parseArchiveHeader size container).toBool = true → ∃ h, parseArchiveHeader size container = .ok h) ∧
      ((parseArchiveHeader size container).toBool = false → ∃ e, parseArchiveHeader size container = .error e) := by
  cases parseArchiveHeader size container <;> simp [Except.toBool]

/-- A container one byte short of 0x800, one of exactly that, and one of one entry and no more than its fields. -/
theorem witness_ArchiveParserReadsLittleEndian :
    (∃ e, parseArchiveHeader .beforePayload (List.replicate 0x7FF 0) = .error e) ∧
    (∃ h, parseArchiveHeader .beforePayload (List.replicate 0x800 0) = .ok h) ∧
    ∃ h, parseArchiveHeader .fieldsOnly
      [1, 0, 0, 0, 2, 0, 0, 0, 1, 0, 0, 0, 3, 0, 0, 0, 4, 0, 0, 0, 5, 1, 0, 0, 9, 8, 7, 6] = .ok h ∧
      h.entries[0]? = some (3, 4, 0x105) :=
  ⟨parse_answers.2 (by decide +kernel), parse_answers.1 (by decide +kernel), _, rfl, rfl⟩

end Sys2Proof.Tests
end

/-! # The step runs the decoded operation, and the run computes the big-step function (00_scope.md R8, 44 R153)

`RunsAs Q r s` ties a part `r` of the big-step function to the steps from `s`. One lemma per part (a window, a token, the copy loop, raw
bytes) shows it, with `Running` and `Looping` saying what the machine holds, and `RunsAs.bind` joins them as `decodeSteps` joins its parts. -/

namespace Sys2Proof.Machine

/-! ## The engine's step, by what is enabled -/

/-- A loaded operand is fetched as the operation its bytes decode to. -/
theorem fetchOperand_of_decode {op : Opcode} {s : State} {bytes : List Byte} {i : Instr} (hsize : op.size ≤ s.inLen - s.cur)
    (hbytes : s.inMem.readBytes s.cur op.size = some bytes) (hdecode : decode op bytes = .ok (i, [])) :
    fetchOperand op s = .instr i := by
  simp [fetchOperand, Nat.not_lt.mpr hsize, hbytes, hdecode]

theorem fetchOperand_of_short {op : Opcode} {s : State} (hshort : s.inLen - s.cur < op.size) :
    fetchOperand op s = .truncated := by
  simp [fetchOperand, hshort]

theorem fetchInstr_of_enabled {op : Opcode} {s : State} (henabled : enabledOp s = some op) :
    fetchInstr s = fetchOperand op s := by
  simp [fetchInstr, henabled]

/-- Settles O4: without a host move the step is the engine's, and the fetch of the enabled operation answers `i`. -/
theorem stepRunsDecodedOperation : Obligations.StepRunsDecodedOperation := by
  intro s op bytes i hhost henabled hsize hbytes hdecode
  have hfetch : fetchInstr s = .instr i :=
    (fetchInstr_of_enabled henabled).trans (fetchOperand_of_decode hsize hbytes hdecode)
  rw [step, stepOnce_engine hhost, engineStep, hfetch]

/-- R45, R171: an operand that runs past IN_LEN raises TruncatedStream. -/
theorem step_of_short_operand {s : State} {op : Opcode} (hhost : s.host = []) (henabled : enabledOp s = some op)
    (hshort : s.inLen - s.cur < op.size) : step s = .next (faultEntry .truncatedStream s) := by
  have hfetch : fetchInstr s = .truncated := (fetchInstr_of_enabled henabled).trans (fetchOperand_of_short hshort)
  rw [step, stepOnce_engine hhost, engineStep, hfetch, completes_error]

/-- Settles O5: the queue's head is `pass`, whose host step is the engine's. -/
theorem passLetsTheEngineStep : Obligations.PassLetsTheEngineStep := by
  intro s later hhost
  rw [step, stepOnce_host hhost, hostStep]

/-! ## The method that HEADER loads -/

/-- HEADER's table build makes the descriptor registers and the table those of the descriptor (R80 to R84). -/
theorem methodLoaded_loadMethod (desc : Byte) (s : State) : MethodLoaded (loadMethod desc s) where
  shifter := rfl
  lenBits := rfl
  lenMask := rfl
  threshold := rfl
  table i hi := by
    have hi128 : i < 128 := hi.trans_le (lenMaskOf_pos _).2
    rw [loadMethod_lt, buildTable_getElem? _ _ _ _ _ hi128]
    exact if_pos hi

/-- Every length a table holds fits the width of its entries. -/
theorem copyLengthOf_lt (layout : DescLayout) (desc : Byte) : copyLengthOf layout desc < 2 ^ 10 := by
  have hpos := (lenMaskOf_pos (lenBitsOf layout desc)).1
  have hmax := (tableEntry_bounds (lenBitsOf layout desc) (shifterOf layout desc)
    (Nat.sub_lt hpos Nat.one_pos)).2
  rw [copyLengthOf]
  omega

/-- The entry at LEN_MASK - 1, the one every back-reference reads, is the method's copy length (R129). -/
theorem MethodLoaded.tableRead_last {s : State} (h : MethodLoaded s) :
    tableRead s.lt (s.lenMask.toNat - 1) = some (BitVec.ofNat 10 (copyLengthOf s.params.layout s.desc)) := by
  have hmask : s.lenMask = lenMaskOf (lenBitsOf s.params.layout s.desc) := h.lenMask.trans (by rw [h.lenBits])
  have hpos := (lenMaskOf_pos s.lenBits).1
  rw [tableRead, h.table _ (by rw [h.lenMask]; omega), h.threshold, h.shifter, hmask, copyLengthOf]

theorem MethodLoaded.maskedValue_toNat {s : State} (h : MethodLoaded s) (dist : BitVec 16) :
    (maskedValue s.lenMask dist).toNat = if refIndexBit s.lenBits dist then s.lenMask.toNat else 0 := by
  rw [h.lenMask, maskedValue_lenMaskOf]

section Backref

variable {s t : State} {dist : BitVec 16}

/-- With the method loaded, an operand whose index bit is clear has the masked value 0 (R122, R129). -/
theorem execBackref_of_clear (hadvance : advance 2 s = .ok t) (hmethod : MethodLoaded t)
    (hbit : refIndexBit t.lenBits dist = false) :
    execBackref dist s = .next (faultEntry .invalidLengthIndex s) := by
  have hzero : maskedValue t.lenMask dist = 0 := by
    refine BitVec.eq_of_toNat_eq ?_
    rw [hmethod.maskedValue_toNat, hbit]
    rfl
  simp only [execBackref, hadvance, if_pos hzero, completes_error]

/-- With the method loaded, an operand whose index bit is set takes the table's last entry as the length (R122, R129). -/
theorem execBackref_of_set (hadvance : advance 2 s = .ok t) (hmethod : MethodLoaded t)
    (hbit : refIndexBit t.lenBits dist = true) :
    execBackref dist s = completes s (startCopy dist (BitVec.ofNat 10 (copyLengthOf t.params.layout t.desc)) t) := by
  have hmask : (maskedValue t.lenMask dist).toNat = t.lenMask.toNat := by
    rw [hmethod.maskedValue_toNat, if_pos hbit]
  have hnonzero : maskedValue t.lenMask dist ≠ 0 := by
    have hpos := (lenMaskOf_pos t.lenBits).1
    rw [← hmethod.lenMask, ← hmask] at hpos
    exact fun hzero => by simp [hzero] at hpos
  simp only [execBackref, hadvance, if_neg hnonzero, hmask, hmethod.tableRead_last]

end Backref

/-! ## The big-step function, one equation per case -/

theorem lengthTable_last (layout : DescLayout) (desc : Byte) :
    (lengthTable layout desc)[(lenMaskOf (lenBitsOf layout desc)).toNat - 1]? = some (copyLengthOf layout desc) := by
  have hlast := Nat.sub_lt (lenMaskOf_pos (lenBitsOf layout desc)).1 Nat.one_pos
  simp only [lengthTable, List.getElem?_map, List.getElem?_range hlast, Option.map_some, copyLengthOf]

/-- A back-reference whose index bit is set has an odd displacement, so only its range is left to test (R122, R123, R129). -/
theorem displacementOf_ne_zero {lenBits : BitVec 3} {dist : BitVec 16} (hbit : refIndexBit lenBits dist = true) :
    displacementOf lenBits dist ≠ 0 := by
  intro hzero
  have hodd := refDisplacement_odd.mpr hbit
  rw [← displacementOf_toNat, hzero] at hodd
  exact absurd hodd (by decide)

theorem backrefToken_of_clear {layout : DescLayout} {outMax : Option Nat} {desc : Byte} {dist : BitVec 16} {out : List Byte}
    (hbit : refIndexBit (lenBitsOf layout desc) dist = false) :
    backrefToken layout outMax desc dist out = .error .invalidLengthIndex := by
  simp [backrefToken, maskedValue_lenMaskOf, hbit]

theorem backrefToken_of_set {layout : DescLayout} {outMax : Option Nat} {desc : Byte} {dist : BitVec 16} {out : List Byte}
    (hbit : refIndexBit (lenBitsOf layout desc) dist = true) :
    backrefToken layout outMax desc dist out =
      if out.length < (displacementOf (lenBitsOf layout desc) dist).toNat then .error .copyOutOfRange
      else copyBack outMax (displacementOf (lenBitsOf layout desc) dist).toNat (copyLengthOf layout desc) out := by
  have hpos := (lenMaskOf_pos (lenBitsOf layout desc)).1
  have hdisp : (displacementOf (lenBitsOf layout desc) dist).toNat ≠ 0 := fun h =>
    displacementOf_ne_zero hbit (BitVec.eq_of_toNat_eq h)
  have hmask : (lenMaskOf (lenBitsOf layout desc)).toNat ≠ 0 := by omega
  simp only [backrefToken, maskedValue_lenMaskOf, hbit, if_true, hmask, if_false, lengthTable_last, hdisp]

theorem pushAll_cons (outMax : Option Nat) (v : Byte) (vs out : List Byte) :
    pushAll outMax (v :: vs) out = pushByte outMax v out >>= pushAll outMax vs := by
  rw [pushAll]
  cases pushByte outMax v out <;> rfl

theorem copyBack_succ {outMax : Option Nat} {disp length : Nat} {b : Byte} {out : List Byte}
    (hread : out[out.length - disp]? = some b) :
    copyBack outMax disp (length + 1) out = pushByte outMax b out >>= copyBack outMax disp length := by
  simp only [copyBack, hread]
  cases pushByte outMax b out <;> rfl

theorem decodeToken_literal (layout : DescLayout) (outMax : Option Nat) (desc v : Byte) (rest out : List Byte) :
    decodeToken layout outMax desc true (v :: rest) out = (rest, ·) <$> pushByte outMax v out := by
  rw [decodeToken]
  cases pushByte outMax v out <;> rfl

theorem decodeToken_backref (layout : DescLayout) (outMax : Option Nat) (desc hi lo : Byte) (rest out : List Byte) :
    decodeToken layout outMax desc false (hi :: lo :: rest) out =
      (rest, ·) <$> backrefToken layout outMax desc (bigEndian16 hi lo) out := by
  rw [decodeToken]
  cases backrefToken layout outMax desc (bigEndian16 hi lo) out <;> rfl

theorem decodeSteps_succ (layout : DescLayout) (outMax : Option Nat) (desc : Byte) (steps : Nat) (fw : BitVec 9)
    (rest out : List Byte) :
    decodeSteps layout outMax desc (steps + 1) fw rest out =
      ensureFlag fw rest >>= fun window =>
        decodeToken layout outMax desc (flagBit window.1) window.2 out >>= fun token =>
          decodeSteps layout outMax desc steps (windowShift window.1) token.1 token.2 := by
  rw [decodeSteps]
  cases ensureFlag fw rest with
  | error e => rfl
  | ok window =>
    obtain ⟨fw', rest'⟩ := window
    change _ = decodeToken layout outMax desc (flagBit fw') rest' out >>= _
    dsimp only
    cases decodeToken layout outMax desc (flagBit fw') rest' out <;> rfl

/-- A run's result from that of a part of it that can fault. -/
def resultOf {α : Type} (r : Except ErrKind α) (result : α → RunResult) : RunResult :=
  match r with
  | .ok a => result a
  | .error e => .fault e

theorem finishRun_join (outMax : Option Nat) (inputLength : Nat) (rest out : List Byte) :
    finishRun outMax true inputLength rest out = resultOf (pushAll outMax rest out) (.done · inputLength none) := by
  rw [finishRun, if_pos rfl]
  cases pushAll outMax rest out <;> rfl

theorem finishRun_split (outMax : Option Nat) (inputLength : Nat) (rest out : List Byte) :
    finishRun outMax false inputLength rest out = .done out (inputLength - rest.length) (some rest) := rfl

section DecodeRun

variable {params : Params} {tinyEn inclTail : Bool}

theorem decodeRun_tiny {inp : List Byte} (htiny : tinyEn = true ∧ inp.length ≤ tinyInputLimit) :
    decodeRun params tinyEn inclTail inp = resultOf (pushAll params.outMax inp []) (.done · inp.length none) := by
  unfold decodeRun
  rw [if_pos htiny]
  cases pushAll params.outMax inp [] <;> rfl

theorem decodeRun_stream {desc hi mid lo : Byte} {rest : List Byte}
    (htiny : ¬(tinyEn = true ∧ (desc :: hi :: mid :: lo :: rest).length ≤ tinyInputLimit)) :
    decodeRun params tinyEn inclTail (desc :: hi :: mid :: lo :: rest) =
      resultOf (decodeSteps params.layout params.outMax desc (stepsOf (bigEndian24 hi mid lo)).toNat 0 rest []) fun final =>
        finishRun params.outMax inclTail (desc :: hi :: mid :: lo :: rest).length final.1 final.2 := by
  unfold decodeRun
  rw [if_neg htiny]
  dsimp only
  cases decodeSteps params.layout params.outMax desc (stepsOf (bigEndian24 hi mid lo)).toNat 0 rest [] <;> rfl

theorem decodeRun_short {inp : List Byte} (htiny : ¬(tinyEn = true ∧ inp.length ≤ tinyInputLimit))
    (hshort : inp.length < 4) : decodeRun params tinyEn inclTail inp = .fault .truncatedStream := by
  unfold decodeRun
  rw [if_neg htiny]
  split
  · rw [List.length_cons, List.length_cons, List.length_cons, List.length_cons] at hshort
    omega
  · rfl

end DecodeRun

/-! ## Runs that end with a property -/

/-- Some number of steps leads from `s` to a state with the property. -/
def Reaches (P : State → Prop) (s : State) : Prop :=
  ∃ n u, runFor n s = .next u ∧ P u

theorem Reaches.refl {P : State → Prop} {s : State} (h : P s) : Reaches P s :=
  ⟨0, s, rfl, h⟩

theorem Reaches.head {P : State → Prop} {s t : State} (hstep : step s = .next t) (h : Reaches P t) : Reaches P s := by
  obtain ⟨n, u, hrun, hu⟩ := h
  exact ⟨n + 1, u, by rw [runFor, hstep]; exact hrun, hu⟩

theorem Reaches.trans {P Q : State → Prop} {s : State} (h : Reaches P s) (hPQ : ∀ u, P u → Reaches Q u) : Reaches Q s := by
  obtain ⟨n, u, hrun, hu⟩ := h
  induction n generalizing s with
  | zero =>
    obtain rfl : s = u := by simpa [runFor] using hrun
    exact hPQ s hu
  | succ n ih =>
    rw [runFor] at hrun
    split at hrun
    next t hstep => exact .head hstep (ih hrun)
    next => cases hrun
    next => cases hrun

/-- The run from `s` does what the big-step result `r` says: it reaches a state that `Q` ties to the value, or ends in the fault. -/
def RunsAs {α : Type} (Q : α → State → Prop) (r : Except ErrKind α) (s : State) : Prop :=
  match r with
  | .ok a => Reaches (Q a) s
  | .error e => Reaches (Shows · (.fault e)) s

section RunsAs

variable {α β : Type} {P : α → State → Prop} {Q : β → State → Prop} {r : Except ErrKind α} {s t : State}

theorem RunsAs.head (hstep : step s = .next t) (h : RunsAs P r t) : RunsAs P r s := by
  cases r with
  | ok a => exact Reaches.head hstep h
  | error e => exact Reaches.head hstep h

theorem RunsAs.after {S : State → Prop} (h : Reaches S s) (hr : ∀ u, S u → RunsAs P r u) : RunsAs P r s := by
  cases r with
  | ok a => exact h.trans hr
  | error e => exact h.trans hr

theorem RunsAs.bind {f : α → Except ErrKind β} (h : RunsAs P r s) (hf : ∀ a u, P a u → RunsAs Q (f a) u) :
    RunsAs Q (r >>= f) s := by
  cases r with
  | ok a => exact .after h (hf a)
  | error e => exact h

theorem RunsAs.map {f : α → β} (h : RunsAs (fun a => Q (f a)) r s) : RunsAs Q (f <$> r) s := by
  cases r with
  | ok a => exact h
  | error e => exact h

theorem RunsAs.shows {result : α → RunResult} (h : RunsAs P r s) (hresult : ∀ a u, P a u → Reaches (Shows · (result a)) u) :
    Reaches (Shows · (resultOf r result)) s := by
  cases r with
  | ok a => exact Reaches.trans h (hresult a)
  | error e => exact h

theorem shows_faultEntry (e : ErrKind) (s : State) : Shows (faultEntry e s) (.fault e) :=
  ⟨rfl, rfl, rfl, rfl, rfl, rfl, rfl⟩

/-- A step that enters FAULT is the end of a run whose big-step result is that fault. -/
theorem RunsAs.fault {e : ErrKind} (hstep : step s = .next (faultEntry e s)) : RunsAs P (.error e) s :=
  Reaches.head hstep (.refl (shows_faultEntry e s))

end RunsAs

/-! ## A run in progress: what is unread and what is output -/

/-- `s` is in a run started with the configuration of `c`, with the bytes `rest` unread and the bytes `out` appended so far. -/
structure Running (c : State) (rest out : List Byte) (s : State) : Prop where
  params : s.params = c.params
  inclTail : s.inclTail = c.inclTail
  inLen : s.inLen = c.inLen
  host : s.host = []
  noErr : s.err = 0
  unread : s.cur + rest.length = s.inLen
  input : ∀ k, k < rest.length → s.inMem.read (s.cur + k) = rest[k]?
  outLen : s.outLen = out.length
  output : ∀ a, s.outMem.read a = out[a]?

/-- The state after `n` more bytes of input (R45). -/
def State.consume (n : Nat) (s : State) : State :=
  { s with cur := s.cur + n }

/-- The state after one more byte of output (R46). -/
def State.push (v : Byte) (s : State) : State :=
  { s with outMem := s.outMem.write s.outLen v, outLen := s.outLen + 1 }

section Running

variable {c s : State} {bytes rest out : List Byte}

theorem Running.unread_length (h : Running c rest out s) : s.inLen - s.cur = rest.length := by
  have := h.unread
  omega

theorem Running.consume (h : Running c (bytes ++ rest) out s) : Running c rest out (s.consume bytes.length) :=
  { h with
    unread := by
      have hunread := h.unread
      rw [List.length_append] at hunread
      change s.cur + bytes.length + rest.length = s.inLen
      omega
    input := fun k hk => by
      have hread := h.input (bytes.length + k) (by rw [List.length_append]; omega)
      rw [List.getElem?_append_right (by omega), Nat.add_sub_cancel_left, ← Nat.add_assoc] at hread
      exact hread }

theorem Running.push (h : Running c rest out s) (v : Byte) : Running c rest (out ++ [v]) (s.push v) :=
  { h with
    outLen := by rw [List.length_append, ← h.outLen]; rfl
    output := fun a => by
      rw [State.push, Memory.read_write, h.output, h.outLen]
      grind }

theorem Running.advance_eq (h : Running c (bytes ++ rest) out s) :
    advance bytes.length s = .ok (s.consume bytes.length) := by
  refine advance_ok.mpr ⟨?_, rfl⟩
  rw [h.unread_length, List.length_append]
  omega

/-- A byte is appended in the machine exactly where the big-step function appends it. -/
theorem Running.append_cases (h : Running c rest out s) (v : Byte) :
    (append v s = .error .outputOverflow ∧ pushByte c.params.outMax v out = .error .outputOverflow) ∨
    (append v s = .ok (s.push v) ∧ pushByte c.params.outMax v out = .ok (out ++ [v])) := by
  rw [pushByte, ← h.params, ← h.outLen]
  by_cases hfull : s.params.outMax = some s.outLen
  · exact .inl ⟨append_error.mpr ⟨hfull, rfl⟩, if_pos hfull⟩
  · exact .inr ⟨append_ok.mpr ⟨hfull, rfl⟩, if_neg hfull⟩

theorem Running.outByte_eq (h : Running c rest out s) (a : Nat) : s.outByte a = out[a]? := by
  rw [State.outByte, h.output, h.outLen]
  split
  · rfl
  · rw [List.getElem?_eq_none (by omega)]

/-- The step on an operand that starts the unread input runs its operation. -/
theorem Running.step_exec {op : Opcode} {i : Instr} (h : Running c (bytes ++ rest) out s) (henabled : enabledOp s = some op)
    (hdecode : decode op bytes = .ok (i, [])) : step s = exec i s := by
  have hsize : bytes.length = op.size := by simpa using (decode_ok_opcode hdecode).2
  have hread : s.inMem.readBytes s.cur op.size = some bytes := by
    refine Memory.readBytes_eq_some.mpr ⟨hsize, fun k hk => ?_⟩
    rw [h.input k (by rw [List.length_append]; omega), List.getElem?_append_left (by omega)]
  refine stepRunsDecodedOperation s op bytes i h.host henabled ?_ hread hdecode
  rw [h.unread_length, List.length_append]
  omega

theorem Running.step_short {op : Opcode} (h : Running c rest out s) (henabled : enabledOp s = some op)
    (hshort : rest.length < op.size) : step s = .next (faultEntry .truncatedStream s) :=
  step_of_short_operand h.host henabled (h.unread_length ▸ hshort)

end Running

/-! ## Raw bytes, and the two ends of a run -/

/-- The states in which every input byte left is copied to OUT as it is (R146, R151). -/
def CopiesRaw (s : State) : Prop :=
  s.state = .tiny ∨ s.state = .tail ∧ s.inclTail = true

section Ends

variable {c s : State} {rest out : List Byte}

/-- TAILCOPY and TINYCOPY have one effect (R67). -/
theorem Running.step_copyRaw {v : Byte} (h : Running c (v :: rest) out s) (hraw : CopiesRaw s) :
    step s = completes s (copyRaw v s) := by
  have hlt : s.cur < s.inLen := by
    have := h.unread
    rw [List.length_cons] at this
    omega
  rcases hraw with hstate | ⟨hstate, hincl⟩
  · have henabled : enabledOp s = some .tinycopy := by simp [enabledOp, hstate, hlt]
    exact h.step_exec (bytes := [v]) henabled rfl
  · have henabled : enabledOp s = some .tailcopy := by simp [enabledOp, hstate, hincl, hlt]
    exact h.step_exec (bytes := [v]) henabled rfl

theorem Running.runsAs_pushAll (h : Running c rest out s) (hraw : CopiesRaw s) :
    RunsAs (fun out' u => Running c [] out' u ∧ u.state = s.state) (pushAll c.params.outMax rest out) s := by
  induction rest generalizing s out with
  | nil => exact Reaches.refl ⟨h, rfl⟩
  | cons v rest ih =>
    have hstep := h.step_copyRaw hraw
    have hnext : Running c rest out (s.consume 1) := h.consume (bytes := [v])
    rw [copyRaw, show advance 1 s = .ok (s.consume 1) from h.advance_eq (bytes := [v])] at hstep
    rw [pushAll_cons]
    rcases hnext.append_cases v with ⟨happend, hpush⟩ | ⟨happend, hpush⟩
    · rw [hpush]
      exact .fault (by simp [hstep, happend])
    · rw [hpush]
      exact .head (t := (s.consume 1).push v) (by simpa [happend] using hstep) (ih (hnext.push v) hraw)

/-- What DONE shows of a run whose overflow result is this. -/
theorem Running.shows_done {overflow : Option (List Byte)} (h : Running c rest out s) (hdone : s.state = .done)
    (hoverflow : s.overflowBytes = overflow.map fun bs => bs.map some) :
    Shows s (.done out (c.inLen - rest.length) overflow) := by
  refine ⟨hdone, h.noErr, h.outLen, fun a => ?_, ?_, hoverflow⟩
  · rw [State.hostReadOut, if_pos hdone, h.outByte_eq]
  · rw [← h.inLen, ← h.unread, Nat.add_sub_cancel]

/-- The IN bytes from CUR on are the unread ones. -/
theorem Running.input_from_cur (h : Running c rest out s) :
    (List.range rest.length).map (fun k => s.inMem.read (s.cur + k)) = rest.map some := by
  refine List.ext_getElem (by simp) fun k hk _ => ?_
  have hk' : k < rest.length := by simpa using hk
  simp [h.input k hk', hk']

/-- R152: the end of a tiny input. -/
theorem Running.shows_tinydone (h : Running c [] out s) (hstate : s.state = .tiny) :
    Reaches (Shows · (.done out c.inLen none)) s := by
  have hend : ¬s.cur < s.inLen := by simp [← h.unread]
  have henabled : enabledOp s = some .tinydone := by simp [enabledOp, hstate, hend]
  refine .head (h.step_exec (bytes := []) henabled rfl) (.refl ?_)
  exact Running.shows_done (rest := []) { h with } rfl rfl

/-- R147 with INCL_TAIL = 1: the tail has been copied, and there is no overflow result. -/
theorem Running.shows_finish_join (h : Running c [] out s) (hstate : s.state = .tail) (hincl : s.inclTail = true) :
    Reaches (Shows · (.done out c.inLen none)) s := by
  have hend : ¬s.cur < s.inLen := by simp [← h.unread]
  have henabled : enabledOp s = some .finish := by simp [enabledOp, hstate, hend]
  have hstep := (h.step_exec (bytes := []) henabled rfl).trans (if_pos hincl)
  refine .head hstep (.refl ?_)
  exact Running.shows_done (rest := []) { h with } rfl rfl

/-- R147 with INCL_TAIL = 0: the tail is the overflow result. -/
theorem Running.shows_finish_split (h : Running c rest out s) (hstate : s.state = .tail) (hincl : s.inclTail = false) :
    Reaches (Shows · (.done out (c.inLen - rest.length) (some rest))) s := by
  have henabled : enabledOp s = some .finish := by simp [enabledOp, hstate, hincl]
  have hstep := (h.step_exec (bytes := []) henabled rfl).trans (if_neg (by simp [hincl]))
  refine .head hstep (.refl ?_)
  refine Running.shows_done (rest := rest) { h with } rfl ?_
  rw [Option.map_some, ← h.input_from_cur, ← h.unread_length]
  rfl

/-- The end of a run through the flag loop is that of the big-step function (R146, R147). -/
theorem Running.shows_finishRun (h : Running c rest out s) (hstate : s.state = .tail) :
    Reaches (Shows · (finishRun c.params.outMax c.inclTail c.inLen rest out)) s := by
  cases hincl : c.inclTail with
  | false =>
    rw [finishRun_split]
    exact h.shows_finish_split hstate (h.inclTail.trans hincl)
  | true =>
    rw [finishRun_join]
    refine (h.runsAs_pushAll (.inr ⟨hstate, h.inclTail.trans hincl⟩)).shows ?_
    rintro out' u ⟨hu, hustate⟩
    exact hu.shows_finish_join (hustate.trans hstate) (hu.inclTail.trans hincl)

/-- The shortcut (R150 to R152). -/
theorem Running.shows_tinyRun (h : Running c rest out s) (hstate : s.state = .tiny) :
    Reaches (Shows · (resultOf (pushAll c.params.outMax rest out) (.done · c.inLen none))) s := by
  refine (h.runsAs_pushAll (.inl hstate)).shows ?_
  rintro out' u ⟨hu, hustate⟩
  exact hu.shows_tinydone (hustate.trans hstate)

end Ends

/-! ## The flag loop -/

/-- `s` is in the flag loop of the stream with descriptor `desc`: `steps` decode steps are left, FW holds `fw`, the method is loaded. -/
structure Looping (c : State) (desc : Byte) (steps : Nat) (fw : BitVec 9) (rest out : List Byte) (s : State) : Prop
    extends Running c rest out s where
  counter : s.fc.toNat = steps
  window : s.fw = fw
  descriptor : s.desc = desc
  method : MethodLoaded s

/-- STATE between two decode steps (R142, R145). -/
def loopState (steps : Nat) : EngineState :=
  if steps = 0 then .tail else .awaitingFlag

section Loop

variable {c s : State} {desc : Byte} {steps : Nat} {fw : BitVec 9} {bytes rest out : List Byte}

theorem Looping.consume (h : Looping c desc steps fw (bytes ++ rest) out s) :
    Looping c desc steps fw rest out (s.consume bytes.length) :=
  { h.toRunning.consume, h with method := { h.method with } }

theorem Looping.push (h : Looping c desc steps fw rest out s) (v : Byte) :
    Looping c desc steps fw rest (out ++ [v]) (s.push v) :=
  { h.toRunning.push v, h with method := { h.method with } }

theorem Looping.lenBits_eq (h : Looping c desc steps fw rest out s) : s.lenBits = lenBitsOf c.params.layout desc := by
  rw [h.method.lenBits, h.params, h.descriptor]

/-- A refilled window holds its eight flag bits (R102). -/
theorem windowExhausted_refill (b : Byte) : windowExhausted (refill b) = false := by
  rw [windowExhausted, beq_eq_false_iff_ne]
  intro hzero
  have hshift : (windowShift (refill b)).toNat = 0 := congrArg BitVec.toNat hzero
  rw [windowShift_toNat, refill_toNat] at hshift
  omega

/-- FLAGFILL where the window is exhausted, nothing where it is not (R100, R102). -/
theorem Looping.runsAs_ensureFlag (h : Looping c desc steps fw rest out s) (hstate : s.state = .awaitingFlag) :
    RunsAs (fun window u => Looping c desc steps window.1 window.2 out u ∧ u.state = .awaitingFlag
      ∧ windowExhausted window.1 = false) (ensureFlag fw rest) s := by
  cases hexhausted : windowExhausted fw with
  | false =>
    simp only [ensureFlag, hexhausted]
    exact Reaches.refl ⟨h, hstate, hexhausted⟩
  | true =>
    simp only [ensureFlag, hexhausted]
    have henabled : enabledOp s = some .flagfill := by simp [enabledOp, hstate, h.window, hexhausted]
    cases rest with
    | nil => exact .fault (h.step_short henabled Nat.one_pos)
    | cons b rest =>
      have hnext : Looping c desc steps fw rest out (s.consume 1) := h.consume (bytes := [b])
      have hstep : step s = .next { s.consume 1 with fw := refill b, state := .awaitingFlag } := by
        rw [h.step_exec (bytes := [b]) henabled rfl, exec, execFlagfill,
          show advance 1 s = .ok (s.consume 1) from h.advance_eq (bytes := [b]), completes_ok]
      exact Reaches.head hstep
        (.refl ⟨{ hnext with window := rfl, method := { hnext.method with } }, rfl, windowExhausted_refill b⟩)

/-- A literal token (R110). -/
theorem Looping.runsAs_literal (h : Looping c desc steps fw rest out s) (hstate : s.state = .literal) :
    RunsAs (fun token u => Looping c desc steps fw token.1 token.2 u ∧ u.state = .count)
      (decodeToken c.params.layout c.params.outMax desc true rest out) s := by
  have henabled : enabledOp s = some .literal := by simp [enabledOp, hstate]
  cases rest with
  | nil => exact .fault (h.step_short henabled Nat.one_pos)
  | cons v rest =>
    have hnext : Looping c desc steps fw rest out (s.consume 1) := h.consume (bytes := [v])
    have hstep := h.step_exec (bytes := [v]) henabled rfl
    rw [exec, execLiteral, show advance 1 s = .ok (s.consume 1) from h.advance_eq (bytes := [v])] at hstep
    rw [decodeToken_literal]
    refine .map ?_
    rcases hnext.append_cases v with ⟨happend, hpush⟩ | ⟨happend, hpush⟩
    · rw [hpush]
      exact .fault (by simp [hstep, happend])
    · rw [hpush]
      have hpushed := hnext.push v
      exact .head (t := { (s.consume 1).push v with state := .count }) (by simp [hstep, happend])
        (Reaches.refl ⟨{ hpushed with method := { hpushed.method with } }, rfl⟩)

/-- The copy loop, `disp` behind the end of the output (R126, R127). -/
theorem Looping.runsAs_copyBack {disp n : Nat} (h : Looping c desc steps fw rest out s) (hstate : s.state = .copy)
    (hdisp : 0 < disp) (hsrc : s.src + disp = out.length) (hrem : s.rem.toNat = n) :
    RunsAs (fun out' u => Looping c desc steps fw rest out' u ∧ u.state = .count)
      (copyBack c.params.outMax disp n out) s := by
  induction n generalizing s out with
  | zero =>
    have henabled : enabledOp s = some .copy := by simp [enabledOp, hstate]
    have hstep := (h.step_exec (bytes := []) henabled rfl).trans (if_pos (BitVec.eq_of_toNat_eq hrem))
    exact Reaches.head hstep (.refl ⟨{ h with method := { h.method with } }, rfl⟩)
  | succ n ih =>
    have henabled : enabledOp s = some .copy := by simp [enabledOp, hstate]
    have hrem0 : s.rem ≠ 0 := fun hzero => by simp [hzero] at hrem
    have hlt : s.src < out.length := by omega
    have hread : out[out.length - disp]? = some out[s.src] := by
      rw [← hsrc, Nat.add_sub_cancel, List.getElem?_eq_getElem hlt]
    have hbyte : s.outByte s.src = some out[s.src] := by rw [h.outByte_eq, List.getElem?_eq_getElem hlt]
    have hstep := h.step_exec (bytes := []) henabled rfl
    rw [exec, execCopy, if_neg hrem0, hbyte] at hstep
    rw [copyBack_succ hread]
    rcases h.append_cases out[s.src] with ⟨happend, hpush⟩ | ⟨happend, hpush⟩
    · rw [hpush]
      exact .fault (by simp [hstep, happend])
    · rw [hpush]
      have hpushed := h.push out[s.src]
      refine .head (t := { s.push out[s.src] with src := s.src + 1, rem := s.rem - 1 }) ?_
        (ih { hpushed with method := { hpushed.method with } } hstate ?_ ?_)
      · simp only [hstep, happend, completes_ok, State.push]
      · change s.src + 1 + disp = (out ++ [out[s.src]]).length
        rw [List.length_append, List.length_singleton]
        omega
      · change (s.rem - 1).toNat = n
        bv_omega

/-- A back-reference (R120 to R126). -/
theorem Looping.runsAs_backref (h : Looping c desc steps fw rest out s) (hstate : s.state = .backref) :
    RunsAs (fun token u => Looping c desc steps fw token.1 token.2 u ∧ u.state = .count)
      (decodeToken c.params.layout c.params.outMax desc false rest out) s := by
  have henabled : enabledOp s = some .backref := by simp [enabledOp, hstate]
  match rest, h with
  | [], h => exact .fault (h.step_short henabled Nat.two_pos)
  | [_], h => exact .fault (h.step_short henabled Nat.one_lt_two)
  | hi :: lo :: rest, h =>
    rw [decodeToken_backref]
    refine .map ?_
    have hnext : Looping c desc steps fw rest out (s.consume 2) := h.consume (bytes := [hi, lo])
    have hadvance : advance 2 s = .ok (s.consume 2) := h.advance_eq (bytes := [hi, lo])
    have hstep := h.step_exec (bytes := [hi, lo]) henabled rfl
    rw [exec] at hstep
    have hlenBits := hnext.lenBits_eq
    cases hbit : refIndexBit (s.consume 2).lenBits (bigEndian16 hi lo) with
    | false =>
      rw [backrefToken_of_clear (hlenBits ▸ hbit)]
      exact .fault (hstep.trans (execBackref_of_clear hadvance hnext.method hbit))
    | true =>
      rw [backrefToken_of_set (hlenBits ▸ hbit), ← hlenBits]
      rw [execBackref_of_set hadvance hnext.method hbit] at hstep
      have hnonzero := displacementOf_ne_zero hbit
      split
      next hrange =>
        rw [startCopy_error.mpr (.inr ⟨hnonzero, hnext.outLen ▸ hrange, rfl⟩)] at hstep
        exact .fault hstep
      next hrange =>
        rw [startCopy_ok.mpr ⟨hnonzero, hnext.outLen ▸ Nat.not_lt.mp hrange, rfl⟩] at hstep
        refine .head hstep (Looping.runsAs_copyBack { hnext with method := { hnext.method with } } rfl ?_ ?_ ?_)
        · exact Nat.pos_of_ne_zero fun hzero => hnonzero (BitVec.eq_of_toNat_eq hzero)
        · change (s.consume 2).outLen - _ + _ = _
          rw [hnext.outLen]
          omega
        · rw [hnext.params, hnext.descriptor]
          exact Nat.mod_eq_of_lt (copyLengthOf_lt _ _)

/-- FLAGTAKE and the token it chooses (R101). -/
theorem Looping.runsAs_decodeToken (h : Looping c desc steps fw rest out s) (hstate : s.state = .awaitingFlag)
    (hwindow : windowExhausted fw = false) :
    RunsAs (fun token u => Looping c desc steps (windowShift fw) token.1 token.2 u ∧ u.state = .count)
      (decodeToken c.params.layout c.params.outMax desc (flagBit fw) rest out) s := by
  have henabled : enabledOp s = some .flagtake := by simp [enabledOp, hstate, h.window, hwindow]
  refine .head (h.step_exec (bytes := []) henabled rfl) ?_
  cases hflag : flagBit fw with
  | true =>
    refine Looping.runsAs_literal { h with window := ?_, method := { h.method with } } ?_ <;> simp [h.window, hflag]
  | false =>
    refine Looping.runsAs_backref { h with window := ?_, method := { h.method with } } ?_ <;> simp [h.window, hflag]

/-- COUNT: one decode step less (R145). -/
theorem Looping.reaches_count (h : Looping c desc (steps + 1) fw rest out s) (hstate : s.state = .count) :
    Reaches (fun u => Looping c desc steps fw rest out u ∧ u.state = loopState steps) s := by
  have henabled : enabledOp s = some .count := by simp [enabledOp, hstate]
  have hcounter : (s.fc - 1).toNat = steps := by
    have := h.counter
    bv_omega
  refine .head (h.step_exec (bytes := []) henabled rfl)
    (.refl ⟨{ h with counter := hcounter, method := { h.method with } }, ?_⟩)
  have hzero : s.fc - 1 = 0 ↔ steps = 0 := by rw [← hcounter, BitVec.toNat_eq]; rfl
  simp only [loopState, hzero]

/-- The whole flag loop (R142). -/
theorem Looping.runsAs_decodeSteps (h : Looping c desc steps fw rest out s) (hstate : s.state = loopState steps) :
    RunsAs (fun final u => Running c final.1 final.2 u ∧ u.state = .tail)
      (decodeSteps c.params.layout c.params.outMax desc steps fw rest out) s := by
  induction steps generalizing s fw rest out with
  | zero => exact Reaches.refl ⟨h.toRunning, hstate⟩
  | succ steps ih =>
    rw [decodeSteps_succ]
    refine (h.runsAs_ensureFlag hstate).bind ?_
    rintro window t ⟨ht, htstate, hwindow⟩
    refine (ht.runsAs_decodeToken htstate hwindow).bind ?_
    rintro token u ⟨hu, hustate⟩
    exact .after (hu.reaches_count hustate) fun v ⟨hv, hvstate⟩ => ih hv hvstate

end Loop

/-! ## From START to the end of the run -/

section WholeRun

variable {c s t : State} {desc hi mid lo : Byte} {inp rest out : List Byte}

/-- HEADER (R80): the method and the number of decode steps, before the first flag byte. -/
theorem Running.step_header (h : Running c (desc :: hi :: mid :: lo :: rest) out s) (hstate : s.state = .header)
    (hfw : s.fw = 0) :
    ∃ t, step s = .next t ∧ Looping c desc (stepsOf (bigEndian24 hi mid lo)).toNat 0 rest out t ∧
      t.state = .awaitingFlag := by
  have henabled : enabledOp s = some .header := by simp [enabledOp, hstate]
  have hdesc : Running c (hi :: mid :: lo :: rest) out (s.consume 1) := h.consume (bytes := [desc])
  have hmethod : Running c (hi :: mid :: lo :: rest) out (loadMethod desc (s.consume 1)) := { hdesc with }
  have hcount : Running c rest out ((loadMethod desc (s.consume 1)).consume 3) := hmethod.consume (bytes := [hi, mid, lo])
  have hadvance1 : advance 1 s = .ok (s.consume 1) := h.advance_eq (bytes := [desc])
  have hadvance3 : advance 3 (loadMethod desc (s.consume 1)) = .ok ((loadMethod desc (s.consume 1)).consume 3) :=
    hmethod.advance_eq (bytes := [hi, mid, lo])
  have hstep := h.step_exec (bytes := [desc, hi, mid, lo]) henabled rfl
  simp only [exec, execHeader, hadvance1, hadvance3, completes_ok] at hstep
  have hloaded := methodLoaded_loadMethod desc (s.consume 1)
  exact ⟨_, hstep, { hcount with counter := rfl, window := hfw, descriptor := rfl, method := { hloaded with } }, rfl⟩

/-- The run through the flag loop, from the state START leaves (R142). -/
theorem Running.shows_streamRun {tinyEn : Bool} (h : Running c inp [] s) (hstate : s.state = .header) (hfw : s.fw = 0)
    (hlen : c.inLen = inp.length) (htiny : ¬(tinyEn = true ∧ inp.length ≤ tinyInputLimit)) :
    Reaches (Shows · (decodeRun c.params tinyEn c.inclTail inp)) s := by
  have henabled : enabledOp s = some .header := by simp [enabledOp, hstate]
  obtain hshort | ⟨desc, hi, mid, lo, rest, rfl⟩ :
      inp.length < 4 ∨ ∃ desc hi mid lo rest, inp = desc :: hi :: mid :: lo :: rest := by
    match inp with
    | desc :: hi :: mid :: lo :: rest => exact .inr ⟨desc, hi, mid, lo, rest, rfl⟩
    | [] | [_] | [_, _] | [_, _, _] => exact .inl (by simp)
  · rw [decodeRun_short htiny hshort]
    exact .head (h.step_short henabled hshort) (.refl (shows_faultEntry _ s))
  · obtain ⟨t, hstep, hloop, htstate⟩ := h.step_header hstate hfw
    have hsteps : t.state = loopState (stepsOf (bigEndian24 hi mid lo)).toNat := by
      rw [htstate, loopState, stepsOf_toNat, if_neg (Nat.succ_ne_zero _)]
    rw [decodeRun_stream htiny, ← hlen]
    refine .head hstep ((hloop.runsAs_decodeSteps hsteps).shows ?_)
    rintro final u ⟨hu, hustate⟩
    exact hu.shows_finishRun hustate

/-- START on a machine that is not BUSY (R141, R150). -/
theorem execStart_of_not_busy (hidle : s.status ≠ 1) :
    exec .start s = .next { clearRun s with
      state := if s.tinyEn = true ∧ s.inLen ≤ tinyInputLimit then .tiny else .header } := by
  have hbusy : ¬s.busy = true := by simpa [State.busy, State.status] using hidle
  rw [exec, execStart, if_neg hbusy]

/-- After START all input is unread and there is no output (R141). -/
theorem running_of_start {state : EngineState} (hhost : s.host = []) (hinput : InputIs s inp) :
    Running s inp [] { clearRun s with state := state } where
  params := rfl
  inclTail := rfl
  inLen := rfl
  host := hhost
  noErr := rfl
  unread := by
    rw [clearRun_cur, clearRun_inLen, hinput.1, Nat.zero_add]
  input k hk := by
    rw [clearRun_cur, clearRun_inMem, Nat.zero_add, hinput.2 k hk]
  outLen := rfl
  output _ := rfl

end WholeRun

/-- Settles O52: after START the run is the shortcut's or the flag loop's, and each does what the big-step function says. -/
theorem runComputesDecodeRun : Obligations.RunComputesDecodeRun := by
  intro s t inp hidle hhost hinput hstart
  have hlen : s.inLen = inp.length := hinput.1
  rw [execStart_of_not_busy hidle, Host.Outcome.next.injEq] at hstart
  subst hstart
  have hrun := running_of_start (state := if s.tinyEn = true ∧ s.inLen ≤ tinyInputLimit then .tiny else .header) hhost hinput
  by_cases htiny : s.tinyEn = true ∧ inp.length ≤ tinyInputLimit
  · rw [decodeRun_tiny htiny, ← hlen]
    exact hrun.shows_tinyRun (if_pos (hlen ▸ htiny))
  · exact hrun.shows_streamRun (if_neg (hlen ▸ htiny)) rfl hlen htiny

end Sys2Proof.Machine

/-! # What a step of the engine can do (10_state.md R31, 30_encoding.md R70, 44 R156, 60_exceptions.md R179)

`EngineMove s t` lists the effects of the operations, each with the condition under which it completes. -/

namespace Sys2Proof.Machine

/-- The column "selected by" of R70, with the test on FW of R100. -/
def SelectedBy (s : State) : Opcode → Prop
  | .start | .abort => False
  | .header => s.state = .header
  | .flagfill => s.state = .awaitingFlag ∧ windowExhausted s.fw = true
  | .flagtake => s.state = .awaitingFlag ∧ windowExhausted s.fw = false
  | .literal => s.state = .literal
  | .backref => s.state = .backref
  | .copy => s.state = .copy
  | .count => s.state = .count
  | .tailcopy => s.state = .tail ∧ s.inclTail = true ∧ s.cur < s.inLen
  | .finish => s.state = .tail ∧ ¬(s.inclTail = true ∧ s.cur < s.inLen)
  | .tinycopy => s.state = .tiny ∧ s.cur < s.inLen
  | .tinydone => s.state = .tiny ∧ ¬s.cur < s.inLen

/-- The kinds an operation can raise: the rows of R179. -/
def raisedBy : Opcode → List ErrKind
  | .header | .flagfill => [.truncatedStream]
  | .literal => [.truncatedStream, .outputOverflow]
  | .backref => [.truncatedStream, .invalidLengthIndex, .invalidDisplacement, .copyOutOfRange]
  | .copy | .tailcopy | .tinycopy => [.outputOverflow]
  | .start | .abort | .flagtake | .count | .finish | .tinydone => []

/-- What a step of the engine can make of `s`. -/
inductive EngineMove (s : State) : State → Prop where
  | quiet (hquiet : enabledOp s = none) : EngineMove s s
  | fault {op : Opcode} {e : ErrKind} (henabled : enabledOp s = some op) (hraises : e ∈ raisedBy op) :
      EngineMove s (faultEntry e s)
  | header (hstate : s.state = .header) (desc : Byte) (count : BitVec 24) (hleft : s.cur + 4 ≤ s.inLen) :
      EngineMove s { (loadMethod desc s).consume 4 with fc := stepsOf count, state := .awaitingFlag }
  | flagfill (hstate : s.state = .awaitingFlag) (hwindow : windowExhausted s.fw = true) (flags : Byte)
      (hleft : s.cur < s.inLen) :
      EngineMove s { s.consume 1 with fw := refill flags, state := .awaitingFlag }
  | flagtake (hstate : s.state = .awaitingFlag) (hwindow : windowExhausted s.fw = false) :
      EngineMove s { s with
        carry := flagBit s.fw
        fw := windowShift s.fw
        state := if flagBit s.fw then .literal else .backref }
  | literal (hstate : s.state = .literal) (v : Byte) (hleft : s.cur < s.inLen) (hroom : s.params.outMax ≠ some s.outLen) :
      EngineMove s { (s.consume 1).push v with state := .count }
  | backref (hstate : s.state = .backref) (dist : BitVec 16) (length : BitVec 10) (hleft : s.cur + 2 ≤ s.inLen)
      (hmasked : maskedValue s.lenMask dist ≠ 0)
      (hlength : tableRead s.lt ((maskedValue s.lenMask dist).toNat - 1) = some length)
      (hdisp : displacementOf s.lenBits dist ≠ 0) (hrange : (displacementOf s.lenBits dist).toNat ≤ s.outLen) :
      EngineMove s { s.consume 2 with
        dist := dist
        length := length
        disp := displacementOf s.lenBits dist
        src := s.outLen - (displacementOf s.lenBits dist).toNat
        rem := length
        state := .copy }
  | copyByte (hstate : s.state = .copy) (hrem : s.rem ≠ 0) (b : Byte) (hread : s.outByte s.src = some b)
      (hroom : s.params.outMax ≠ some s.outLen) :
      EngineMove s { s.push b with src := s.src + 1, rem := s.rem - 1 }
  | copyEnd (hstate : s.state = .copy) (hrem : s.rem = 0) : EngineMove s { s with state := .count }
  | count (hstate : s.state = .count) :
      EngineMove s { s with fc := s.fc - 1, state := if s.fc - 1 = 0 then .tail else .awaitingFlag }
  | rawCopy (hraw : CopiesRaw s) (v : Byte) (hleft : s.cur < s.inLen) (hroom : s.params.outMax ≠ some s.outLen) :
      EngineMove s ((s.consume 1).push v)
  | finishJoin (hstate : s.state = .tail) (hincl : s.inclTail = true) (hleft : ¬s.cur < s.inLen) :
      EngineMove s { s with ovfValid := false, ovfBase := 0, ovfLen := 0, state := .done }
  | finishSplit (hstate : s.state = .tail) (hincl : s.inclTail = false) :
      EngineMove s { s with ovfValid := true, ovfBase := s.cur, ovfLen := s.inLen - s.cur, state := .done }
  | tinydone (hstate : s.state = .tiny) (hleft : ¬s.cur < s.inLen) :
      EngineMove s { s with ovfValid := false, ovfBase := 0, ovfLen := 0, state := .done }

section EngineMove

variable {s t : State} {op : Opcode}

theorem selectedBy_of_enabledOp (h : enabledOp s = some op) : SelectedBy s op := by
  cases hstate : s.state with
  | idle | done | fault => simp [enabledOp, hstate] at h
  | tiny | awaitingFlag | tail =>
    simp only [enabledOp, hstate] at h
    split at h <;> cases h <;> simp_all [SelectedBy]
  | header | literal | backref | copy | count =>
    simp only [enabledOp, hstate] at h
    cases h
    exact hstate

/-! ## When an operation completes -/

theorem execHeader_next {desc : Byte} {count : BitVec 24} (h : execHeader desc count s = .next t) :
    (s.cur + 4 ≤ s.inLen ∧ t = { (loadMethod desc s).consume 4 with fc := stepsOf count, state := .awaitingFlag }) ∨
      t = faultEntry .truncatedStream s := by
  unfold execHeader at h
  cases hdesc : advance 1 s with
  | error e =>
    obtain ⟨-, rfl⟩ := advance_error.mp hdesc
    exact .inr (by simpa [hdesc, eq_comm] using h)
  | ok u =>
    obtain ⟨hfirst, rfl⟩ := advance_ok.mp hdesc
    cases hcount : advance 3 (loadMethod desc { s with cur := s.cur + 1 }) with
    | error e =>
      obtain ⟨-, rfl⟩ := advance_error.mp hcount
      exact .inr (by simpa [hdesc, hcount, eq_comm] using h)
    | ok v =>
      obtain ⟨hrest, rfl⟩ := advance_ok.mp hcount
      simp only [loadMethod_inLen, loadMethod_cur] at hrest
      refine .inl ⟨by omega, ?_⟩
      simp only [hdesc, hcount, completes_ok, Host.Outcome.next.injEq] at h
      exact h.symm

theorem execFlagfill_next {flags : Byte} (h : execFlagfill flags s = .next t) :
    (s.cur < s.inLen ∧ t = { s.consume 1 with fw := refill flags, state := .awaitingFlag }) ∨
      t = faultEntry .truncatedStream s := by
  unfold execFlagfill at h
  cases hadvance : advance 1 s with
  | error e =>
    obtain ⟨-, rfl⟩ := advance_error.mp hadvance
    exact .inr (by simpa [hadvance, eq_comm] using h)
  | ok u =>
    obtain ⟨hleft, rfl⟩ := advance_ok.mp hadvance
    simp only [hadvance, completes_ok, Host.Outcome.next.injEq] at h
    exact .inl ⟨by omega, h.symm⟩

theorem execLiteral_next {v : Byte} (h : execLiteral v s = .next t) :
    (s.cur < s.inLen ∧ s.params.outMax ≠ some s.outLen ∧ t = { (s.consume 1).push v with state := .count }) ∨
      ∃ e ∈ raisedBy .literal, t = faultEntry e s := by
  unfold execLiteral at h
  cases hadvance : advance 1 s with
  | error e =>
    obtain ⟨-, rfl⟩ := advance_error.mp hadvance
    exact .inr ⟨.truncatedStream, by simp [raisedBy], by simpa [hadvance, eq_comm] using h⟩
  | ok u =>
    obtain ⟨hleft, rfl⟩ := advance_ok.mp hadvance
    cases happend : append v { s with cur := s.cur + 1 } with
    | error e =>
      obtain ⟨-, rfl⟩ := append_error.mp happend
      exact .inr ⟨.outputOverflow, by simp [raisedBy], by simpa [hadvance, happend, eq_comm] using h⟩
    | ok w =>
      obtain ⟨hroom, rfl⟩ := append_ok.mp happend
      simp only [hadvance, happend, completes_ok, Host.Outcome.next.injEq] at h
      exact .inl ⟨by omega, hroom, h.symm⟩

theorem execBackref_next {dist : BitVec 16} (h : execBackref dist s = .next t) :
    (s.cur + 2 ≤ s.inLen ∧ maskedValue s.lenMask dist ≠ 0 ∧ displacementOf s.lenBits dist ≠ 0 ∧
      (displacementOf s.lenBits dist).toNat ≤ s.outLen ∧
      ∃ length, tableRead s.lt ((maskedValue s.lenMask dist).toNat - 1) = some length ∧
        t = { s.consume 2 with
          dist := dist
          length := length
          disp := displacementOf s.lenBits dist
          src := s.outLen - (displacementOf s.lenBits dist).toNat
          rem := length
          state := .copy }) ∨
      ∃ e ∈ raisedBy .backref, t = faultEntry e s := by
  unfold execBackref at h
  cases hadvance : advance 2 s with
  | error e =>
    obtain ⟨-, rfl⟩ := advance_error.mp hadvance
    exact .inr ⟨.truncatedStream, by simp [raisedBy], by simpa [hadvance, eq_comm] using h⟩
  | ok u =>
    obtain ⟨hleft, rfl⟩ := advance_ok.mp hadvance
    simp only [hadvance] at h
    split at h
    next => exact .inr ⟨.invalidLengthIndex, by simp [raisedBy], by simpa [eq_comm] using h⟩
    next hmasked =>
      split at h
      next => cases h
      next length hlength =>
        rcases completes_next.mp h with hok | ⟨e, herror, rfl⟩
        · obtain ⟨hdisp, hrange, rfl⟩ := startCopy_ok.mp hok
          exact .inl ⟨by omega, hmasked, hdisp, hrange, length, hlength, rfl⟩
        · refine .inr ⟨e, ?_, rfl⟩
          rcases startCopy_error.mp herror with ⟨-, rfl⟩ | ⟨-, -, rfl⟩ <;> simp [raisedBy]

theorem execCopy_next (h : execCopy s = .next t) :
    (s.rem = 0 ∧ t = { s with state := .count }) ∨
    (s.rem ≠ 0 ∧ s.params.outMax ≠ some s.outLen ∧
      ∃ b, s.outByte s.src = some b ∧ t = { s.push b with src := s.src + 1, rem := s.rem - 1 }) ∨
      t = faultEntry .outputOverflow s := by
  unfold execCopy at h
  split at h
  next hrem => exact .inl ⟨hrem, by simpa [eq_comm] using h⟩
  next hrem =>
    split at h
    next => cases h
    next b hread =>
      cases happend : append b s with
      | error e =>
        obtain ⟨-, rfl⟩ := append_error.mp happend
        exact .inr (.inr (by simpa [happend, eq_comm] using h))
      | ok u =>
        obtain ⟨hroom, rfl⟩ := append_ok.mp happend
        simp only [happend, completes_ok, Host.Outcome.next.injEq] at h
        exact .inr (.inl ⟨hrem, hroom, b, hread, h.symm⟩)

/-- Both raw copies, where a byte is left to copy (R67). -/
theorem completes_copyRaw_next {v : Byte} (hleft : s.cur < s.inLen) (h : completes s (copyRaw v s) = .next t) :
    (s.params.outMax ≠ some s.outLen ∧ t = (s.consume 1).push v) ∨ t = faultEntry .outputOverflow s := by
  rcases completes_next.mp h with hok | ⟨e, herror, rfl⟩
  · obtain ⟨-, hroom, rfl⟩ := copyRaw_ok.mp hok
    exact .inl ⟨hroom, rfl⟩
  · rw [copyRaw, advance_ok.mpr ⟨by omega, rfl⟩] at herror
    obtain ⟨-, rfl⟩ := append_error.mp herror
    exact .inr rfl

/-! ## The moves of the engine -/

/-- The enabled operation moves the engine as `EngineMove` says. -/
theorem EngineMove.of_exec {i : Instr} (henabled : enabledOp s = some i.opcode) (hexec : exec i s = .next t) :
    EngineMove s t := by
  have hselected := selectedBy_of_enabledOp henabled
  cases i with
  | start | abort => exact hselected.elim
  | header desc count =>
    rcases execHeader_next hexec with ⟨hleft, rfl⟩ | rfl
    · exact .header hselected desc count hleft
    · exact .fault henabled (by simp [Instr.opcode, raisedBy])
  | flagfill flags =>
    rcases execFlagfill_next hexec with ⟨hleft, rfl⟩ | rfl
    · exact .flagfill hselected.1 hselected.2 flags hleft
    · exact .fault henabled (by simp [Instr.opcode, raisedBy])
  | flagtake =>
    cases hexec
    exact .flagtake hselected.1 hselected.2
  | literal v =>
    rcases execLiteral_next hexec with ⟨hleft, hroom, rfl⟩ | ⟨e, hraises, rfl⟩
    · exact .literal hselected v hleft hroom
    · exact .fault henabled hraises
  | backref dist =>
    rcases execBackref_next hexec with ⟨hleft, hmasked, hdisp, hrange, length, hlength, rfl⟩ | ⟨e, hraises, rfl⟩
    · exact .backref hselected dist length hleft hmasked hlength hdisp hrange
    · exact .fault henabled hraises
  | copy =>
    rcases execCopy_next hexec with ⟨hrem, rfl⟩ | ⟨hrem, hroom, b, hread, rfl⟩ | rfl
    · exact .copyEnd hselected hrem
    · exact .copyByte hselected hrem b hread hroom
    · exact .fault henabled (by simp [Instr.opcode, raisedBy])
  | count =>
    cases hexec
    exact .count hselected
  | tailcopy v =>
    obtain ⟨hstate, hincl, hleft⟩ := hselected
    rcases completes_copyRaw_next hleft hexec with ⟨hroom, rfl⟩ | rfl
    · exact .rawCopy (.inr ⟨hstate, hincl⟩) v hleft hroom
    · exact .fault henabled (by simp [Instr.opcode, raisedBy])
  | finish =>
    obtain ⟨hstate, hleft⟩ := hselected
    cases hincl : s.inclTail with
    | true =>
      cases (if_pos hincl).symm.trans hexec
      exact .finishJoin hstate hincl fun hlt => hleft ⟨hincl, hlt⟩
    | false =>
      cases (if_neg (by simp [hincl])).symm.trans hexec
      exact .finishSplit hstate hincl
  | tinycopy v =>
    obtain ⟨hstate, hleft⟩ := hselected
    rcases completes_copyRaw_next hleft hexec with ⟨hroom, rfl⟩ | rfl
    · exact .rawCopy (.inl hstate) v hleft hroom
    · exact .fault henabled (by simp [Instr.opcode, raisedBy])
  | tinydone =>
    cases hexec
    exact .tinydone hselected.1 hselected.2

/-- An operand cut short is TruncatedStream, which every enabled operation that can meet it raises (R171, R179). -/
theorem truncatedStream_mem_raisedBy (henabled : enabledOp s = some op) (hshort : s.inLen - s.cur < op.size) :
    ErrKind.truncatedStream ∈ raisedBy op := by
  have hselected := selectedBy_of_enabledOp henabled
  cases op with
  | header | flagfill | literal | backref => simp [raisedBy]
  | tailcopy | tinycopy =>
    simp only [SelectedBy, Opcode.size] at hselected hshort
    omega
  | start | abort | flagtake | copy | count | finish | tinydone => simp [Opcode.size] at hshort

/-- Every next state of the engine is one of its moves. -/
theorem EngineMove.of_engineStep (h : engineStep s = .next t) : EngineMove s t := by
  rcases engineStep_cases s with ⟨hquiet, hstep⟩ | ⟨op, henabled, ⟨hshort, hstep⟩ | ⟨-, -, hstep⟩ | ⟨-, i, -, -, -, rfl, hstep⟩⟩
  all_goals rw [hstep] at h
  · cases h
    exact .quiet hquiet
  · cases h
    exact .fault henabled (truncatedStream_mem_raisedBy henabled hshort)
  · cases h
  · exact .of_exec henabled h

theorem EngineMove.of_step (hhost : s.host = []) (h : step s = .next t) : EngineMove s t :=
  .of_engineStep (by rwa [step, stepOnce_engine hhost] at h)

/-- A move that does not enter FAULT leaves OUT as it is, or appends one byte at OUT_LEN (R31, R42, R46). -/
theorem EngineMove.output (h : EngineMove s t) (hfault : t.state ≠ .fault) :
    (t.outMem = s.outMem ∧ t.outLen = s.outLen) ∨
      ∃ v, t.outMem = s.outMem.write s.outLen v ∧ t.outLen = s.outLen + 1 := by
  cases h with
  | fault => exact absurd rfl hfault
  | literal _ v | copyByte _ _ v | rawCopy _ v => exact .inr ⟨v, rfl, rfl⟩
  | quiet | header | flagfill | flagtake | backref | copyEnd | count | finishJoin | finishSplit | tinydone =>
    exact .inl ⟨rfl, rfl⟩

end EngineMove

/-- Settles O46: an append writes at OUT_LEN, above every byte it has to keep. -/
theorem outputIsAppendOnly : Obligations.OutputIsAppendOnly := by
  intro s t hhost hstep hfault
  rcases (EngineMove.of_step hhost hstep).output hfault with ⟨hmem, hlen⟩ | ⟨v, hmem, hlen⟩
  · exact ⟨by omega, by omega, fun a _ => by rw [State.outByte, State.outByte, hmem, hlen]⟩
  · refine ⟨by omega, by omega, fun a ha => ?_⟩
    rw [State.outByte, State.outByte, if_pos ha, if_pos (by omega), hmem, Memory.read_write_other _ v (by omega)]

end Sys2Proof.Machine

/-! # The invariant of reachable states (10_state.md R36)

`Inv` guards its clauses by STATE. Here its clauses are sorted by what a step does to them: those on the spaces hold in every state
(`StorageInv`, `SpaceInv`), and those of the flag loop stand together without their guard (`LoopInv`). Each move of the engine
then has to show only what it changes. -/

namespace Sys2Proof.Machine

/-! ## The clauses that hold in every state -/

/-- What `Inv` asks of IN and of the registers a cleared run keeps. -/
structure StorageInv (s : State) : Prop where
  inMemCanonical : s.inMem.wf
  inMemInSpace : ∀ m, s.params.inMax = some m → ∀ c ∈ s.inMem, c.1 < m
  inLenFits : ∀ m, s.params.inMax = some m → s.inLen ≤ m
  srcFits : ∀ m, s.params.outMax = some m → s.src < 2 ^ addrWidth m

/-- What `Inv` asks in every state: the spaces and the registers that hold their addresses and lengths. -/
structure SpaceInv (s : State) : Prop extends StorageInv s where
  outMemCanonical : s.outMem.wf
  cursorFits : ∀ m, s.params.inMax = some m → s.cur ≤ m ∧ s.ovfBase ≤ m ∧ s.ovfLen ≤ m
  outLenFits : ∀ m, s.params.outMax = some m → s.outLen ≤ m
  outFilled : OutputFilled s

/-- What `Inv` asks in the states after HEADER. -/
structure LoopInv (s : State) : Prop extends SpaceInv s where
  inLoop : AfterHeader s
  noErr : s.err = 0
  noOverflow : NoOverflow s
  cursor : s.cur ≤ s.inLen
  method : MethodLoaded s
  pastHeader : 4 ≤ s.cur
  window : s.fw = 0 ↔ s.cur = 4
  firstFlag : s.cur = 4 → s.state = .awaitingFlag
  counterFits : s.fc.toNat ≤ 2 ^ 24
  counter : s.fc = 0 ↔ s.state = .tail
  carryLiteral : s.state = .literal → s.carry = true
  carryBackref : s.state = .backref ∨ s.state = .copy → s.carry = false
  copying : s.state = .copy →
    1 ≤ s.disp.toNat ∧ s.src + s.disp.toNat = s.outLen ∧ s.disp = displacementOf s.lenBits s.dist
      ∧ s.lt[s.lenMask.toNat - 1]? = some s.length ∧ s.rem ≤ s.length

/-- What `Inv` asks in the states outside the flag loop. -/
structure OutsideInv (s : State) : Prop extends SpaceInv s where
  outside : ¬AfterHeader s
  cursor : s.busy = true → s.cur ≤ s.inLen
  noErr : s.state ≠ .fault → s.err = 0
  errKind : s.state = .fault → ∃ e, e ≠ ErrKind.truncatedHeader ∧ s.err = e.code
  results : s.state ≠ .done → NoOverflow s
  cleared : s.state = .idle ∨ s.state = .fault → s.cur = 0 ∧ s.outLen = 0
  atStart : s.state = .idle ∨ s.state = .header → s.cur = 0 ∧ s.outLen = 0
  cleanWindow : s.state = .idle ∨ s.state = .header ∨ s.state = .tiny → s.fw = 0 ∧ s.fc = 0 ∧ s.carry = false
  tiny : s.state = .tiny → s.outLen = s.cur ∧ s.inLen ≤ tinyInputLimit
  finished : s.state = .done → s.fc = 0 ∧ RunFinished s

section Parts

variable {s : State}

theorem Inv.storage (h : Inv s) : StorageInv s := { h with }

theorem Inv.spaces (h : Inv s) : SpaceInv s := { h with }

theorem busy_iff : s.busy = true ↔ s.state ≠ .idle ∧ s.state ≠ .done ∧ s.state ≠ .fault := by
  cases hstate : s.state <;> simp [State.busy, statusOf, hstate]

theorem AfterHeader.state_ne (h : AfterHeader s) :
    s.state ≠ .idle ∧ s.state ≠ .tiny ∧ s.state ≠ .header ∧ s.state ≠ .done ∧ s.state ≠ .fault := by
  rcases h with h | h | h | h | h | h <;> simp [h]

/-- In the loop the invariant is `LoopInv`. -/
theorem Inv.loop (h : Inv s) (hloop : AfterHeader s) : LoopInv s := by
  obtain ⟨hidle, -, -, hdone, hfault⟩ := hloop.state_ne
  obtain ⟨hpast, hwindow, hfirst⟩ := h.window hloop
  obtain ⟨hfits, hcounter⟩ := h.counter hloop
  exact { h with
    inLoop := hloop
    noErr := h.noErr hfault
    noOverflow := h.results hdone
    cursor := h.cursor (busy_iff.mpr ⟨hidle, hdone, hfault⟩)
    method := h.method hloop
    pastHeader := hpast
    window := hwindow
    firstFlag := hfirst
    counterFits := hfits
    counter := hcounter }

theorem Inv.loop_of_state {state : EngineState} (h : Inv s) (hstate : s.state = state)
    (hloop : state ∈ [EngineState.awaitingFlag, .literal, .backref, .copy, .count, .tail] := by decide) : LoopInv s :=
  h.loop (by simpa [AfterHeader, hstate] using hloop)

theorem OutsideInv.inv (h : OutsideInv s) : Inv s :=
  have habsurd {p : Prop} (hloop : AfterHeader s) : p := absurd hloop h.outside
  { h with
    method := habsurd
    window := habsurd
    counter := habsurd
    carryLiteral := fun hstate => habsurd (by simp [AfterHeader, hstate])
    carryBackref := fun hstate => habsurd (by rcases hstate with hstate | hstate <;> simp [AfterHeader, hstate])
    copying := fun hstate => habsurd (by simp [AfterHeader, hstate]) }

theorem LoopInv.inv (h : LoopInv s) : Inv s := by
  obtain ⟨hidle, htiny, hheader, hdone, hfault⟩ := h.inLoop.state_ne
  exact { h with
    cursor := fun _ => h.cursor
    noErr := fun _ => h.noErr
    errKind := fun hstate => absurd hstate hfault
    results := fun _ => h.noOverflow
    cleared := by simp [hidle, hfault]
    atStart := by simp [hidle, hheader]
    cleanWindow := by simp [hidle, hheader, htiny]
    tiny := fun hstate => absurd hstate htiny
    method := fun _ => h.method
    window := fun _ => ⟨h.pastHeader, h.window, h.firstFlag⟩
    counter := fun _ => ⟨h.counterFits, h.counter⟩
    finished := fun hstate => absurd hstate hdone }

/-- From the first FLAGFILL on, FW holds its sentinel. -/
theorem LoopInv.fw_ne_zero (h : LoopInv s) (hstate : s.state ≠ .awaitingFlag) : s.fw ≠ 0 := fun hzero =>
  hstate (h.firstFlag (h.window.mp hzero))

theorem LoopInv.cur_ne_four (h : LoopInv s) (hstate : s.state ≠ .awaitingFlag) : s.cur ≠ 4 := fun hfour =>
  hstate (h.firstFlag hfour)

end Parts

/-! ## States with the run cleared: reset, ABORT, START, fault entry -/

section Cleared

variable {s : State}

/-- The free value SRC takes has its register's width (R4, R180). -/
theorem StorageInv.discardWork (h : StorageInv s) : StorageInv (discardWork s) :=
  { h with
    srcFits := fun m hm => by
      rw [discardWork_params] at hm
      rw [discardWork_src, hm]
      exact withinAddrWidth_lt m _ }

theorem SpaceInv.of_cleared (h : StorageInv s) (hmem : s.outMem = []) (hout : s.outLen = 0) (hcur : s.cur = 0)
    (hresults : NoOverflow s) : SpaceInv s := by
  obtain ⟨-, hbase, hlen⟩ := hresults
  exact { h with
    outMemCanonical := by rw [hmem]; exact List.Pairwise.nil
    cursorFits := by simp [hcur, hbase, hlen]
    outLenFits := by simp [hout]
    outFilled := by simp [OutputFilled, hmem, hout] }

/-- The states START, ABORT and reset lead to (R141, R149, R200). -/
theorem StorageInv.inv_clearRun {state : EngineState} (h : StorageInv s)
    (hstate : state = .idle ∨ state = .header ∨ state = .tiny ∧ s.inLen ≤ tinyInputLimit) :
    Inv { clearRun s with state := state } := by
  have hspaces : SpaceInv { clearRun s with state := state } := .of_cleared { h with } rfl rfl rfl ⟨rfl, rfl, rfl⟩
  refine OutsideInv.inv { hspaces with
    outside := ?_
    cursor := fun _ => Nat.zero_le _
    noErr := fun _ => rfl
    errKind := ?_
    results := fun _ => ⟨rfl, rfl, rfl⟩
    cleared := fun _ => ⟨rfl, rfl⟩
    atStart := fun _ => ⟨rfl, rfl⟩
    cleanWindow := fun _ => ⟨rfl, rfl, rfl⟩
    tiny := ?_
    finished := ?_ }
  all_goals rcases hstate with rfl | rfl | ⟨rfl, hlen⟩ <;> simp_all [AfterHeader]

/-- Fault entry (R180): ERR is the kind's code, and the kind is none of the host parser's (R172). -/
theorem StorageInv.inv_faultEntry {e : ErrKind} (h : StorageInv s) (he : e ≠ .truncatedHeader) : Inv (faultEntry e s) :=
  have hspaces : SpaceInv (faultEntry e s) := .of_cleared { h.discardWork with } rfl rfl rfl ⟨rfl, rfl, rfl⟩
  OutsideInv.inv { hspaces with
    outside := by simp [AfterHeader]
    cursor := fun _ => Nat.zero_le _
    noErr := fun hstate => absurd rfl hstate
    errKind := fun _ => ⟨e, he, rfl⟩
    results := fun _ => ⟨rfl, rfl, rfl⟩
    cleared := fun _ => ⟨rfl, rfl⟩
    atStart := fun _ => ⟨rfl, rfl⟩
    cleanWindow := by simp
    tiny := by simp
    finished := by simp }

theorem truncatedHeader_not_mem_raisedBy (op : Opcode) : ErrKind.truncatedHeader ∉ raisedBy op := by
  cases op <;> simp [raisedBy]

end Cleared

/-- Settles O48: the state after reset is a cleared one with nothing loaded. -/
theorem resetMeetsTheInvariant : Obligations.ResetMeetsTheInvariant := by
  have hstorage : StorageInv State.reset :=
    { inMemCanonical := reset_memories_wf.1
      inMemInSpace := nofun
      inLenFits := nofun
      srcFits := nofun }
  exact hstorage.inv_clearRun (.inl rfl)

/-! ## Consuming and appending a byte -/

section Bytes

variable {s : State} {n : Nat} {v : Byte}

@[simp] theorem State.consume_state (n : Nat) (s : State) : (s.consume n).state = s.state := rfl
@[simp] theorem State.push_state (v : Byte) (s : State) : (s.push v).state = s.state := rfl

theorem SpaceInv.consume (h : SpaceInv s) (hleft : s.cur + n ≤ s.inLen) : SpaceInv (s.consume n) :=
  { h with
    cursorFits := fun m hm => ⟨hleft.trans (h.inLenFits m hm), (h.cursorFits m hm).2⟩ }

/-- An append fills exactly the address OUT_LEN names (R31, R46). -/
theorem SpaceInv.push (h : SpaceInv s) (hroom : s.params.outMax ≠ some s.outLen) : SpaceInv (s.push v) :=
  { h with
    outMemCanonical := Memory.write_wf h.outMemCanonical _ v
    outLenFits := fun m hm => by
      have hle := h.outLenFits m hm
      have hne : s.outLen ≠ m := fun heq => hroom (heq ▸ hm)
      change s.outLen + 1 ≤ m
      omega
    outFilled := fun a => by
      have hfilled := h.outFilled a
      change (Memory.read (s.outMem.write s.outLen v) a).isSome = true ↔ a < s.outLen + 1
      rw [Memory.read_write]
      split
      next heq => simp [heq]
      next hne => rw [hfilled]; omega }

theorem LoopInv.consume (h : LoopInv s) (hstate : s.state ≠ .awaitingFlag) (hleft : s.cur + n ≤ s.inLen) :
    LoopInv (s.consume n) :=
  have hpast := h.pastHeader
  have hnext : (s.consume n).cur ≠ 4 := fun hfour => h.cur_ne_four hstate (by change s.cur + n = 4 at hfour; omega)
  { h.toSpaceInv.consume hleft, h with
    cursor := hleft
    method := { h.method with }
    pastHeader := hpast.trans (Nat.le_add_right _ _)
    window := iff_of_false (h.fw_ne_zero hstate) hnext
    firstFlag := fun hfour => absurd hfour hnext }

theorem LoopInv.push (h : LoopInv s) (hstate : s.state ≠ .copy) (hroom : s.params.outMax ≠ some s.outLen) :
    LoopInv (s.push v) :=
  { h.toSpaceInv.push hroom, h with
    method := { h.method with }
    copying := fun hcopy => absurd hcopy hstate }

/-- A token done leads to COUNT (R110, R126). -/
theorem LoopInv.toCount (h : LoopInv s) (hflag : s.state ≠ .awaitingFlag) (htail : s.state ≠ .tail) :
    LoopInv { s with state := .count } :=
  { h with
    inLoop := by simp [AfterHeader]
    method := { h.method with }
    firstFlag := fun hfour => absurd hfour (h.cur_ne_four hflag)
    counter := iff_of_false (fun hzero => htail (h.counter.mp hzero)) nofun
    carryLiteral := nofun
    carryBackref := by simp
    copying := nofun }

end Bytes

/-! ## Each move of the engine keeps the invariant -/

section Moves

variable {s t : State}

/-- HEADER builds the method that the loop's clauses ask for, with CUR = 4 and FW still 0 (R80, R101). -/
theorem Inv.header {desc : Byte} {count : BitVec 24} (h : Inv s) (hstate : s.state = .header) (hleft : s.cur + 4 ≤ s.inLen) :
    LoopInv { (loadMethod desc s).consume 4 with fc := stepsOf count, state := .awaitingFlag } := by
  obtain ⟨hcur, -⟩ := h.atStart (.inr hstate)
  obtain ⟨hfw, -, -⟩ := h.cleanWindow (.inr (.inl hstate))
  have hfour : s.cur + 4 = 4 := by omega
  have hcount : (stepsOf count).toNat = count.toNat + 1 := stepsOf_toNat count
  have hspaces : SpaceInv ((loadMethod desc s).consume 4) :=
    SpaceInv.consume (s := loadMethod desc s) { h.spaces with } hleft
  exact { hspaces with
    inLoop := .inl rfl
    noErr := h.noErr (by simp [hstate])
    noOverflow := h.results (by simp [hstate])
    cursor := hleft
    method := { methodLoaded_loadMethod desc s with }
    pastHeader := hfour.ge
    window := iff_of_true hfw hfour
    firstFlag := fun _ => rfl
    counterFits := by
      have := count.isLt
      change (stepsOf count).toNat ≤ 2 ^ 24
      omega
    counter := iff_of_false (fun hzero : stepsOf count = 0 => by simp [hzero] at hcount) nofun
    carryLiteral := nofun
    carryBackref := by simp
    copying := nofun }

/-- FLAGFILL puts the sentinel in FW (R102). -/
theorem LoopInv.flagfill {flags : Byte} (h : LoopInv s) (hstate : s.state = .awaitingFlag) (hleft : s.cur < s.inLen) :
    LoopInv { s.consume 1 with fw := refill flags, state := .awaitingFlag } := by
  have hpast := h.pastHeader
  have hrefill : refill flags ≠ 0 := fun hzero => by
    have := refill_toNat flags
    simp [hzero] at this
    omega
  have hnext : s.cur + 1 ≠ 4 := by omega
  exact { h.toSpaceInv.consume (n := 1) hleft, h with
    inLoop := .inl rfl
    cursor := hleft
    method := { h.method with }
    pastHeader := hpast.trans (Nat.le_succ _)
    window := iff_of_false hrefill hnext
    firstFlag := fun _ => rfl
    counter := iff_of_false (fun hzero => by simpa [hstate] using h.counter.mp hzero) nofun
    carryLiteral := nofun
    carryBackref := by simp
    copying := nofun }

/-- FLAGTAKE leaves the sentinel in FW, and the token follows CARRY (R101). -/
theorem LoopInv.flagtake (h : LoopInv s) (hstate : s.state = .awaitingFlag) (hwindow : windowExhausted s.fw = false) :
    LoopInv { s with
      carry := flagBit s.fw
      fw := windowShift s.fw
      state := if flagBit s.fw then .literal else .backref } := by
  have hshift : windowShift s.fw ≠ 0 := by simpa [windowExhausted] using hwindow
  have hfilled : s.cur ≠ 4 := fun hfour => hshift (by rw [h.window.mpr hfour]; rfl)
  have hcounter : s.fc ≠ 0 := fun hzero => by simpa [hstate] using h.counter.mp hzero
  exact { h with
    inLoop := by cases hflag : flagBit s.fw <;> simp [AfterHeader]
    method := { h.method with }
    window := iff_of_false hshift hfilled
    firstFlag := fun hfour => absurd hfour hfilled
    counter := iff_of_false hcounter (by cases hflag : flagBit s.fw <;> simp)
    carryLiteral := by cases hflag : flagBit s.fw <;> simp
    carryBackref := by cases hflag : flagBit s.fw <;> simp
    copying := by cases hflag : flagBit s.fw <;> simp }

/-- With the method loaded, the entry a back-reference reads is the table's last (R122, R129). -/
theorem MethodLoaded.maskedValue_of_ne_zero {dist : BitVec 16} (h : MethodLoaded s) (hmasked : maskedValue s.lenMask dist ≠ 0) :
    (maskedValue s.lenMask dist).toNat = s.lenMask.toNat := by
  have hvalue := h.maskedValue_toNat dist
  split at hvalue
  next => exact hvalue
  next => exact absurd (BitVec.eq_of_toNat_eq hvalue) hmasked

/-- BACKREF sets up the copy inside the output so far (R120, R127). -/
theorem LoopInv.backref {dist : BitVec 16} {length : BitVec 10} (h : LoopInv s) (hstate : s.state = .backref)
    (hleft : s.cur + 2 ≤ s.inLen) (hmasked : maskedValue s.lenMask dist ≠ 0)
    (hlength : tableRead s.lt ((maskedValue s.lenMask dist).toNat - 1) = some length)
    (hdisp : displacementOf s.lenBits dist ≠ 0) (hrange : (displacementOf s.lenBits dist).toNat ≤ s.outLen) :
    LoopInv { s.consume 2 with
      dist := dist
      length := length
      disp := displacementOf s.lenBits dist
      src := s.outLen - (displacementOf s.lenBits dist).toNat
      rem := length
      state := .copy } := by
  have hflag : s.state ≠ .awaitingFlag := by simp [hstate]
  have hnext := h.consume hflag hleft
  rw [h.method.maskedValue_of_ne_zero hmasked] at hlength
  exact { hnext with
    srcFits := fun m hm => lt_two_pow_addrWidth ((Nat.sub_le _ _).trans (h.outLenFits m hm))
    inLoop := by simp [AfterHeader]
    method := { h.method with }
    firstFlag := fun hfour => absurd hfour (hnext.cur_ne_four hflag)
    counter := iff_of_false (fun hzero => by simpa [hstate] using h.counter.mp hzero) nofun
    carryLiteral := nofun
    carryBackref := fun _ => h.carryBackref (.inl hstate)
    copying := fun _ => ⟨Nat.pos_of_ne_zero fun hzero => hdisp (BitVec.eq_of_toNat_eq hzero), Nat.sub_add_cancel hrange, rfl,
      hlength, BitVec.le_refl _⟩ }

/-- A byte copied keeps SRC at the distance DISP behind OUT_LEN (R126, R127). -/
theorem LoopInv.copyByte {b : Byte} (h : LoopInv s) (hstate : s.state = .copy) (hrem : s.rem ≠ 0)
    (hroom : s.params.outMax ≠ some s.outLen) : LoopInv { s.push b with src := s.src + 1, rem := s.rem - 1 } := by
  obtain ⟨hdisp, hsrc, hfield, hlength, hle⟩ := h.copying hstate
  exact { h.toSpaceInv.push hroom, h with
    srcFits := fun m hm => by
      have hout := h.outLenFits m hm
      exact lt_two_pow_addrWidth (by change s.src + 1 ≤ m; omega)
    method := { h.method with }
    copying := fun _ => ⟨hdisp, by change s.src + 1 + s.disp.toNat = s.outLen + 1; omega, hfield, hlength, by
      change s.rem - 1 ≤ s.length
      bv_omega⟩ }

/-- COUNT leaves TAIL exactly where no decode step is left (R145). -/
theorem LoopInv.count (h : LoopInv s) (hstate : s.state = .count) :
    LoopInv { s with fc := s.fc - 1, state := if s.fc - 1 = 0 then .tail else .awaitingFlag } := by
  have hflag : s.state ≠ .awaitingFlag := by simp [hstate]
  have hcounter : s.fc ≠ 0 := fun hzero => by simpa [hstate] using h.counter.mp hzero
  have hfits := h.counterFits
  exact { h with
    inLoop := by split <;> simp [AfterHeader]
    method := { h.method with }
    firstFlag := fun hfour => absurd hfour (h.cur_ne_four hflag)
    counterFits := by
      change (s.fc - 1).toNat ≤ 2 ^ 24
      bv_omega
    counter := by split <;> simp_all
    carryLiteral := by split <;> nofun
    carryBackref := by split <;> simp
    copying := by split <;> nofun }

/-- A tiny input's bytes go to OUT one for one (R151). -/
theorem Inv.tinycopy {v : Byte} (h : Inv s) (hstate : s.state = .tiny) (hleft : s.cur < s.inLen)
    (hroom : s.params.outMax ≠ some s.outLen) : Inv ((s.consume 1).push v) := by
  obtain ⟨hout, hlen⟩ := h.tiny hstate
  have hspaces : SpaceInv ((s.consume 1).push v) := (h.spaces.consume (n := 1) hleft).push hroom
  exact { hspaces, h with
    cursor := fun _ => hleft
    cleared := by simp [hstate]
    atStart := by simp [hstate]
    tiny := fun _ => ⟨by change s.outLen + 1 = s.cur + 1; omega, hlen⟩
    method := by simp [AfterHeader, hstate]
    window := by simp [AfterHeader, hstate]
    finished := by simp [hstate]
    copying := by simp [hstate] }

/-- The end of a run (R147, R152). -/
theorem Inv.toDone {valid : Bool} {base len : Nat} (h : Inv s) (hrun : s.busy = true)
    (hbase : base ≤ s.inLen) (hlen : len ≤ s.inLen) (hfc : s.fc = 0)
    (hfinished : RunFinished { s with ovfValid := valid, ovfBase := base, ovfLen := len, state := .done }) :
    Inv { s with ovfValid := valid, ovfBase := base, ovfLen := len, state := .done } :=
  OutsideInv.inv { h with
    cursorFits := fun m hm =>
      have hfits := h.inLenFits m hm
      ⟨(h.cursorFits m hm).1, hbase.trans hfits, hlen.trans hfits⟩
    outside := by simp [AfterHeader]
    cursor := nofun
    noErr := fun _ => h.noErr (busy_iff.mp hrun).2.2
    errKind := nofun
    results := fun hdone => absurd rfl hdone
    cleared := by simp
    atStart := by simp
    cleanWindow := by simp
    tiny := nofun
    finished := fun _ => ⟨hfc, hfinished⟩ }

/-- FINISH: the flag loop's method and sentinel reach DONE (R36, R147). -/
theorem Inv.finish {valid : Bool} {base len : Nat} (h : Inv s) (hstate : s.state = .tail)
    (hbase : base ≤ s.inLen) (hlen : len ≤ s.inLen) :
    Inv { s with ovfValid := valid, ovfBase := base, ovfLen := len, state := .done } := by
  have hloop := h.loop_of_state hstate
  refine h.toDone (busy_iff.mpr (by simp [hstate])) hbase hlen (hloop.counter.mpr hstate) (.inl ⟨?_, { hloop.method with }⟩)
  exact hloop.fw_ne_zero (by simp [hstate])

theorem Inv.tinydone (h : Inv s) (hstate : s.state = .tiny) :
    Inv { s with ovfValid := false, ovfBase := 0, ovfLen := 0, state := .done } := by
  have hrun : s.busy = true := busy_iff.mpr (by simp [hstate])
  obtain ⟨hfw, hfc, hcarry⟩ := h.cleanWindow (.inr (.inr hstate))
  obtain ⟨hout, hlen⟩ := h.tiny hstate
  exact h.toDone hrun (Nat.zero_le _) (Nat.zero_le _) hfc
    (.inr ⟨hfw, hcarry, hout, (h.cursor hrun).trans hlen, rfl, rfl, rfl⟩)

theorem EngineMove.inv (hmove : EngineMove s t) (h : Inv s) : Inv t := by
  cases hmove with
  | quiet => exact h
  | fault _ hraised => exact h.storage.inv_faultEntry fun he => truncatedHeader_not_mem_raisedBy _ (he ▸ hraised)
  | header hstate desc count hleft => exact (h.header hstate hleft).inv
  | flagfill hstate _ flags hleft => exact ((h.loop_of_state hstate).flagfill hstate hleft).inv
  | flagtake hstate hwindow => exact ((h.loop_of_state hstate).flagtake hstate hwindow).inv
  | literal hstate v hleft hroom =>
    have hread := (h.loop_of_state hstate).consume (n := 1) (by simp [hstate]) hleft
    have hpushed : LoopInv ((s.consume 1).push v) := hread.push (by simp [hstate]) hroom
    exact (hpushed.toCount (by simp [hstate]) (by simp [hstate])).inv
  | backref hstate dist length hleft hmasked hlength hdisp hrange =>
    exact ((h.loop_of_state hstate).backref hstate hleft hmasked hlength hdisp hrange).inv
  | copyByte hstate hrem b _ hroom => exact ((h.loop_of_state hstate).copyByte hstate hrem hroom).inv
  | copyEnd hstate => exact ((h.loop_of_state hstate).toCount (by simp [hstate]) (by simp [hstate])).inv
  | count hstate => exact ((h.loop_of_state hstate).count hstate).inv
  | rawCopy hraw v hleft hroom =>
    rcases hraw with hstate | ⟨hstate, -⟩
    · exact h.tinycopy hstate hleft hroom
    · have hread := (h.loop_of_state hstate).consume (n := 1) (by simp [hstate]) hleft
      exact (hread.push (by simp [hstate]) hroom).inv
  | finishJoin hstate => exact h.finish hstate (Nat.zero_le _) (Nat.zero_le _)
  | finishSplit hstate =>
    exact h.finish hstate (h.loop_of_state hstate).cursor (Nat.sub_le _ _)
  | tinydone hstate => exact h.tinydone hstate

end Moves

end Sys2Proof.Machine

/-! # The host's moves (10_state.md R22 to R31) -/

namespace Sys2Proof.Machine

section HostMoves

variable {s t : State} {m : HostMove} {later : List HostMove} {value : Nat}

theorem step_of_host (hhost : s.host = m :: later) : step s = hostStep m { s with host := later } := by
  rw [step, stepOnce_host hhost]

theorem status_eq_one_iff : s.status = 1 ↔ s.busy = true := by
  simp [State.busy, State.status]

theorem busy_eq_false_of_status_ne (h : s.status ≠ 1) : s.busy = false :=
  Bool.eq_false_iff.mpr fun hbusy => h (status_eq_one_iff.mpr hbusy)

theorem fitsIn_iff {n : Nat} : s.fitsIn n = true ↔ ∀ m, s.params.inMax = some m → n ≤ m := by
  unfold State.fitsIn
  cases s.params.inMax <;> simp

/-! ## What each write does -/

theorem hostWriteCfg_of_busy (hbusy : s.busy = true) : hostWriteCfg value s = s := if_pos hbusy

theorem hostWriteCfg_of_not_busy (hbusy : s.busy = false) :
    hostWriteCfg value s = { s with inclTail := value.testBit 0, tinyEn := value.testBit 1 } := by
  simp [hostWriteCfg, hbusy]

theorem hostWriteInLen_of_busy (hbusy : s.busy = true) : hostWriteInLen value s = .next s := if_pos hbusy

theorem hostWriteInLen_of_fits (hbusy : s.busy = false)
    (hfits : s.fitsIn (withinAddrWidth s.params.inMax value) = true) :
    hostWriteInLen value s = .next { s with inLen := withinAddrWidth s.params.inMax value } := by
  simp [hostWriteInLen, hbusy, hfits]

/-- A write of IN_LEN that answers a next state was ignored or has set a length that fits. -/
theorem hostWriteInLen_next (h : hostWriteInLen value s = .next t) :
    (s.busy = true ∧ t = s) ∨ (s.busy = false ∧ ∃ n, s.fitsIn n = true ∧ t = { s with inLen := n }) := by
  cases hbusy : s.busy with
  | true => exact .inl ⟨rfl, by simpa [hostWriteInLen_of_busy hbusy, eq_comm] using h⟩
  | false =>
    cases hfits : s.fitsIn (withinAddrWidth s.params.inMax value) with
    | true =>
      rw [hostWriteInLen_of_fits hbusy hfits, Host.Outcome.next.injEq] at h
      exact .inr ⟨rfl, _, hfits, h.symm⟩
    | false => simp [hostWriteInLen, hbusy, hfits] at h

/-- A load that answers a next state came while no run was on, and ends within IN. -/
theorem hostLoadIn_next {addr : Nat} {bytes : List Byte} (h : hostLoadIn addr bytes s = .next t) :
    s.busy = false ∧ s.fitsIn (addr + bytes.length) = true ∧ t = { s with inMem := s.inMem.load addr bytes } := by
  cases hbusy : s.busy with
  | true => simp [hostLoadIn, hbusy] at h
  | false =>
    cases hfits : s.fitsIn (addr + bytes.length) with
    | true => exact ⟨rfl, rfl, by simpa [hostLoadIn, hbusy, hfits, eq_comm] using h⟩
    | false => simp [hostLoadIn, hbusy, hfits] at h

/-- A write of CMD issues START, or ABORT, or nothing (R25). -/
theorem hostWriteCmd_cases (value : Nat) (s : State) :
    hostWriteCmd value s = execAbort s ∨ hostWriteCmd value s = execStart s ∨ hostWriteCmd value s = .next s := by
  unfold hostWriteCmd decodeCmd
  cases value.testBit 1 with
  | true => exact .inl rfl
  | false =>
    cases value.testBit 0 with
    | true => exact .inr (.inl rfl)
    | false => exact .inr (.inr rfl)

/-! ## Each move of the host keeps the invariant -/

/-- `Inv` is about a run's registers, CFG apart, and asks of the input only what `StorageInv` says and, in a run, its length. -/
theorem Inv.hostWrite {inclTail tinyEn : Bool} {inLen : Nat} {inMem : Memory} (h : Inv s)
    (hstorage : StorageInv { s with inLen := inLen, inMem := inMem }) (hlen : s.busy = true → inLen = s.inLen) :
    Inv { s with inclTail := inclTail, tinyEn := tinyEn, inLen := inLen, inMem := inMem, host := later } :=
  { hstorage, h with
    cursor := fun hbusy => (h.cursor hbusy).trans (hlen hbusy).ge
    tiny := fun hstate => by
      obtain ⟨hout, hle⟩ := h.tiny hstate
      exact ⟨hout, (hlen (busy_iff.mpr (by simp_all))).trans_le hle⟩
    method := fun hloop => { h.method hloop with }
    finished := fun hstate => by
      obtain ⟨hfc, ⟨hfw, hmethod⟩ | htiny⟩ := h.finished hstate
      · exact ⟨hfc, .inl ⟨hfw, { hmethod with }⟩⟩
      · exact ⟨hfc, .inr htiny⟩ }

theorem Inv.takeMove (h : Inv s) : Inv { s with host := later } :=
  h.hostWrite h.storage fun _ => rfl

theorem Inv.hostWriteCfg (h : Inv s) : Inv (hostWriteCfg value s) := by
  cases hbusy : s.busy with
  | true => rwa [hostWriteCfg_of_busy hbusy]
  | false =>
    rw [hostWriteCfg_of_not_busy hbusy]
    exact h.hostWrite h.storage fun _ => rfl

theorem Inv.hostWriteInLen (h : Inv s) (hnext : hostWriteInLen value s = .next t) : Inv t := by
  rcases hostWriteInLen_next hnext with ⟨-, rfl⟩ | ⟨hidle, n, hfits, rfl⟩
  · exact h
  · exact h.hostWrite { h.storage with inLenFits := fitsIn_iff.mp hfits } (by simp [hidle])

theorem Inv.hostLoadIn {addr : Nat} {bytes : List Byte} (h : Inv s) (hnext : hostLoadIn addr bytes s = .next t) : Inv t := by
  obtain ⟨-, hfits, rfl⟩ := hostLoadIn_next hnext
  have hstorage : StorageInv { s with inMem := s.inMem.load addr bytes } :=
    { h.storage with
      inMemCanonical := Memory.load_wf h.inMemCanonical addr bytes
      inMemInSpace := fun m hm c hc => by
        have hend := fitsIn_iff.mp hfits m hm
        rcases Memory.mem_load hc with hold | ⟨-, hnew⟩
        · exact h.inMemInSpace m hm c hold
        · omega }
  exact h.hostWrite hstorage fun _ => rfl

theorem Inv.execStart (h : Inv s) (hnext : execStart s = .next t) : Inv t := by
  unfold Machine.execStart at hnext
  split at hnext
  · cases hnext
    exact h
  · cases hnext
    refine h.storage.inv_clearRun ?_
    split
    next htiny => exact .inr (.inr ⟨rfl, htiny.2⟩)
    next => exact .inr (.inl rfl)

theorem Inv.execAbort (h : Inv s) (hnext : execAbort s = .next t) : Inv t := by
  cases hnext
  exact h.storage.discardWork.inv_clearRun (.inl rfl)

theorem Inv.hostWriteCmd (h : Inv s) (hnext : hostWriteCmd value s = .next t) : Inv t := by
  rcases hostWriteCmd_cases value s with heq | heq | heq <;> rw [heq] at hnext
  · exact h.execAbort hnext
  · exact h.execStart hnext
  · cases hnext
    exact h

/-- Reset empties IN and clears the run (R200). -/
theorem Inv.hostReset (h : Inv s) : Inv (hostReset s) := by
  have hstorage : StorageInv { discardWork s with inclTail := false, tinyEn := true, inLen := 0, inMem := [] } :=
    { h.storage.discardWork with
      inMemCanonical := List.Pairwise.nil
      inMemInSpace := by simp
      inLenFits := by simp }
  exact hstorage.inv_clearRun (.inl rfl)

theorem Inv.hostStep (h : Inv s) (hnext : hostStep m s = .next t) : Inv t := by
  cases m with
  | pass => exact (EngineMove.of_engineStep hnext).inv h
  | writeCfg value =>
    cases hnext
    exact h.hostWriteCfg
  | writeInLen value => exact h.hostWriteInLen hnext
  | loadIn addr bytes => exact h.hostLoadIn hnext
  | writeCmd value => exact h.hostWriteCmd hnext
  | reset =>
    cases hnext
    exact h.hostReset

end HostMoves

/-- Settles O49: a step is the engine's or the host's, and each move of either keeps the invariant. -/
theorem stepKeepsTheInvariant : Obligations.StepKeepsTheInvariant := by
  intro s t h hstep
  cases hhost : s.host with
  | nil => exact (EngineMove.of_step hhost hstep).inv h
  | cons m later =>
    rw [step_of_host hhost] at hstep
    exact h.takeMove.hostStep hstep

/-! ## What the host writes and reads -/

/-- Settles O37: the queue's head is a write, which is ignored while BUSY and sets its register otherwise. -/
theorem hostWritesConfigureUnlessBusy : Obligations.HostWritesConfigureUnlessBusy := by
  intro s value later
  refine ⟨fun hstatus hhost => ?_, fun hstatus hhost => ?_, fun hstatus hhost => ?_⟩
  · have hbusy : State.busy { s with host := later } = true := status_eq_one_iff.mp hstatus
    rcases hhost with hhost | hhost
    · rw [step_of_host hhost, hostStep, hostWriteCfg_of_busy hbusy]
    · rw [step_of_host hhost, hostStep, hostWriteInLen_of_busy hbusy]
  · have hbusy : State.busy { s with host := later } = false := busy_eq_false_of_status_ne hstatus
    rw [step_of_host hhost, hostStep, hostWriteCfg_of_not_busy hbusy]
  · have hbusy : State.busy { s with host := later } = false := busy_eq_false_of_status_ne hstatus
    have hset {n : Nat} (hwithin : withinAddrWidth s.params.inMax value = n) (hfits : ∀ m, s.params.inMax = some m → n ≤ m) :
        step s = .next { s with host := later, inLen := n } := by
      subst hwithin
      rw [step_of_host hhost, hostStep, hostWriteInLen_of_fits hbusy (fitsIn_iff.mpr hfits)]
    refine ⟨fun hmax => hset (by rw [hmax, withinAddrWidth_none]) (by simp [hmax]), fun m hmax => ⟨fun hle => ?_, fun hle => ?_⟩⟩
    · exact hset (by rw [hmax, withinAddrWidth_of_le hle]) (by simpa [hmax] using hle)
    · exact hset (by rw [hmax, withinAddrWidth]) (by simpa [hmax] using hle)

/-- CFG reads as its two bits with zeros above (R22 to R24). -/
theorem hostRead_cfg_testBit (s : State) (k : Nat) :
    (s.hostRead .cfg).testBit k = if k = 0 then s.inclTail else if k = 1 then s.tinyEn else false := by
  rw [State.hostRead]
  match k with
  | 0 => cases s.inclTail <;> cases s.tinyEn <;> rfl
  | 1 => cases s.inclTail <;> cases s.tinyEn <;> rfl
  | k + 2 =>
    have hlt : s.inclTail.toNat + 2 * s.tinyEn.toNat < 2 ^ 2 := by
      have := s.inclTail.toNat_le
      have := s.tinyEn.toNat_le
      omega
    exact Nat.testBit_lt_two_pow (hlt.trans_le (Nat.pow_le_pow_right Nat.two_pos (Nat.le_add_left 2 k)))

/-- The table of R27 over the eleven values of STATE. -/
theorem statusOf_eq_iff (st : EngineState) :
    (statusOf st = 0 ↔ st = .idle) ∧ (statusOf st = 2 ↔ st = .done) ∧ (statusOf st = 3 ↔ st = .fault) ∧
      (statusOf st = 1 ↔ st = .tiny ∨ st = .header ∨ st = .awaitingFlag ∨ st = .literal ∨ st = .backref ∨ st = .copy ∨
        st = .count ∨ st = .tail) := by
  cases st <;> decide

/-- Settles O40: STATUS by the eleven values of STATE, then each read by its definition. -/
theorem statusSummarisesState : Obligations.StatusSummarisesState := by
  intro s
  obtain ⟨hidle, hdone, hfault, hbusy⟩ := statusOf_eq_iff s.state
  refine ⟨hidle, hdone, hfault, hbusy, rfl, hostRead_cfg_testBit s, rfl, rfl, rfl, fun hstate => ?_⟩
  refine ⟨rfl, rfl, ?_, rfl, rfl, fun a ha => ?_, fun hvalid => ?_, fun hvalid => ?_⟩
  · cases hvalid : s.ovfValid <;> simp [State.hostRead, hvalid]
  · rw [State.hostReadOut, if_pos hstate, State.outByte, if_pos ha]
  · simp [State.overflowBytes, hvalid]
  · refine ⟨(List.range s.ovfLen).map fun k => s.inMem.read (s.ovfBase + k), ?_, by simp, fun k hk => by simp [hk]⟩
    simp [State.overflowBytes, hstate, hvalid]

end Sys2Proof.Machine

/-! # The engine and its input (20_memory.md R45, R52, 60_exceptions.md R171, R180) -/

namespace Sys2Proof.Machine

/-- No operation of the engine, and no fault entry, writes what the host provides (R22, R52). -/
theorem EngineMove.input {s t : State} (h : EngineMove s t) :
    t.inMem = s.inMem ∧ t.inLen = s.inLen ∧ t.inclTail = s.inclTail ∧ t.tinyEn = s.tinyEn ∧ t.params = s.params ∧ t.host = s.host := by
  cases h with
  | fault =>
    exact ⟨faultEntry_inMem .., faultEntry_inLen .., faultEntry_inclTail .., faultEntry_tinyEn .., faultEntry_params ..,
      faultEntry_host ..⟩
  | quiet | header | flagfill | flagtake | literal | backref | copyByte | copyEnd | count | rawCopy | finishJoin | finishSplit
  | tinydone => exact ⟨rfl, rfl, rfl, rfl, rfl, rfl⟩

/-- Settles O45: a step without a host move is a move of the engine, and none of them writes its input. -/
theorem engineNeverWritesItsInput : Obligations.EngineNeverWritesItsInput := by
  intro s t hhost hstep
  obtain ⟨hmem, hlen, hincl, htiny, hparams, hkept⟩ := (EngineMove.of_step hhost hstep).input
  exact ⟨hmem, hlen, hincl, htiny, hparams, hkept.trans hhost⟩

/-- Fault entry leaves no result and nothing readable in OUT, and keeps what the host provides (R180). -/
theorem faultEntered_faultEntry (e : ErrKind) (s : State) : FaultEntered e s (faultEntry e s) :=
  ⟨rfl, rfl, rfl, rfl, ⟨rfl, rfl, rfl⟩, fun a => if_neg a.not_lt_zero, rfl, rfl, rfl, rfl, rfl, rfl⟩

theorem advance_of_short {n : Nat} {s : State} (hshort : s.inLen - s.cur < n) : advance n s = .error .truncatedStream :=
  advance_error.mpr ⟨hshort, rfl⟩

/-- HEADER fetches twice (R87): the descriptor may be there with the count cut short. -/
theorem execHeader_of_short {s : State} {desc : Byte} {count : BitVec 24} (hshort : s.inLen - s.cur < 4) :
    execHeader desc count s = .next (faultEntry .truncatedStream s) := by
  rw [execHeader]
  cases hdesc : advance 1 s with
  | error e =>
    obtain ⟨-, rfl⟩ := advance_error.mp hdesc
    exact completes_error s _
  | ok t =>
    obtain ⟨-, rfl⟩ := advance_ok.mp hdesc
    have hrest : (loadMethod desc { s with cur := s.cur + 1 }).inLen - (loadMethod desc { s with cur := s.cur + 1 }).cur < 3 := by
      simp only [loadMethod_inLen, loadMethod_cur]
      omega
    simp only [advance_of_short hrest, completes_error]

/-- The fetching operations of the flag loop, and HEADER, test their operand's bounds before anything else (R45, R171, R178). -/
theorem exec_of_short_operand {s : State} {i : Instr}
    (hfetches : i.opcode = .header ∨ i.opcode = .flagfill ∨ i.opcode = .literal ∨ i.opcode = .backref)
    (hshort : s.inLen - s.cur < i.opcode.size) : exec i s = .next (faultEntry .truncatedStream s) := by
  cases i with
  | header desc count => exact execHeader_of_short hshort
  | flagfill flags => simp only [exec, execFlagfill, advance_of_short (n := 1) hshort, completes_error]
  | literal v => simp only [exec, execLiteral, advance_of_short (n := 1) hshort, completes_error]
  | backref dist => simp only [exec, execBackref, advance_of_short (n := 2) hshort, completes_error]
  | start | abort | flagtake | copy | count | tailcopy | finish | tinycopy | tinydone => simp [Instr.opcode] at hfetches

/-- Settles O32: the meanings by the bounds test of their fetch, the step by the fetch that finds the operand cut short. -/
theorem truncatedOperandFaults : Obligations.TruncatedOperandFaults :=
  ⟨fun s _ hfetches hshort => ⟨_, exec_of_short_operand hfetches hshort, faultEntered_faultEntry .truncatedStream s⟩,
    fun s _ hhost henabled hshort => ⟨_, step_of_short_operand hhost henabled hshort, faultEntered_faultEntry .truncatedStream s⟩⟩

end Sys2Proof.Machine

/-! # Decode and encode agree (30_encoding.md R60, R61, R63 to R65, R67, R68, R70)

Bytes are either too few for the operation's format (`decode_of_short`) or the encoding of some operand with the bytes after it
(`exists_encode_append`), and the decoder inverts the encoder (`decode_encode_append`). The statements of the family follow from
these three without opening the decoder again. -/

namespace Sys2Proof.Machine

/-! ## Operand assembly (R68) -/

theorem bigEndian16_extractLsb' (dist : BitVec 16) : bigEndian16 (dist.extractLsb' 8 8) (dist.extractLsb' 0 8) = dist := by
  rw [bigEndian16, BitVec.extractLsb'_append_extractLsb'_eq_extractLsb' (by rfl), BitVec.extractLsb'_eq_self]

theorem bigEndian24_extractLsb' (count : BitVec 24) :
    bigEndian24 (count.extractLsb' 16 8) (count.extractLsb' 8 8) (count.extractLsb' 0 8) = count := by
  rw [bigEndian24, BitVec.extractLsb'_append_extractLsb'_eq_extractLsb' (by rfl),
    BitVec.extractLsb'_append_extractLsb'_eq_extractLsb' (by rfl), BitVec.extractLsb'_eq_self]

@[simp] theorem encode_backref_bigEndian16 (hi lo : Byte) : encode (.backref (bigEndian16 hi lo)) = [hi, lo] := by
  have hhi : (hi ++ lo).extractLsb' 8 8 = hi := BitVec.extractLsb'_append_eq_left
  have hlo : (hi ++ lo).extractLsb' 0 8 = lo := BitVec.extractLsb'_append_eq_right
  simp only [encode, bigEndian16, hhi, hlo]

@[simp] theorem encode_header_bigEndian24 (desc hi mid lo : Byte) :
    encode (.header desc (bigEndian24 hi mid lo)) = [desc, hi, mid, lo] := by
  have hhi : (hi ++ mid ++ lo).extractLsb' 16 8 = hi :=
    (BitVec.extractLsb'_append_eq_of_le (by decide)).trans BitVec.extractLsb'_append_eq_left
  have hmid : (hi ++ mid ++ lo).extractLsb' 8 8 = mid :=
    (BitVec.extractLsb'_append_eq_of_le (by decide)).trans BitVec.extractLsb'_append_eq_right
  have hlo : (hi ++ mid ++ lo).extractLsb' 0 8 = lo := BitVec.extractLsb'_append_eq_right
  simp only [encode, bigEndian24, hhi, hmid, hlo]

/-! ## The decoder against the encoder -/

/-- The decoder reads back what the encoder wrote and no byte more. -/
theorem decode_encode_append (i : Instr) (rest : List Byte) : decode i.opcode (encode i ++ rest) = .ok (i, rest) := by
  cases i with
  | header desc count => simp [Instr.opcode, encode, decode, bigEndian24_extractLsb']
  | backref dist => simp [Instr.opcode, encode, decode, bigEndian16_extractLsb']
  | start | abort | flagfill _ | flagtake | literal _ | copy | count | tailcopy _ | finish | tinycopy _ | tinydone => rfl

/-- Every operand value is an encoding: bytes that are long enough begin with one of the format (R64, R67, R69). -/
theorem exists_encode_append {op : Opcode} {bytes : List Byte} (hsize : op.size ≤ bytes.length) :
    ∃ i rest, i.opcode = op ∧ bytes = encode i ++ rest := by
  match op, bytes with
  | .start, bytes => exact ⟨.start, bytes, rfl, rfl⟩
  | .abort, bytes => exact ⟨.abort, bytes, rfl, rfl⟩
  | .header, desc :: hi :: mid :: lo :: rest => exact ⟨.header desc (bigEndian24 hi mid lo), rest, rfl, by simp⟩
  | .flagfill, flags :: rest => exact ⟨.flagfill flags, rest, rfl, rfl⟩
  | .flagtake, bytes => exact ⟨.flagtake, bytes, rfl, rfl⟩
  | .literal, value :: rest => exact ⟨.literal value, rest, rfl, rfl⟩
  | .backref, hi :: lo :: rest => exact ⟨.backref (bigEndian16 hi lo), rest, rfl, by simp⟩
  | .copy, bytes => exact ⟨.copy, bytes, rfl, rfl⟩
  | .count, bytes => exact ⟨.count, bytes, rfl, rfl⟩
  | .tailcopy, value :: rest => exact ⟨.tailcopy value, rest, rfl, rfl⟩
  | .finish, bytes => exact ⟨.finish, bytes, rfl, rfl⟩
  | .tinycopy, value :: rest => exact ⟨.tinycopy value, rest, rfl, rfl⟩
  | .tinydone, bytes => exact ⟨.tinydone, bytes, rfl, rfl⟩

theorem decode_of_short {op : Opcode} {bytes : List Byte} (hshort : bytes.length < op.size) :
    decode op bytes = .error (.operandMissing op) := by
  match op, bytes with
  | .header, [] | .header, [_] | .header, [_, _] | .header, [_, _, _] | .flagfill, [] | .literal, [] | .backref, []
  | .backref, [_] | .tailcopy, [] | .tinycopy, [] => rfl

/-- What the decoder accepts is the encoding of what it answers, so an operand has one encoding. -/
theorem eq_encode_append_of_decode {op : Opcode} {bytes rest : List Byte} {i : Instr} (h : decode op bytes = .ok (i, rest)) :
    bytes = encode i ++ rest := by
  have hsize : op.size ≤ bytes.length := by
    rw [(decode_ok_opcode h).2]
    exact Nat.le_add_right ..
  obtain ⟨j, after, rfl, rfl⟩ := exists_encode_append hsize
  obtain ⟨rfl, rfl⟩ : j = i ∧ after = rest := by simpa [decode_encode_append] using h
  rfl

/-! ## The statements -/

/-- Settles O1: the decoder inverts the encoder, and what decodes is long enough to be an encoding. -/
theorem decodeAndEncodeAgree : Obligations.DecodeAndEncodeAgree :=
  ⟨decode_encode_append, fun _ _ _ _ h => ⟨(decode_ok_opcode h).1, eq_encode_append_of_decode h⟩⟩

/-- Settles O2: bytes that are not too few begin with an encoding, and the decoder reads that back. -/
theorem decodeRefusesExactlyShortOperands : Obligations.DecodeRefusesExactlyShortOperands := by
  intro op bytes
  refine ⟨fun hrefused => ?_, decode_of_short⟩
  by_contra hlong
  obtain ⟨i, rest, rfl, rfl⟩ := exists_encode_append (Nat.not_lt.mp hlong)
  simp [decode_encode_append] at hrefused

/-- Settles O3: each word is the encoding of the operation beside it, with the bytes after it. -/
theorem writtenWordsDecode : Obligations.WrittenWordsDecode :=
  ⟨decode_encode_append (.header 0x0D 0x000109) [0xF7], decode_encode_append (.flagfill 0x3F) [0x42],
    decode_encode_append (.literal 0x42) [], decode_encode_append (.backref 0x070C) [0x64]⟩

end Sys2Proof.Machine

/-! # HEADER and the length table (40_header_and_length_table.md R80, R82 to R85)

`tableEntry` and `thresholdOf` as numbers give the properties of the table; `execHeader_of_enough` says once what HEADER writes. -/

namespace Sys2Proof.Machine

/-! ## The threshold and the entries as numbers (R82, R83) -/

theorem thresholdOf_toNat (lenMask : BitVec 8) :
    (thresholdOf lenMask).toNat = if 7 < lenMask.toNat / 2 then 19 else lenMask.toNat / 2 := by
  have hhalf : (lenMask >>> 1).toNat = lenMask.toNat / 2 := by
    rw [BitVec.toNat_ushiftRight, Nat.shiftRight_eq_div_pow, pow_one]
  have hlarge : 7#8 < lenMask >>> 1 ↔ 7 < lenMask.toNat / 2 := by rw [BitVec.lt_def, hhalf]; rfl
  rw [thresholdOf]
  by_cases hbig : 7 < lenMask.toNat / 2
  · rw [if_pos (hlarge.mpr hbig), if_pos hbig]
    rfl
  · rw [if_neg (mt hlarge.mp hbig), if_neg hbig, BitVec.toNat_setWidth, hhalf]
    omega

/-- The linear part of the table. -/
theorem tableEntry_of_le {i shifter threshold : Nat} (h : i ≤ threshold) : tableEntry i shifter threshold = i + 3 :=
  if_pos h

/-- The scaled part of the table. -/
theorem tableEntry_of_lt {i shifter threshold : Nat} (h : threshold < i) :
    tableEntry i shifter threshold = (i - threshold) * 2 ^ shifter + threshold + 3 := by
  rw [tableEntry, if_neg (Nat.not_le.mpr h), Nat.shiftLeft_eq]

theorem tableEntry_eq (i shifter threshold : Nat) :
    tableEntry i shifter threshold =
      if i ≤ threshold then i + 3 else (i - threshold) * 2 ^ shifter + threshold + 3 := by
  split
  case isTrue h => exact tableEntry_of_le h
  case isFalse h => exact tableEntry_of_lt (Nat.lt_of_not_le h)

/-- R84: an entry rises by 1 up to the threshold and by `2 ^ shifter` from there on. -/
theorem tableEntry_strictMono (shifter threshold : Nat) : StrictMono fun i => tableEntry i shifter threshold := by
  refine strictMono_nat_of_lt_succ fun i => ?_
  have hscale : 0 < 2 ^ shifter := Nat.two_pow_pos shifter
  rcases lt_trichotomy i threshold with hbelow | rfl | habove
  · rw [tableEntry_of_le hbelow.le, tableEntry_of_le hbelow]
    omega
  · rw [tableEntry_of_le le_rfl, tableEntry_of_lt (Nat.lt_add_one i), Nat.add_sub_cancel_left, one_mul]
    omega
  · rw [tableEntry_of_lt habove, tableEntry_of_lt (habove.trans (Nat.lt_add_one i)), Nat.sub_add_comm habove.le, Nat.succ_mul]
    omega

/-- Settles O12: `LEN_BITS` has eight values, and the two functions are evaluated at each. -/
theorem maskAndThresholdTable : Obligations.MaskAndThresholdTable := by
  unfold Obligations.MaskAndThresholdTable
  decide

/-! ## The big-step table (R84) -/

theorem lengthTable_length (layout : DescLayout) (desc : Byte) :
    (lengthTable layout desc).length = (lenMaskOf (lenBitsOf layout desc)).toNat := by
  rw [lengthTable, List.length_map, List.length_range]

theorem lengthTable_getElem? {layout : DescLayout} {desc : Byte} {i : Nat}
    (h : i < (lenMaskOf (lenBitsOf layout desc)).toNat) :
    (lengthTable layout desc)[i]? = some (tableEntry i (shifterOf layout desc).toNat
      (thresholdOf (lenMaskOf (lenBitsOf layout desc))).toNat) := by
  rw [lengthTable, List.getElem?_map, List.getElem?_range h, Option.map_some]

theorem lengthTable_pairwise_lt (layout : DescLayout) (desc : Byte) : (lengthTable layout desc).Pairwise (· < ·) :=
  List.pairwise_map.mpr (List.pairwise_lt_range.imp fun hlt => tableEntry_strictMono _ _ hlt)

theorem lengthTable_linear {layout : DescLayout} {desc : Byte} {i : Nat}
    (h : i < min ((thresholdOf (lenMaskOf (lenBitsOf layout desc))).toNat + 1) (lenMaskOf (lenBitsOf layout desc)).toNat) :
    (lengthTable layout desc)[i]? = some (i + 3) := by
  obtain ⟨hthreshold, hmask⟩ := lt_min_iff.mp h
  rw [lengthTable_getElem? hmask, tableEntry_of_le (Nat.le_of_lt_succ hthreshold)]

theorem lengthTable_bounds {layout : DescLayout} {desc : Byte} {e : Nat} (h : e ∈ lengthTable layout desc) :
    3 ≤ e ∧ e ≤ 886 := by
  obtain ⟨i, hi, rfl⟩ := List.mem_map.mp h
  exact tableEntry_bounds _ _ (List.mem_range.mp hi)

/-- Settles O13: the entries follow the formula of R83, which is strictly increasing, and index 0 is in the linear part. -/
theorem lengthTableProperties : Obligations.LengthTableProperties := fun layout desc =>
  ⟨(lengthTable_length layout desc).trans (lenMaskOf_toNat _), lengthTable_pairwise_lt layout desc,
    lengthTable_linear (lt_min (Nat.succ_pos _) (lenMaskOf_pos _).1), fun _ => lengthTable_linear, fun _ => lengthTable_bounds⟩

/-! ## What HEADER writes (R80) -/

section Header

variable {s : State} {desc : Byte} {count : BitVec 24}

theorem enabledOp_eq_header_iff : enabledOp s = some .header ↔ s.state = .header :=
  ⟨fun h => selectedBy_of_enabledOp h, fun h => by simp [enabledOp, h]⟩

/-- With four bytes left both fetches of HEADER succeed (R45, R87). -/
theorem execHeader_of_enough (hleft : 4 ≤ s.inLen - s.cur) :
    execHeader desc count s =
      .next { (loadMethod desc s).consume 4 with fc := stepsOf count, state := .awaitingFlag } := by
  have hdesc : advance 1 s = .ok (s.consume 1) := advance_ok.mpr ⟨by omega, rfl⟩
  have hcount : advance 3 (loadMethod desc (s.consume 1)) = .ok ((loadMethod desc (s.consume 1)).consume 3) := by
    refine advance_ok.mpr ⟨?_, rfl⟩
    change 3 ≤ s.inLen - (s.cur + 1)
    omega
  simp only [execHeader, hdesc, hcount, completes_ok]
  rfl

/-- The entries below LEN_MASK fit their ten bits, so LT holds the formula of R83 and not its low bits. -/
theorem MethodLoaded.exists_entry (h : MethodLoaded s) {i : Nat} (hi : i < s.lenMask.toNat) :
    ∃ e, s.lt[i]? = some e ∧ 3 ≤ e.toNat ∧ e.toNat ≤ 886 ∧ e.toNat = tableEntry i s.shifter.toNat s.threshold.toNat := by
  have hbounds : 3 ≤ tableEntry i s.shifter.toNat s.threshold.toNat ∧ tableEntry i s.shifter.toNat s.threshold.toNat ≤ 886 := by
    rw [h.lenMask] at hi
    rw [h.threshold, h.lenMask]
    exact tableEntry_bounds s.lenBits s.shifter hi
  have hvalue : (BitVec.ofNat 10 (tableEntry i s.shifter.toNat s.threshold.toNat)).toNat =
      tableEntry i s.shifter.toNat s.threshold.toNat := Nat.mod_eq_of_lt (by omega)
  exact ⟨_, h.table i hi, hvalue.symm ▸ hbounds.1, hvalue.symm ▸ hbounds.2, hvalue⟩

/-- The table entries at and above LEN_MASK hold what they held before (R21). -/
theorem loadMethod_lt_of_le {i : Nat} (hi : (loadMethod desc s).lenMask.toNat ≤ i) :
    (loadMethod desc s).lt[i]? = s.lt[i]? := by
  rcases Nat.lt_or_ge i 128 with hindex | hindex
  · rw [loadMethod_lt, buildTable_getElem? _ _ _ _ _ hindex]
    exact if_neg (Nat.not_lt.mpr hi)
  · rw [Vector.getElem?_eq_none hindex, Vector.getElem?_eq_none hindex]

end Header

/-- Settles O10: the fault by the bounds test of the fetches, the writes by `execHeader_of_enough`, the table by `MethodLoaded`. -/
theorem headerLoadsMethodTableAndCount : Obligations.HeaderLoadsMethodTableAndCount := by
  refine ⟨fun s => enabledOp_eq_header_iff,
    fun s desc count hshort => ⟨_, execHeader_of_short hshort, faultEntered_faultEntry .truncatedStream s⟩,
    fun s desc count hleft => ⟨_, execHeader_of_enough hleft, rfl, lenMaskOf_toNat _, thresholdOf_toNat _, stepsOf_toNat count,
      fun i hi => ?_, fun i => loadMethod_lt_of_le⟩⟩
  obtain ⟨e, hentry, hmin, hmax, hformula⟩ := (methodLoaded_loadMethod desc s).exists_entry hi
  exact ⟨e, hentry, hmin, hmax, hformula.trans (tableEntry_eq ..)⟩

/-! ## The count (R85) -/

/-- The operand's assembly and `MemRead` read three bytes as the same number (R44, R68). -/
theorem bigEndian24_toNat (hi mid lo : Byte) : (bigEndian24 hi mid lo).toNat = bigEndianNat [hi, mid, lo] := by
  have hmid := mid.isLt
  have hlo := lo.isLt
  simp only [bigEndian24, bigEndianNat, BitVec.toNat_append, List.foldl_cons, List.foldl_nil]
  rw [← Nat.shiftLeft_add_eq_or_of_lt hlo, ← Nat.shiftLeft_add_eq_or_of_lt hmid, Nat.shiftLeft_eq, Nat.shiftLeft_eq]
  omega

theorem bigEndianNat_three (hi mid lo : Byte) :
    bigEndianNat [hi, mid, lo] = hi.toNat * 65536 + mid.toNat * 256 + lo.toNat := by
  simp only [bigEndianNat, List.foldl_cons, List.foldl_nil]
  omega

/-- Settles O14: the loaded bytes at addresses 0 to 3 are HEADER's operand, and the last three of them are both its count and the
number that `MemRead` reads. -/
theorem headerCountIsBigEndianPlusOne : Obligations.HeaderCountIsBigEndianPlusOne := by
  intro s hhost hstate hcur hlen hloaded
  obtain ⟨desc, hdesc⟩ := Option.isSome_iff_exists.mp (hloaded 0 (by omega))
  obtain ⟨hi, hhi⟩ := Option.isSome_iff_exists.mp (hloaded 1 (by omega))
  obtain ⟨mid, hmid⟩ := Option.isSome_iff_exists.mp (hloaded 2 (by omega))
  obtain ⟨lo, hlo⟩ := Option.isSome_iff_exists.mp (hloaded 3 (by omega))
  have hoperand : s.inMem.readBytes s.cur Opcode.header.size = some [desc, hi, mid, lo] := by
    simp [hcur, Opcode.size, Memory.readBytes, hdesc, hhi, hmid, hlo]
  have hcount : s.memReadIn 1 3 = some (bigEndianNat [hi, mid, lo]) := by
    simp [State.memReadIn, hlen, Memory.readBytes, hhi, hmid, hlo]
  have hleft : 4 ≤ s.inLen - s.cur := by omega
  have hstep : step s = exec (.header desc (bigEndian24 hi mid lo)) s :=
    stepRunsDecodedOperation s .header _ _ hhost (enabledOp_eq_header_iff.mpr hstate) hleft hoperand rfl
  have hfc : (stepsOf (bigEndian24 hi mid lo)).toNat = bigEndianNat [hi, mid, lo] + 1 := by
    rw [stepsOf_toNat, bigEndian24_toNat]
  exact ⟨_, _, hstep.trans (execHeader_of_enough hleft), hcount, hfc, hfc ▸ Nat.succ_pos _,
    hi, mid, lo, hhi, hmid, hlo, bigEndianNat_three hi mid lo⟩

end Sys2Proof.Machine

/-! # Which operation is enabled, and the flag window (30_encoding.md R70, 41_flag_window.md R100 to R102)

`enabledOp_eq_some_iff` ties the model's selection to the table `SelectedBy`; `execFlagfill_of_left` says what a refill writes. -/

namespace Sys2Proof.Machine

/-! ## The exhausted window -/

theorem windowExhausted_eq_false_iff (fw : BitVec 9) : windowExhausted fw = false ↔ fw >>> 1 ≠ 0 := by
  rw [Ne, ← windowExhausted_iff, Bool.not_eq_true]

/-- R101: what is left of a window that is not exhausted still holds the sentinel. -/
theorem windowShift_pos {fw : BitVec 9} (hwindow : windowExhausted fw = false) : 1 ≤ (windowShift fw).toNat :=
  Nat.pos_of_ne_zero fun hzero => (windowExhausted_eq_false_iff fw).mp hwindow (BitVec.eq_of_toNat_eq hzero)

theorem flagBit_eq_beq (fw : BitVec 9) : flagBit fw = (fw.toNat % 2 == 1) := by
  rw [Bool.eq_iff_iff, flagBit_iff, beq_iff_eq]

/-! ## Which operation is enabled (R70, R100) -/

section Enabled

variable {s : State} {op : Opcode}

/-- An operation whose condition in R70 holds is the enabled one. -/
theorem enabledOp_of_selectedBy (h : SelectedBy s op) : enabledOp s = some op := by
  cases op with
  | start | abort => exact h.elim
  | header | literal | backref | copy | count =>
    simp only [SelectedBy] at h
    simp only [enabledOp, h]
  | flagfill | flagtake | tailcopy | finish | tinycopy | tinydone =>
    obtain ⟨hstate, hcondition⟩ := h
    simp [enabledOp, hstate, hcondition]

theorem enabledOp_eq_some_iff : enabledOp s = some op ↔ SelectedBy s op :=
  ⟨selectedBy_of_enabledOp, enabledOp_of_selectedBy⟩

theorem enabledOp_eq_none_iff : enabledOp s = none ↔ s.state = .idle ∨ s.state = .done ∨ s.state = .fault := by
  cases hstate : s.state with
  | idle | done | fault => simp [enabledOp, hstate]
  | tiny | header | awaitingFlag | literal | backref | copy | count | tail => simp [enabledOp, hstate]

theorem enabledOp_eq_flagfill_iff : enabledOp s = some .flagfill ↔ s.state = .awaitingFlag ∧ s.fw >>> 1 = 0 := by
  rw [enabledOp_eq_some_iff, SelectedBy, windowExhausted_iff]

theorem enabledOp_eq_flagtake_iff : enabledOp s = some .flagtake ↔ s.state = .awaitingFlag ∧ s.fw >>> 1 ≠ 0 := by
  rw [enabledOp_eq_some_iff, SelectedBy, windowExhausted_eq_false_iff]

end Enabled

/-- Settles O7: the rows of `SelectedBy`, whose rows for START and ABORT never hold. -/
theorem enabledOperationByState : Obligations.EnabledOperationByState := fun _ =>
  ⟨enabledOp_eq_none_iff, enabledOp_eq_some_iff, enabledOp_eq_flagfill_iff, enabledOp_eq_flagtake_iff, enabledOp_eq_some_iff,
    enabledOp_eq_some_iff, enabledOp_eq_some_iff, enabledOp_eq_some_iff, enabledOp_eq_some_iff, enabledOp_eq_some_iff,
    enabledOp_eq_some_iff, enabledOp_eq_some_iff, selectedBy_of_enabledOp, selectedBy_of_enabledOp⟩

/-! ## FLAGFILL and FLAGTAKE (R101, R102) -/

/-- In its own state FLAGFILL writes FW and CUR alone, where a byte is left. -/
theorem execFlagfill_of_left {s : State} {flags : Byte} (hstate : s.state = .awaitingFlag) (hleft : s.cur < s.inLen) :
    execFlagfill flags s = .next { s.consume 1 with fw := refill flags } := by
  have hadvance : advance 1 s = .ok (s.consume 1) := advance_ok.mpr ⟨by omega, rfl⟩
  rw [execFlagfill, hadvance, completes_ok, ← hstate]
  rfl

/-- Settles O15: after a refill the window holds its flag bits, so FLAGTAKE is selected; without a byte the fetch fails. -/
theorem flagfillLoadsWindow : Obligations.FlagfillLoadsWindow := by
  refine ⟨fun s => enabledOp_eq_flagfill_iff, fun s b hstate hleft => ?_, fun s b hnone => ?_⟩
  · have hnext : enabledOp { s.consume 1 with fw := refill b } = some .flagtake :=
      enabledOp_of_selectedBy ⟨hstate, windowExhausted_refill b⟩
    exact ⟨_, execFlagfill_of_left hstate hleft, rfl, refill_toNat b, hnext⟩
  · have hshort : s.inLen - s.cur < (Instr.flagfill b).opcode.size := by
      rw [Nat.sub_eq_zero_of_le hnone]
      exact Nat.one_pos
    exact ⟨_, exec_of_short_operand (.inr (.inl rfl)) hshort, faultEntered_faultEntry .truncatedStream s⟩

/-- Settles O16: bit 0 of FW is its remainder by 2, and an enabled FLAGTAKE finds a window that is not exhausted. -/
theorem flagtakeDeliversLowBit : Obligations.FlagtakeDeliversLowBit := by
  refine ⟨fun s => enabledOp_eq_flagtake_iff, fun s => ⟨_, rfl, ?_, windowShift_toNat s.fw, fun henabled => ?_⟩⟩
  · simp only [flagBit_eq_beq, beq_iff_eq]
  · obtain ⟨-, hwindow⟩ := selectedBy_of_enabledOp henabled
    exact windowShift_pos hwindow

end Sys2Proof.Machine

/-! # LITERAL, and the byte an append leaves in OUT (20_memory.md R41, R46, 42_literal.md R110)

`execLiteral_of_full` and `execLiteral_of_room` say what LITERAL answers once its byte is there; `State.push_outByte` and
`State.push_read_of_ne` say what OUT holds after an append. -/

namespace Sys2Proof.Machine

section Literal

variable {s : State} {v : Byte}

/-! ## OUT after an append (R41, R46) -/

/-- The address an append writes lies below the new OUT_LEN, so its byte can be read. -/
theorem State.push_outByte : (s.push v).outByte s.outLen = some v :=
  (if_pos s.outLen.lt_succ_self).trans (Memory.read_write_same s.outMem s.outLen v)

theorem State.push_read_of_ne {a : Nat} (hother : a ≠ s.outLen) : (s.push v).outMem.read a = s.outMem.read a :=
  Memory.read_write_other s.outMem v hother

/-! ## LITERAL with its byte there (R110) -/

theorem advance_one_of_left (hleft : s.cur < s.inLen) : advance 1 s = .ok (s.consume 1) :=
  advance_ok.mpr ⟨Nat.sub_pos_of_lt hleft, rfl⟩

/-- The fetch succeeds and the append fails: fault entry is from the state before both. -/
theorem execLiteral_of_full (hleft : s.cur < s.inLen) (hfull : s.params.outMax = some s.outLen) :
    execLiteral v s = .next (faultEntry .outputOverflow s) := by
  have happend : append v (s.consume 1) = .error .outputOverflow := append_error.mpr ⟨hfull, rfl⟩
  simp only [execLiteral, advance_one_of_left hleft, happend, completes_error]

/-- The fetch and the append succeed. -/
theorem execLiteral_of_room (hleft : s.cur < s.inLen) (hroom : s.params.outMax ≠ some s.outLen) :
    execLiteral v s = .next { (s.consume 1).push v with state := .count } := by
  have happend : append v (s.consume 1) = .ok ((s.consume 1).push v) := append_ok.mpr ⟨hroom, rfl⟩
  simp only [execLiteral, advance_one_of_left hleft, happend, completes_ok]

end Literal

/-- Settles O19: the fetch's bounds test comes first (O32), then the append's; where both pass, the append writes OUT_LEN alone. -/
theorem literalAppendsItsOperand : Obligations.LiteralAppendsItsOperand := by
  refine ⟨fun s => enabledOp_eq_some_iff, fun s v hnone => ?_, fun s v hleft hfull => ?_, fun s v hleft hroom => ?_⟩
  · have hshort : s.inLen - s.cur < (Instr.literal v).opcode.size := by
      rw [Nat.sub_eq_zero_of_le hnone]
      exact Nat.one_pos
    exact ⟨_, exec_of_short_operand (.inr (.inr (.inl rfl))) hshort, faultEntered_faultEntry .truncatedStream s⟩
  · exact ⟨_, execLiteral_of_full hleft hfull, faultEntered_faultEntry .outputOverflow s⟩
  · have hbyte : ((s.consume 1).push v).outByte s.outLen = some v := State.push_outByte
    have hothers : ∀ a, a ≠ s.outLen → ((s.consume 1).push v).outMem.read a = s.outMem.read a :=
      fun _ => State.push_read_of_ne (s := s.consume 1)
    exact ⟨_, execLiteral_of_room hleft hroom, rfl, hbyte, hothers⟩

end Sys2Proof.Machine


/-! # BACKREF and COPY, each path once (43_backref.md R120 to R126)

`execBackref_of_masked_zero` and `execBackref_of_entry` take BACKREF through its first two tests in any state, without the premise
that the method is loaded (`execBackref_of_set`), and leave the last two to `startCopy`; `execCopy_of_full` and `execCopy_of_room`
say what a visit of COPY with bytes left answers. -/

namespace Sys2Proof.Machine

section Backref

variable {s : State} {dist : BitVec 16} {length : BitVec 10}

theorem advance_two_of_left (hleft : 2 ≤ s.inLen - s.cur) : advance 2 s = .ok (s.consume 2) :=
  advance_ok.mpr ⟨hleft, rfl⟩

/-- The second test: an index field of 0 selects no entry (R122). -/
theorem execBackref_of_masked_zero (hleft : 2 ≤ s.inLen - s.cur) (hmasked : maskedValue s.lenMask dist = 0) :
    execBackref dist s = .next (faultEntry .invalidLengthIndex s) := by
  have hzero : maskedValue (s.consume 2).lenMask dist = 0 := hmasked
  simp only [execBackref, advance_two_of_left hleft, if_pos hzero, completes_error]

/-- With an index field that selects an entry, the outcome is that of the copy's set-up (R122 to R125). -/
theorem execBackref_of_entry (hleft : 2 ≤ s.inLen - s.cur) (hmasked : maskedValue s.lenMask dist ≠ 0)
    (hlength : tableRead s.lt ((maskedValue s.lenMask dist).toNat - 1) = some length) :
    execBackref dist s = completes s (startCopy dist length (s.consume 2)) := by
  have hnonzero : maskedValue (s.consume 2).lenMask dist ≠ 0 := hmasked
  have hentry : tableRead (s.consume 2).lt ((maskedValue (s.consume 2).lenMask dist).toNat - 1) = some length := hlength
  simp only [execBackref, advance_two_of_left hleft, if_neg hnonzero, hentry]

end Backref

/-- Settles O20: the fetch's bounds test comes first (O32), then the index field; the other two tests, and the
registers, are the set-up's. -/
theorem backrefTestsThenSetsUpTheCopy : Obligations.BackrefTestsThenSetsUpTheCopy := by
  refine ⟨fun s => enabledOp_eq_some_iff, fun s d hshort => ?_, fun s d hleft hmasked => ?_,
    fun s d length hleft hmasked hlength => ?_⟩
  · exact ⟨_, exec_of_short_operand (.inr (.inr (.inr rfl))) hshort, faultEntered_faultEntry .truncatedStream s⟩
  · exact ⟨_, execBackref_of_masked_zero hleft hmasked, faultEntered_faultEntry .invalidLengthIndex s⟩
  · have hexec : exec (.backref d) s = completes s (startCopy d length (s.consume 2)) :=
      execBackref_of_entry hleft hmasked hlength
    refine ⟨fun hzero => ?_, fun hdisp hbeyond => ?_, fun hdisp hrange => ?_⟩
    · have hsetup : startCopy d length (s.consume 2) = .error .invalidDisplacement := startCopy_error.mpr (.inl ⟨hzero, rfl⟩)
      rw [hexec, hsetup]
      exact ⟨_, completes_error s _, faultEntered_faultEntry .invalidDisplacement s⟩
    · have hsetup : startCopy d length (s.consume 2) = .error .copyOutOfRange :=
        startCopy_error.mpr (.inr ⟨hdisp, hbeyond, rfl⟩)
      rw [hexec, hsetup]
      exact ⟨_, completes_error s _, faultEntered_faultEntry .copyOutOfRange s⟩
    · rw [hexec]
      exact completes_next.mpr (.inl (startCopy_ok.mpr ⟨hdisp, hrange, rfl⟩))

section Copy

variable {s : State} {b : Byte}

/-- The visit after the last byte ends the token (R126). -/
theorem execCopy_of_rem_zero (hrem : s.rem = 0) : execCopy s = .next { s with state := .count } :=
  if_pos hrem

/-- The byte is there and the append fails. -/
theorem execCopy_of_full (hrem : s.rem ≠ 0) (hread : s.outByte s.src = some b) (hfull : s.params.outMax = some s.outLen) :
    execCopy s = .next (faultEntry .outputOverflow s) := by
  have happend : append b s = .error .outputOverflow := append_error.mpr ⟨hfull, rfl⟩
  simp only [execCopy, if_neg hrem, hread, happend, completes_error]

/-- The byte is there and the append succeeds. -/
theorem execCopy_of_room (hrem : s.rem ≠ 0) (hread : s.outByte s.src = some b) (hroom : s.params.outMax ≠ some s.outLen) :
    execCopy s = .next { s.push b with src := s.src + 1, rem := s.rem - 1 } := by
  have happend : append b s = .ok (s.push b) := append_ok.mpr ⟨hroom, rfl⟩
  simp only [execCopy, if_neg hrem, hread, happend, completes_ok]
  rfl

/-- REM counts down without wrapping where bytes are left (R126). -/
theorem rem_sub_one_toNat (hrem : s.rem ≠ 0) : (s.rem - 1).toNat = s.rem.toNat - 1 := by
  bv_omega

end Copy

/-- Settles O23: where bytes are left, the copied byte is appended, and an append writes OUT at OUT_LEN alone. -/
theorem copyMovesOneByte : Obligations.CopyMovesOneByte := by
  refine ⟨fun s => enabledOp_eq_some_iff, fun s => execCopy_of_rem_zero, fun s b hrem hread =>
    ⟨fun hfull => ?_, fun hroom => ?_⟩⟩
  · exact ⟨_, execCopy_of_full hrem hread hfull, faultEntered_faultEntry .outputOverflow s⟩
  · exact ⟨_, execCopy_of_room hrem hread hroom, rfl, rem_sub_one_toNat hrem, State.push_outByte,
      fun _ => State.push_read_of_ne⟩

end Sys2Proof.Machine

/-! # Run control (44_sequencing_tail_tiny.md R140, R141, R145 to R147, R149, R151, R152, R155)

The moves of the host in IDLE, then START, ABORT and the operations that end a decode step or a run, each path once. -/

namespace Sys2Proof.Machine

/-! ## IDLE (R140) -/

section Idle

variable {s t : State} {m : HostMove}

theorem engineStep_of_quiet (h : enabledOp s = none) : engineStep s = .next s := by
  simp only [engineStep, fetchInstr, h]

theorem hostWriteCfg_state (value : Nat) (s : State) : (hostWriteCfg value s).state = s.state := by
  unfold hostWriteCfg
  split <;> rfl

/-- R25: a write of CMD issues no operation but the two commands. -/
theorem decodeCmd_cases (value : Nat) :
    decodeCmd value = some .abort ∨ decodeCmd value = some .start ∨ decodeCmd value = none := by
  unfold decodeCmd
  split
  · exact .inl rfl
  · split
    · exact .inr (.inl rfl)
    · exact .inr (.inr rfl)

/-- A move of the host that leads out of IDLE is a START command. -/
theorem hostStep_of_idle (hidle : s.state = .idle) (hstep : hostStep m s = .next t) :
    t.state = .idle ∨ ∃ value, m = .writeCmd value ∧ decodeCmd value = some .start := by
  cases m with
  | pass =>
    cases (engineStep_of_quiet (enabledOp_eq_none_iff.mpr (.inl hidle))).symm.trans hstep
    exact .inl hidle
  | writeCfg value =>
    cases hstep
    exact .inl ((hostWriteCfg_state value s).trans hidle)
  | writeInLen value =>
    rcases hostWriteInLen_next hstep with ⟨-, rfl⟩ | ⟨-, n, -, rfl⟩ <;> exact .inl hidle
  | loadIn addr bytes =>
    obtain ⟨-, -, rfl⟩ := hostLoadIn_next hstep
    exact .inl hidle
  | writeCmd value =>
    rw [hostStep, hostWriteCmd] at hstep
    rcases decodeCmd_cases value with habort | hstart | hnothing
    · rw [habort] at hstep
      cases hstep
      exact .inl rfl
    · exact .inr ⟨value, rfl, hstart⟩
    · rw [hnothing] at hstep
      cases hstep
      exact .inl hidle
  | reset =>
    cases hstep
    exact .inl (hostReset_state s)

end Idle

/-- Settles O8: without a host move the step is quiet, and of the host's moves only START leads out. -/
theorem idleIsLeftOnlyByStart : Obligations.IdleIsLeftOnlyByStart := by
  refine ⟨fun s hidle => enabledOp_eq_none_iff.mpr (.inl hidle), fun s t hidle hstep hleft => ?_, rfl,
    fun s => ⟨_, rfl, rfl⟩⟩
  cases hhost : s.host with
  | nil =>
    rw [step, stepOnce_engine hhost, engineStep_of_quiet (enabledOp_eq_none_iff.mpr (.inl hidle))] at hstep
    cases hstep
    exact absurd hidle hleft
  | cons m later =>
    rw [step_of_host hhost] at hstep
    rcases hostStep_of_idle (s := { s with host := later }) hidle hstep with hstill | ⟨value, rfl, hstart⟩
    · exact absurd hstill hleft
    · exact ⟨value, later, rfl, hstart⟩

/-! ## START and ABORT (R141, R149, R155) -/

theorem execStart_of_busy {s : State} (hbusy : s.busy = true) : execStart s = .next s := if_pos hbusy

theorem status_ne_one_of_quiet {s : State} (hquiet : s.state = .idle ∨ s.state = .done ∨ s.state = .fault) : s.status ≠ 1 := by
  rw [Ne, status_eq_one_iff, busy_iff]
  tauto

/-- With OUT_LEN = 0 no OUT byte can be read (R31, R41). -/
theorem outByte_eq_none_of_empty {s : State} (hempty : s.outLen = 0) (a : Nat) : s.outByte a = none :=
  if_neg (by omega)

/-- Settles O25: START by its test for BUSY; a run cleared has OUT_LEN = 0. -/
theorem startBeginsARunUnlessBusy : Obligations.StartBeginsARunUnlessBusy :=
  ⟨fun _ hbusy => execStart_of_busy (status_eq_one_iff.mp hbusy),
    fun _ hquiet => ⟨_, execStart_of_not_busy (status_ne_one_of_quiet hquiet), rfl, outByte_eq_none_of_empty rfl⟩⟩

/-- Settles O26: ABORT clears the run in every state, after giving up the working registers. -/
theorem abortLeadsToIdle : Obligations.AbortLeadsToIdle := fun _ =>
  ⟨_, rfl, rfl, rfl, rfl, rfl, ⟨rfl, rfl, rfl⟩, rfl, rfl, rfl, outByte_eq_none_of_empty rfl, rfl, rfl, rfl, rfl, rfl, rfl⟩

/-! ## COUNT (R145) -/

/-- Settles O27: FC counts down without wrapping, so it reaches 0 exactly from 1. -/
theorem countEndsADecodeStep : Obligations.CountEndsADecodeStep := by
  refine ⟨fun s => enabledOp_eq_some_iff, fun s hpos => ?_⟩
  have hcounter : (s.fc - 1).toNat = s.fc.toNat - 1 := by bv_omega
  have hlast : s.fc - 1 = 0 ↔ s.fc.toNat = 1 := by bv_omega
  exact ⟨_, rfl, by simp only [hlast], hcounter⟩

/-! ## The raw copies (R67, R146, R151) -/

section RawCopy

variable {s : State} {v : Byte}

theorem copyRaw_of_full (hleft : s.cur < s.inLen) (hfull : s.params.outMax = some s.outLen) :
    copyRaw v s = .error .outputOverflow := by
  rw [copyRaw, advance_one_of_left hleft]
  exact append_error.mpr ⟨hfull, rfl⟩

theorem copyRaw_of_room (hleft : s.cur < s.inLen) (hroom : s.params.outMax ≠ some s.outLen) :
    copyRaw v s = .ok ((s.consume 1).push v) :=
  copyRaw_ok.mpr ⟨Nat.sub_pos_of_lt hleft, hroom, rfl⟩

end RawCopy

/-- Settles O28: both operations complete the one raw copy, whose append writes OUT at OUT_LEN alone. -/
theorem rawCopiesAppendTheirByte : Obligations.RawCopiesAppendTheirByte := by
  refine ⟨fun s => enabledOp_eq_some_iff, fun s => enabledOp_eq_some_iff, fun s v i hraw hleft => ?_⟩
  have hexec : exec i s = completes s (copyRaw v s) := by rcases hraw with rfl | rfl <;> rfl
  refine ⟨fun hfull => ?_, fun hroom => ?_⟩
  · rw [hexec, copyRaw_of_full hleft hfull]
    exact ⟨_, completes_error s _, faultEntered_faultEntry .outputOverflow s⟩
  · rw [hexec, copyRaw_of_room hleft hroom]
    have hbyte : ((s.consume 1).push v).outByte s.outLen = some v := State.push_outByte
    have hothers : ∀ a, a ≠ s.outLen → ((s.consume 1).push v).outMem.read a = s.outMem.read a :=
      fun _ => State.push_read_of_ne (s := s.consume 1)
    exact ⟨_, completes_ok s _, rfl, hbyte, hothers⟩

/-! ## The ends of a run (R147, R152) -/

/-- Settles O29: in TAIL one of TAILCOPY and FINISH is enabled, and FINISH branches on INCL_TAIL. -/
theorem finishReportsTheOverflow : Obligations.FinishReportsTheOverflow := by
  refine ⟨fun s => ?_, fun s => ⟨fun hsplit => if_neg (by simp [hsplit]), fun hjoin => if_pos hjoin⟩⟩
  rw [Ne, enabledOp_eq_some_iff, enabledOp_eq_some_iff]
  refine and_congr_right fun hstate => not_congr ?_
  exact (and_iff_right hstate).symm

/-- Settles O30: where CUR has not passed IN_LEN, no byte left means CUR = IN_LEN. -/
theorem tinydoneEndsWithoutOverflow : Obligations.TinydoneEndsWithoutOverflow := by
  refine ⟨fun s hcur => ?_, fun _ => rfl⟩
  rw [enabledOp_eq_some_iff]
  refine and_congr_right fun _ => ?_
  omega

end Sys2Proof.Machine

/-! # Every run ends (44_sequencing_tail_tiny.md R158)

`stepsLeft` bounds the steps to the end of the run, state by state, and every move of the engine that is not quiet makes it smaller.
That the run gets to its end at all is O52: the machine reaches the state the big-step function shows. -/

namespace Sys2Proof.Machine

/-! ## The bound on the steps that are left -/

/-- The input bytes left, each one step of a raw copy, and the step that ends the run (R146, R147, R151, R152). -/
def rawStepsLeft (s : State) : Nat :=
  s.inLen - s.cur + 1

/-- The steps after the present decode step: at most 2 + 1 + 887 + 1 for each of the FC - 1 others, and those of the tail. -/
def laterSteps (s : State) : Nat :=
  891 * (s.fc - 1).toNat + rawStepsLeft s

/-- The steps to DONE or FAULT are at most so many: FLAGFILL and FLAGTAKE, one step for the token, one visit of COPY per byte and one
more, COUNT. -/
def stepsLeft (s : State) : Nat :=
  match s.state with
  | .idle | .done | .fault => 0
  | .tiny | .tail => rawStepsLeft s
  | .header => 1 + 2 ^ 24 * 891 + rawStepsLeft s
  | .awaitingFlag => (if windowExhausted s.fw then 891 else 890) + laterSteps s
  | .literal | .backref => 889 + laterSteps s
  | .copy => s.rem.toNat + 2 + laterSteps s
  | .count => 1 + laterSteps s

section StepsLeft

variable {s t : State} {dist : BitVec 16} {length : BitVec 10}

theorem stepsLeft_pos {op : Opcode} (henabled : enabledOp s = some op) : 0 < stepsLeft s := by
  cases hstate : s.state with
  | idle | done | fault => simp [enabledOp, hstate] at henabled
  | tiny | tail | header | literal | backref | copy | count | awaitingFlag =>
    simp [stepsLeft, hstate, rawStepsLeft, laterSteps]

theorem stepsLeft_le_of_awaitingFlag (hstate : s.state = .awaitingFlag) : stepsLeft s ≤ 891 + laterSteps s := by
  simp only [stepsLeft, hstate]
  split <;> omega

/-- With the method loaded, no back-reference is longer than 886 bytes (R84, R129). -/
theorem MethodLoaded.length_le (h : MethodLoaded s) (hmasked : maskedValue s.lenMask dist ≠ 0)
    (hlength : tableRead s.lt ((maskedValue s.lenMask dist).toNat - 1) = some length) : length.toNat ≤ 886 := by
  have hpos := (lenMaskOf_pos s.lenBits).1
  rw [← h.lenMask] at hpos
  obtain ⟨e, hentry, -, hmax, -⟩ := h.exists_entry (Nat.sub_lt hpos Nat.one_pos)
  rw [tableRead, h.maskedValue_of_ne_zero hmasked, hentry, Option.some.injEq] at hlength
  exact hlength ▸ hmax

/-- HEADER loads the method and no later operation of the run writes it (R80, R36). -/
theorem EngineMove.methodLoaded (hmove : EngineMove s t) (hmethod : AfterHeader s → MethodLoaded s) :
    AfterHeader t → MethodLoaded t := by
  intro hloop
  cases hmove with
  | quiet => exact hmethod hloop
  | fault | finishJoin | finishSplit | tinydone => simp [AfterHeader] at hloop
  | header _ desc => exact { methodLoaded_loadMethod desc s with }
  | rawCopy => exact { hmethod hloop with }
  | flagfill hstate | flagtake hstate | literal hstate | backref hstate | copyByte hstate | copyEnd hstate | count hstate =>
    exact { hmethod (by simp [AfterHeader, hstate]) with }

/-- A move of the engine is quiet or leaves fewer steps. -/
theorem EngineMove.stepsLeft_lt (hmove : EngineMove s t) (hmethod : AfterHeader s → MethodLoaded s) :
    t = s ∨ stepsLeft t < stepsLeft s := by
  cases hmove with
  | quiet => exact .inl rfl
  | fault henabled => exact .inr (stepsLeft_pos henabled)
  | header hstate desc count hleft =>
    have hcount : (stepsOf count - 1).toNat = count.toNat := by
      have := stepsOf_toNat count
      bv_omega
    have hfits := count.isLt
    refine .inr ((stepsLeft_le_of_awaitingFlag rfl).trans_lt ?_)
    simp only [stepsLeft, hstate, laterSteps, rawStepsLeft, State.consume, hcount, loadMethod_inLen, loadMethod_cur]
    omega
  | flagfill hstate hwindow flags hleft =>
    right
    simp only [stepsLeft, hstate, hwindow, windowExhausted_refill, laterSteps, rawStepsLeft, State.consume, if_true,
      Bool.false_eq_true, if_false]
    omega
  | flagtake hstate hwindow =>
    right
    cases hflag : flagBit s.fw <;> simp [stepsLeft, hstate, hwindow, laterSteps, rawStepsLeft]
  | literal hstate v hleft =>
    right
    simp only [stepsLeft, hstate, laterSteps, rawStepsLeft, State.consume, State.push]
    omega
  | backref hstate dist length hleft hmasked hlength =>
    have hle := (hmethod (by simp [AfterHeader, hstate])).length_le hmasked hlength
    right
    simp only [stepsLeft, hstate, laterSteps, rawStepsLeft, State.consume]
    omega
  | copyByte hstate hrem =>
    have hfewer : (s.rem - 1).toNat + 1 = s.rem.toNat := by bv_omega
    right
    simp only [stepsLeft, hstate, laterSteps, rawStepsLeft, State.push]
    omega
  | copyEnd hstate =>
    right
    simp only [stepsLeft, hstate, laterSteps, rawStepsLeft]
    omega
  | count hstate =>
    right
    by_cases hlast : s.fc - 1 = 0
    · rw [if_pos hlast]
      simp only [stepsLeft, hstate, laterSteps, rawStepsLeft]
      omega
    · have hfewer : (s.fc - 1 - 1).toNat + 1 = (s.fc - 1).toNat := by bv_omega
      rw [if_neg hlast]
      refine (stepsLeft_le_of_awaitingFlag rfl).trans_lt ?_
      simp only [stepsLeft, hstate, laterSteps, rawStepsLeft]
      omega
  | rawCopy hraw v hleft =>
    right
    rcases hraw with hstate | ⟨hstate, -⟩ <;> simp only [stepsLeft, hstate, rawStepsLeft, State.consume, State.push] <;> omega
  | finishJoin hstate | finishSplit hstate | tinydone hstate => exact .inr (by simp [stepsLeft, hstate, rawStepsLeft])

end StepsLeft

/-! ## The end of the run, within the bound -/

/-- A run that gets to its end gets there within the bound: each step up to it is quiet or leaves fewer. -/
theorem Reaches.within_stepsLeft {P : State → Prop} {s : State} (h : Reaches P s) (hhost : s.host = [])
    (hmethod : AfterHeader s → MethodLoaded s) : ∃ n u, n ≤ stepsLeft s ∧ runFor n s = .next u ∧ P u := by
  obtain ⟨n, u, hrun, hu⟩ := h
  induction n generalizing s with
  | zero =>
    exact ⟨0, u, Nat.zero_le _, hrun, hu⟩
  | succ n ih =>
    rw [runFor] at hrun
    split at hrun
    next t hstep =>
      have hmove := EngineMove.of_step hhost hstep
      obtain ⟨-, -, -, -, -, hkept⟩ := hmove.input
      obtain ⟨m, v, hm, hrun', hv⟩ := ih (hkept.trans hhost) (hmove.methodLoaded hmethod) hrun
      rcases hmove.stepsLeft_lt hmethod with rfl | hlt
      · exact ⟨m, v, hm, hrun', hv⟩
      · exact ⟨m + 1, v, by omega, by rw [runFor, hstep]; exact hrun', hv⟩
    next => cases hrun
    next => cases hrun

theorem Shows.ended {u : State} {r : RunResult} (h : Shows u r) : u.state = .done ∨ u.state = .fault := by
  cases r with
  | done => exact .inl h.1
  | fault => exact .inr h.1

/-- Loaded input is some list of bytes. -/
theorem InputLoaded.exists_inputIs {s : State} (h : InputLoaded s) : ∃ inp, InputIs s inp := by
  obtain ⟨inp, hread⟩ := Memory.readBytes_isSome (m := s.inMem) (a := 0) (n := s.inLen) (by simpa [InputLoaded] using h)
  obtain ⟨hlen, hbytes⟩ := Memory.readBytes_eq_some.mp hread
  exact ⟨inp, hlen.symm, fun a ha => by simpa using hbytes a (hlen ▸ ha)⟩

/-- Settles O51: by O52 the run ends, and the state START leads to has no more steps left than the bound. -/
theorem everyRunEnds : Obligations.EveryRunEnds := by
  intro s t hidle hhost hloaded hstart
  obtain ⟨inp, hinput⟩ := hloaded.exists_inputIs
  obtain ⟨n, u, hrun, hshows⟩ := runComputesDecodeRun s t inp hidle hhost hinput hstart
  have hends : Reaches (fun u => u.state = .done ∨ u.state = .fault) t := ⟨n, u, hrun, hshows.ended⟩
  rw [execStart_of_not_busy hidle, Host.Outcome.next.injEq] at hstart
  subst hstart
  obtain ⟨m, v, hm, hrun', hv⟩ := hends.within_stepsLeft hhost (by split <;> simp [AfterHeader])
  refine ⟨m, v, hm.trans ?_, hrun', hv⟩
  by_cases htiny : s.tinyEn = true ∧ s.inLen ≤ tinyInputLimit <;> simp [stepsLeft, htiny, rawStepsLeft]

end Sys2Proof.Machine

/-! # Fault entry (60_exceptions.md R170, R180)

`faultEntered_faultEntry` says which registers fault entry writes, for the kind raised; here stand what STATUS shows afterwards and
the codes ERR can hold. -/

namespace Sys2Proof.Machine

/-- STATUS follows STATE, and fault entry sets STATE to FAULT (R27, R180). -/
@[simp] theorem faultEntry_status (e : ErrKind) (s : State) : (faultEntry e s).status = 3 := by
  rw [State.status, faultEntry_state, statusOf]

/-- Settles O31: a failing test makes fault entry the next state, whose frame and STATUS do not depend on the kind; R170 gives the
codes one by one. -/
theorem faultEntryLeavesNoResult : Obligations.FaultEntryLeavesNoResult := by
  refine ⟨fun s e => ?raised, ?codes⟩
  case raised => exact ⟨completes_error s e, faultEntered_faultEntry e s, faultEntry_status e s⟩
  case codes => exact ⟨rfl, rfl, rfl, rfl, rfl, rfl⟩

end Sys2Proof.Machine

/-! # Reset (70_reset_and_hazards.md R200) -/

namespace Sys2Proof.Machine

/-- Settles O41: STATUS is 0 because STATE is IDLE (R27); the other values are those of the "after reset" column of R34. -/
theorem resetValuesAsListed : Obligations.ResetValuesAsListed := by
  have hidle : State.reset.state = .idle := rfl
  have hstatus : State.reset.status = 0 := by
    obtain ⟨hiff, -⟩ := statusOf_eq_iff State.reset.state
    exact hiff.mpr hidle
  have hoverflow : NoOverflow State.reset := ⟨rfl, rfl, rfl⟩
  exact ⟨hidle, rfl, rfl, rfl, rfl, rfl, rfl, hoverflow, rfl, rfl, rfl, hstatus⟩

end Sys2Proof.Machine

/-! # The flag window as a list of flag bits, and listings (41_flag_window.md R100 to R105, 30_encoding.md R66, R71)

`windowFlags` lists the flag bits FW still holds. With it the flag loop has two cases, a bit to take and a byte to load, and the
statements about whole streams follow the loop by these two. -/

namespace Sys2Proof.Machine

/-! ## The flag bits a window holds -/

/-- The flag bits below the sentinel, the next one first (R100, R101). -/
def windowFlags (fw : BitVec 9) : List Bool :=
  (List.range fw.toNat.log2).map fw.getLsbD

theorem windowFlags_length (fw : BitVec 9) : (windowFlags fw).length = fw.toNat.log2 := by
  rw [windowFlags, List.length_map, List.length_range]

@[simp] theorem windowFlags_zero : windowFlags 0 = [] := rfl

theorem windowFlags_of_exhausted {fw : BitVec 9} (hwindow : windowExhausted fw = true) : windowFlags fw = [] := by
  have hhalf : fw.toNat / 2 = 0 := by
    rw [← windowShift_toNat]
    exact congrArg BitVec.toNat (beq_iff_eq.mp hwindow)
  rw [← List.length_eq_zero_iff, windowFlags_length, Nat.log2_def, if_neg (by omega)]

/-- FLAGTAKE takes the first of the listed bits (R101). -/
theorem windowFlags_of_not_exhausted {fw : BitVec 9} (hwindow : windowExhausted fw = false) :
    windowFlags fw = flagBit fw :: windowFlags (windowShift fw) := by
  have hpos := windowShift_pos hwindow
  rw [windowShift_toNat] at hpos
  have hlog : fw.toNat.log2 = (windowShift fw).toNat.log2 + 1 := by
    rw [windowShift_toNat, Nat.log2_def, if_pos (by omega)]
  rw [windowFlags, hlog, List.range_succ_eq_map, List.map_cons, List.map_map, windowFlags]
  refine congrArg₂ _ rfl (List.map_congr_left fun k _ => ?_)
  rw [Function.comp_apply, windowShift, BitVec.getLsbD_ushiftRight, Nat.succ_eq_one_add]

theorem windowExhausted_of_windowFlags_nil {fw : BitVec 9} (hflags : windowFlags fw = []) : windowExhausted fw = true := by
  by_contra hwindow
  rw [windowFlags_of_not_exhausted (Bool.eq_false_iff.mpr hwindow)] at hflags
  cases hflags

/-- FLAGTAKE on a window whose flag bits are known. -/
theorem flagtake_of_windowFlags {fw : BitVec 9} {flag : Bool} {flags : List Bool} (hflags : windowFlags fw = flag :: flags) :
    windowExhausted fw = false ∧ flagBit fw = flag ∧ windowFlags (windowShift fw) = flags := by
  cases hwindow : windowExhausted fw with
  | true =>
    rw [windowFlags_of_exhausted hwindow] at hflags
    cases hflags
  | false =>
    rw [windowFlags_of_not_exhausted hwindow] at hflags
    injection hflags with hflag hrest
    exact ⟨rfl, hflag, hrest⟩

/-- The sentinel above the flag byte (R102). -/
theorem refill_eq_append (b : Byte) : refill b = 1#1 ++ b := by
  refine BitVec.eq_of_toNat_eq ?_
  rw [refill_toNat, BitVec.toNat_append, ← Nat.shiftLeft_add_eq_or_of_lt b.isLt]
  rfl

/-- A refilled window lists the flag byte's eight bits, bit 0 first (R102, R103). -/
theorem windowFlags_refill (b : Byte) : windowFlags (refill b) = (List.range 8).map b.getLsbD := by
  have hlt := b.isLt
  have hlog : (refill b).toNat.log2 = 8 := by
    rw [refill_toNat, Nat.log2_eq_iff (by omega)]
    omega
  rw [windowFlags, hlog]
  refine List.map_congr_left fun k hk => ?_
  rw [refill_eq_append, BitVec.getLsbD_append, if_pos (List.mem_range.mp hk)]

/-! ## The flag loop by the flag bits (R100, R142) -/

section DecodeSteps

variable {layout : DescLayout} {outMax : Option Nat} {desc : Byte} {steps : Nat} {fw : BitVec 9} {rest out : List Byte}

/-- A decode step whose flag bit is in the window. -/
theorem decodeSteps_of_windowFlags_cons {flag : Bool} {flags : List Bool} (hflags : windowFlags fw = flag :: flags) :
    decodeSteps layout outMax desc (steps + 1) fw rest out =
      decodeToken layout outMax desc flag rest out >>= fun token =>
        decodeSteps layout outMax desc steps (windowShift fw) token.1 token.2 := by
  obtain ⟨hwindow, hflag, -⟩ := flagtake_of_windowFlags hflags
  have hensure : ensureFlag fw rest = .ok (fw, rest) := by
    simp only [ensureFlag, hwindow, Bool.false_eq_true, if_false]
  rw [decodeSteps_succ, hensure]
  dsimp only [bind, Except.bind]
  rw [hflag]

/-- A decode step that loads a flag byte first goes on as one with that byte in the window. -/
theorem decodeSteps_of_windowFlags_nil (hflags : windowFlags fw = []) (b : Byte) :
    decodeSteps layout outMax desc (steps + 1) fw (b :: rest) out =
      decodeSteps layout outMax desc (steps + 1) (refill b) rest out := by
  have hensure : ensureFlag fw (b :: rest) = .ok (refill b, rest) := by
    simp only [ensureFlag, windowExhausted_of_windowFlags_nil hflags, if_true]
  have hrefilled : ensureFlag (refill b) rest = .ok (refill b, rest) := by
    simp only [ensureFlag, windowExhausted_refill, Bool.false_eq_true, if_false]
  rw [decodeSteps_succ, decodeSteps_succ, hensure, hrefilled]

theorem decodeSteps_of_windowFlags_nil_of_nil (hflags : windowFlags fw = []) :
    decodeSteps layout outMax desc (steps + 1) fw [] out = .error .truncatedStream := by
  have hensure : ensureFlag fw [] = .error .truncatedStream := by
    simp only [ensureFlag, windowExhausted_of_windowFlags_nil hflags, if_true]
  rw [decodeSteps_succ, hensure]
  rfl

end DecodeSteps

/-! ## Listings: the flag bytes and the operands of the tokens (R66, R71) -/

/-- Where a flag bit and a token have the same number, the bit is the token's. -/
def FlagsAgree (flags : List Bool) (ts : List Token) : Prop :=
  ∀ (i : Nat) (flag : Bool) (t : Token), flags[i]? = some flag → ts[i]? = some t → flag = t.flag

theorem FlagsAgree.head {flag : Bool} {flags : List Bool} {t : Token} {ts : List Token}
    (h : FlagsAgree (flag :: flags) (t :: ts)) : flag = t.flag :=
  h 0 flag t rfl rfl

theorem FlagsAgree.tail {flag : Bool} {flags : List Bool} {t : Token} {ts : List Token}
    (h : FlagsAgree (flag :: flags) (t :: ts)) : FlagsAgree flags ts :=
  fun i => h (i + 1)

theorem flagNumber_testBit {ts : List Token} {i : Nat} {t : Token} (ht : ts[i]? = some t) :
    (flagNumber ts).testBit i = t.flag := by
  induction ts generalizing i with
  | nil => cases ht
  | cons u ts ih =>
    cases i with
    | zero =>
      obtain rfl : u = t := Option.some.inj ht
      rw [flagNumber, Nat.testBit_zero]
      cases u.flag <;> simp
    | succ i =>
      have hhalf : (u.flag.toNat + 2 * flagNumber ts) / 2 = flagNumber ts := by
        have := u.flag.toNat_le
        omega
      rw [flagNumber, Nat.testBit_succ, hhalf]
      exact ih ht

/-- Bit `i` of the flag byte is the flag of token `i` of its eight (R63). -/
theorem flagByteOf_flagsAgree (ts : List Token) : FlagsAgree ((List.range 8).map (flagByteOf ts).getLsbD) ts := by
  intro i flag t hflag ht
  rw [List.getElem?_map] at hflag
  obtain ⟨k, hk, rfl⟩ := Option.map_eq_some_iff.mp hflag
  obtain ⟨hi, rfl⟩ := List.getElem?_eq_some_iff.mp hk
  rw [List.length_range] at hi
  have htake : (ts.take 8)[i]? = some t := by rw [List.getElem?_take_of_lt hi, ht]
  rw [List.getElem_range, flagByteOf, BitVec.getLsbD_ofNat, flagNumber_testBit htake, decide_eq_true hi, Bool.true_and]

/-- What one token stands for (R110, R120). -/
def Token.effect (layout : DescLayout) (outMax : Option Nat) (desc : Byte) : Token → List Byte → Except ErrKind (List Byte)
  | .lit value => pushByte outMax value
  | .ref dist => backrefToken layout outMax desc dist

section Listings

variable {layout : DescLayout} {outMax : Option Nat} {desc : Byte}

theorem expandTokens_cons (t : Token) (ts : List Token) (out : List Byte) :
    expandTokens layout outMax desc (t :: ts) out =
      t.effect layout outMax desc out >>= expandTokens layout outMax desc ts := by
  cases t with
  | lit value =>
    rw [expandTokens, Token.effect]
    cases pushByte outMax value out <;> rfl
  | ref dist =>
    rw [expandTokens, Token.effect]
    cases backrefToken layout outMax desc dist out <;> rfl

/-- A token's operand under its flag is decoded to what the token stands for. -/
theorem decodeToken_operand (t : Token) (rest out : List Byte) :
    decodeToken layout outMax desc t.flag (t.operand ++ rest) out = (rest, ·) <$> t.effect layout outMax desc out := by
  cases t with
  | lit value => exact decodeToken_literal layout outMax desc value rest out
  | ref dist =>
    have h := decodeToken_backref layout outMax desc (dist.extractLsb' 8 8) (dist.extractLsb' 0 8) rest out
    rw [bigEndian16_extractLsb'] at h
    exact h

/-- Assembled tokens from number `k` on, read with the flag bits of the tokens up to the next flag byte in the window. -/
theorem decodeSteps_assembleTokens {fw : BitVec 9} {k : Nat} {ts : List Token} (tail out : List Byte)
    (hcount : (windowFlags fw).length = (8 - k % 8) % 8) (hagree : FlagsAgree (windowFlags fw) ts) :
    decodeSteps layout outMax desc ts.length fw (assembleTokens k ts ++ tail) out =
      (tail, ·) <$> expandTokens layout outMax desc ts out := by
  induction ts generalizing fw k out with
  | nil => rfl
  | cons t ts ih =>
    have hstep {fw : BitVec 9} {flag : Bool} {flags : List Bool} (hflags : windowFlags fw = flag :: flags)
        (hcount : flags.length = (8 - (k + 1) % 8) % 8) (hagree : FlagsAgree (flag :: flags) (t :: ts)) :
        decodeSteps layout outMax desc (ts.length + 1) fw (t.operand ++ (assembleTokens (k + 1) ts ++ tail)) out =
          (tail, ·) <$> expandTokens layout outMax desc (t :: ts) out := by
      obtain ⟨-, -, hlater⟩ := flagtake_of_windowFlags hflags
      rw [decodeSteps_of_windowFlags_cons hflags, hagree.head, decodeToken_operand, expandTokens_cons]
      cases t.effect layout outMax desc out with
      | error e => rfl
      | ok out' => exact ih out' (hlater ▸ hcount) (hlater ▸ hagree.tail)
    rw [assembleTokens, List.length_cons, List.append_assoc, List.append_assoc]
    by_cases hbyte : k % 8 = 0
    · have hempty : windowFlags fw = [] := List.length_eq_zero_iff.mp (by omega)
      have hbits := windowFlags_refill (flagByteOf (t :: ts))
      have hbitsAgree := flagByteOf_flagsAgree (t :: ts)
      rw [if_pos hbyte, List.singleton_append, decodeSteps_of_windowFlags_nil hempty]
      exact hstep hbits (by simp; omega) hbitsAgree
    · rw [if_neg hbyte, List.nil_append]
      cases hflags : windowFlags fw with
      | nil =>
        rw [hflags, List.length_nil] at hcount
        omega
      | cons flag flags =>
        rw [hflags] at hcount hagree
        rw [List.length_cons] at hcount
        exact hstep hflags (by omega) hagree

end Listings

/-- Settles O57: the header gives back descriptor and count, and the flag loop reads the assembled tokens back with the tail left. -/
theorem assembledListingDecodes : Obligations.AssembledListingDecodes := by
  intro params inclTail l hwf
  have hsteps : (stepsOf l.count).toNat = l.tokens.length := by
    rw [stepsOf_toNat]
    exact (beq_iff_eq.mp hwf).symm
  have hloop := decodeSteps_assembleTokens (layout := params.layout) (outMax := params.outMax) (desc := l.desc) (fw := 0) (k := 0)
    (ts := l.tokens) l.tail [] rfl nofun
  have hrun := decodeRun_stream (params := params) (tinyEn := false) (inclTail := inclTail) (desc := l.desc)
    (hi := l.count.extractLsb' 16 8) (mid := l.count.extractLsb' 8 8) (lo := l.count.extractLsb' 0 8)
    (rest := assembleTokens 0 l.tokens ++ l.tail) nofun
  rw [bigEndian24_extractLsb', hsteps, hloop] at hrun
  have hbytes : l.assemble = l.desc :: l.count.extractLsb' 16 8 :: l.count.extractLsb' 8 8 :: l.count.extractLsb' 0 8 ::
      (assembleTokens 0 l.tokens ++ l.tail) := by
    rw [Listing.assemble, List.append_assoc]
    rfl
  rw [hbytes, hrun]
  cases expandTokens params.layout params.outMax l.desc l.tokens [] <;> rfl

end Sys2Proof.Machine

/-! # Whole streams: the stream check, the bound on OUT, and the bytes consumed (30_encoding.md R73, 95_test_vectors.md section 8)

`isOk_decodeSteps` ties the flag loop with OUT unbounded to the length-only check, `OnlyBounds` a run with OUT bounded to the run
without the bound, and `decodeSteps_consumes` the loop to the bytes it reads. -/

namespace Sys2Proof.Machine

/-! ## Without a bound nothing that appends can fail (R46) -/

@[simp] theorem pushByte_none (v : Byte) (out : List Byte) : pushByte none v out = .ok (out ++ [v]) :=
  if_neg nofun

theorem pushAll_none (vs out : List Byte) : pushAll none vs out = .ok (out ++ vs) := by
  induction vs generalizing out with
  | nil => rw [pushAll, List.append_nil]
  | cons v vs ih =>
    rw [pushAll_cons, pushByte_none]
    refine (ih (out ++ [v])).trans ?_
    rw [List.append_assoc, List.singleton_append]

/-- A copy inside the output so far appends its length (R126, R127). -/
theorem copyBack_none {disp : Nat} (length : Nat) {out : List Byte} (hdisp : 0 < disp) (hrange : disp ≤ out.length) :
    ∃ out', copyBack none disp length out = .ok out' ∧ out'.length = out.length + length := by
  induction length generalizing out with
  | zero => exact ⟨out, rfl, rfl⟩
  | succ length ih =>
    have hlt : out.length - disp < out.length := by omega
    obtain ⟨out', hcopy, hlen⟩ := ih (out := out ++ [out[out.length - disp]]) (by rw [List.length_append]; omega)
    rw [copyBack_succ (List.getElem?_eq_getElem hlt), pushByte_none]
    refine ⟨out', hcopy, ?_⟩
    rw [hlen, List.length_append, List.length_singleton]
    omega

section StreamCheck

variable {layout : DescLayout} {desc : Byte}

/-- A back-reference is carried out exactly where its operand is well formed (R69), and appends the one length of R129 (a). -/
theorem backrefToken_none_cases {dist : BitVec 16} {out : List Byte} :
    (refIndexBit (lenBitsOf layout desc) dist = true ∧ refDisplacement (lenBitsOf layout desc) dist ≤ out.length ∧
      ∃ out', backrefToken layout none desc dist out = .ok out' ∧ out'.length = out.length + copyLengthOf layout desc) ∨
    (¬(refIndexBit (lenBitsOf layout desc) dist = true ∧ refDisplacement (lenBitsOf layout desc) dist ≤ out.length) ∧
      ∃ e, backrefToken layout none desc dist out = .error e) := by
  cases hbit : refIndexBit (lenBitsOf layout desc) dist with
  | false => exact .inr ⟨nofun, _, backrefToken_of_clear hbit⟩
  | true =>
    have hodd := refDisplacement_odd.mpr hbit
    rw [backrefToken_of_set hbit, displacementOf_toNat]
    by_cases hrange : refDisplacement (lenBitsOf layout desc) dist ≤ out.length
    · rw [if_neg (Nat.not_lt.mpr hrange)]
      exact .inl ⟨rfl, hrange, copyBack_none _ (by omega) hrange⟩
    · rw [if_pos (Nat.lt_of_not_le hrange)]
      exact .inr ⟨fun h => hrange h.2, _, rfl⟩

/-! ## The length-only check (R73) -/

/-- The check loads a flag byte as the flag loop does. -/
theorem stepsFit_nil_cons (steps : Nat) (b : Byte) (rest : List Byte) (outLen : Nat) :
    stepsFit layout desc (steps + 1) [] (b :: rest) outLen =
      stepsFit layout desc (steps + 1) (windowFlags (refill b)) rest outLen := by
  rw [windowFlags_refill, show (List.range 8).map b.getLsbD = b.getLsbD 0 :: stepsFit.laterFlags b from rfl, stepsFit.eq_def]
  dsimp only
  cases b.getLsbD 0 with
  | true => cases rest <;> rfl
  | false =>
    match rest with
    | [] | [_] | _ :: _ :: _ => rfl

/-- The flag loop with OUT unbounded succeeds exactly where the check does. -/
theorem isOk_decodeSteps (steps : Nat) (fw : BitVec 9) (rest out : List Byte) :
    (decodeSteps layout none desc steps fw rest out).isOk = stepsFit layout desc steps (windowFlags fw) rest out.length := by
  induction steps generalizing fw rest out with
  | zero => rw [decodeSteps, stepsFit]; rfl
  | succ steps ih =>
    have hstep {fw : BitVec 9} {flag : Bool} {flags : List Bool} (rest : List Byte) (hflags : windowFlags fw = flag :: flags) :
        (decodeSteps layout none desc (steps + 1) fw rest out).isOk =
          stepsFit layout desc (steps + 1) (flag :: flags) rest out.length := by
      obtain ⟨-, -, hlater⟩ := flagtake_of_windowFlags hflags
      rw [decodeSteps_of_windowFlags_cons hflags]
      match flag, rest with
      | true, [] => rfl
      | true, v :: rest =>
        rw [decodeToken_literal, pushByte_none, stepsFit, ← hlater, ← List.length_singleton (a := v), ← List.length_append]
        exact ih (windowShift fw) rest (out ++ [v])
      | false, [] => rfl
      | false, [_] => rfl
      | false, hi :: lo :: rest =>
        rw [decodeToken_backref, stepsFit]
        rcases backrefToken_none_cases (layout := layout) (desc := desc) (dist := bigEndian16 hi lo) (out := out) with
          ⟨hbit, hrange, out', htoken, hlen⟩ | ⟨hillFormed, e, htoken⟩
        · rw [htoken, hbit, decide_eq_true hrange, ← hlen, ← hlater]
          exact ih (windowShift fw) rest out'
        · have hrefused : (refIndexBit (lenBitsOf layout desc) (bigEndian16 hi lo) &&
              decide (refDisplacement (lenBitsOf layout desc) (bigEndian16 hi lo) ≤ out.length)) = false := by
            simpa using hillFormed
          rw [htoken, hrefused, Bool.false_and]
          rfl
    cases hflags : windowFlags fw with
    | cons flag flags => exact hstep rest hflags
    | nil =>
      cases rest with
      | nil => rw [decodeSteps_of_windowFlags_nil_of_nil hflags]; rfl
      | cons b rest =>
        rw [decodeSteps_of_windowFlags_nil hflags, stepsFit_nil_cons, windowFlags_refill]
        exact hstep rest (windowFlags_refill b)

end StreamCheck

/-! ## A run with OUT bounded against the run without the bound (R46) -/

/-- `bounded` is `unbounded` as long as the output, `n` bytes before and `len a` after, stays within `m`. -/
structure OnlyBounds {α : Type} (m n : Nat) (len : α → Nat) (bounded unbounded : Except ErrKind α) : Prop where
  grows : ∀ a, unbounded = .ok a → n ≤ len a
  agrees : n ≤ m → ∀ a, bounded = .ok a ↔ unbounded = .ok a ∧ len a ≤ m

section OnlyBounds

variable {α β : Type} {m n : Nat} {len : α → Nat} {len' : β → Nat} {r r₀ : Except ErrKind α}

theorem OnlyBounds.error (e : ErrKind) : OnlyBounds m n len (.error e) (.error e) :=
  ⟨nofun, by simp⟩

theorem OnlyBounds.pure (a : α) : OnlyBounds m (len a) len (.ok a) (.ok a) where
  grows b h := by
    cases h
    rfl
  agrees hle b := by
    refine ⟨fun h => ⟨h, ?_⟩, And.left⟩
    cases h
    exact hle

theorem OnlyBounds.bind {f f₀ : α → Except ErrKind β} (h : OnlyBounds m n len r r₀)
    (hf : ∀ a, OnlyBounds m (len a) len' (f a) (f₀ a)) : OnlyBounds m n len' (r >>= f) (r₀ >>= f₀) := by
  have hbind {r : Except ErrKind α} {f : α → Except ErrKind β} {b : β} :
      (r >>= f) = .ok b ↔ ∃ a, r = .ok a ∧ f a = .ok b := by
    cases r <;> simp [Bind.bind, Except.bind]
  refine ⟨fun b hb => ?_, fun hle b => ?_⟩
  · obtain ⟨a, ha, hb⟩ := hbind.mp hb
    exact (h.grows a ha).trans ((hf a).grows b hb)
  · rw [hbind, hbind]
    constructor
    · rintro ⟨a, ha, hb⟩
      obtain ⟨ha, hfits⟩ := (h.agrees hle a).mp ha
      obtain ⟨hb, hbfits⟩ := ((hf a).agrees hfits b).mp hb
      exact ⟨⟨a, ha, hb⟩, hbfits⟩
    · rintro ⟨⟨a, ha, hb⟩, hbfits⟩
      have hfits := ((hf a).grows b hb).trans hbfits
      exact ⟨a, (h.agrees hle a).mpr ⟨ha, hfits⟩, ((hf a).agrees hfits b).mpr ⟨hb, hbfits⟩⟩

theorem OnlyBounds.map {f : α → β} (h : OnlyBounds m n (len' ∘ f) r r₀) : OnlyBounds m n len' (f <$> r) (f <$> r₀) := by
  have hbind := h.bind (f := fun a => .ok (f a)) (f₀ := fun a => .ok (f a)) fun a => .pure (len := len') (f a)
  cases r <;> cases r₀ <;> exact hbind

variable {layout : DescLayout} {desc : Byte}

theorem onlyBounds_pushByte (m : Nat) (v : Byte) (out : List Byte) :
    OnlyBounds m out.length List.length (pushByte (some m) v out) (pushByte none v out) := by
  rw [pushByte_none]
  refine ⟨fun out' hout => ?_, fun hle out' => ?_⟩
  · cases hout
    simp
  · rw [pushByte]
    split
    next hfull =>
      cases hfull
      refine ⟨nofun, ?_⟩
      rintro ⟨hout, hfits⟩
      cases hout
      simp at hfits
    next hroom =>
      refine ⟨fun hout => ⟨hout, ?_⟩, And.left⟩
      cases hout
      have hne : m ≠ out.length := fun heq => hroom (congrArg some heq)
      rw [List.length_append, List.length_singleton]
      omega

theorem onlyBounds_pushAll (m : Nat) (vs out : List Byte) :
    OnlyBounds m out.length List.length (pushAll (some m) vs out) (pushAll none vs out) := by
  induction vs generalizing out with
  | nil => exact .pure out
  | cons v vs ih =>
    rw [pushAll_cons, pushAll_cons]
    exact (onlyBounds_pushByte m v out).bind ih

theorem onlyBounds_copyBack (m disp length : Nat) (out : List Byte) :
    OnlyBounds m out.length List.length (copyBack (some m) disp length out) (copyBack none disp length out) := by
  induction length generalizing out with
  | zero => exact .pure out
  | succ length ih =>
    cases hread : out[out.length - disp]? with
    | none =>
      simp only [copyBack, hread]
      exact .error _
    | some b =>
      rw [copyBack_succ hread, copyBack_succ hread]
      exact (onlyBounds_pushByte m b out).bind ih

theorem onlyBounds_backrefToken (m : Nat) (dist : BitVec 16) (out : List Byte) :
    OnlyBounds m out.length List.length (backrefToken layout (some m) desc dist out) (backrefToken layout none desc dist out) := by
  cases hbit : refIndexBit (lenBitsOf layout desc) dist with
  | false =>
    rw [backrefToken_of_clear hbit, backrefToken_of_clear hbit]
    exact .error _
  | true =>
    rw [backrefToken_of_set hbit, backrefToken_of_set hbit]
    split
    · exact .error _
    · exact onlyBounds_copyBack ..

theorem onlyBounds_decodeToken (m : Nat) (flag : Bool) (rest out : List Byte) :
    OnlyBounds m out.length (·.2.length) (decodeToken layout (some m) desc flag rest out)
      (decodeToken layout none desc flag rest out) := by
  match flag, rest with
  | true, [] | false, [] | false, [_] => exact .error _
  | true, v :: rest =>
    rw [decodeToken_literal, decodeToken_literal]
    exact .map (onlyBounds_pushByte m v out)
  | false, hi :: lo :: rest =>
    rw [decodeToken_backref, decodeToken_backref]
    exact .map (onlyBounds_backrefToken m _ out)

theorem onlyBounds_decodeSteps (m steps : Nat) (fw : BitVec 9) (rest out : List Byte) :
    OnlyBounds m out.length (·.2.length) (decodeSteps layout (some m) desc steps fw rest out)
      (decodeSteps layout none desc steps fw rest out) := by
  induction steps generalizing fw rest out with
  | zero => exact .pure (len := fun final : List Byte × List Byte => final.2.length) (rest, out)
  | succ steps ih =>
    rw [decodeSteps_succ, decodeSteps_succ]
    cases ensureFlag fw rest with
    | error e => exact .error e
    | ok window => exact (onlyBounds_decodeToken m _ window.2 out).bind fun token => ih _ token.1 token.2

/-- The result of a run, as what its parts answer. -/
theorem resultOf_eq_done {result : α → RunResult} {out : List Byte} {consumed : Nat} {overflow : Option (List Byte)} :
    resultOf r result = .done out consumed overflow ↔ ∃ a, r = .ok a ∧ result a = .done out consumed overflow := by
  cases r <;> simp [resultOf]

/-- `OnlyBounds` for a result of the run. -/
structure OnlyBoundsRun (m n : Nat) (bounded unbounded : RunResult) : Prop where
  grows : ∀ out consumed overflow, unbounded = .done out consumed overflow → n ≤ out.length
  agrees : n ≤ m → ∀ out consumed overflow,
    bounded = .done out consumed overflow ↔ unbounded = .done out consumed overflow ∧ out.length ≤ m

theorem OnlyBounds.resultOf {result result₀ : α → RunResult} (h : OnlyBounds m n len r r₀)
    (hresult : ∀ a, OnlyBoundsRun m (len a) (result a) (result₀ a)) :
    OnlyBoundsRun m n (resultOf r result) (Machine.resultOf r₀ result₀) := by
  refine ⟨fun out consumed overflow hdone => ?_, fun hle out consumed overflow => ?_⟩
  · obtain ⟨a, ha, hdone⟩ := resultOf_eq_done.mp hdone
    exact (h.grows a ha).trans ((hresult a).grows _ _ _ hdone)
  · rw [resultOf_eq_done, resultOf_eq_done]
    constructor
    · rintro ⟨a, ha, hdone⟩
      obtain ⟨ha, hfits⟩ := (h.agrees hle a).mp ha
      obtain ⟨hdone, hdoneFits⟩ := ((hresult a).agrees hfits _ _ _).mp hdone
      exact ⟨⟨a, ha, hdone⟩, hdoneFits⟩
    · rintro ⟨⟨a, ha, hdone⟩, hdoneFits⟩
      have hfits := ((hresult a).grows _ _ _ hdone).trans hdoneFits
      exact ⟨a, (h.agrees hle a).mpr ⟨ha, hfits⟩, ((hresult a).agrees hfits _ _ _).mpr ⟨hdone, hdoneFits⟩⟩

theorem OnlyBoundsRun.done (m : Nat) (out : List Byte) (consumed : Nat) (overflow : Option (List Byte)) :
    OnlyBoundsRun m out.length (.done out consumed overflow) (.done out consumed overflow) := by
  refine ⟨fun _ _ _ h => ?_, fun hle _ _ _ => ⟨fun h => ⟨h, ?_⟩, And.left⟩⟩
  · cases h
    rfl
  · cases h
    exact hle

theorem onlyBoundsRun_fault (e : ErrKind) : OnlyBoundsRun m n (.fault e) (.fault e) :=
  ⟨nofun, by simp⟩

theorem onlyBounds_finishRun (m : Nat) (inclTail : Bool) (inputLength : Nat) (rest out : List Byte) :
    OnlyBoundsRun m out.length (finishRun (some m) inclTail inputLength rest out) (finishRun none inclTail inputLength rest out) := by
  cases inclTail with
  | false => exact .done m out _ _
  | true =>
    rw [finishRun_join, finishRun_join]
    exact (onlyBounds_pushAll m rest out).resultOf fun out' => .done m out' _ _

/-- Without the shortcut, an input has no whole header or is a stream. -/
theorem exists_header_bytes (inp : List Byte) :
    inp.length < 4 ∨ ∃ desc hi mid lo rest, inp = desc :: hi :: mid :: lo :: rest := by
  match inp with
  | desc :: hi :: mid :: lo :: rest => exact .inr ⟨desc, hi, mid, lo, rest, rfl⟩
  | [] | [_] | [_, _] | [_, _, _] => exact .inl (by simp)

/-- A run that ends in DONE with OUT bounded is the run without the bound, where its output fits. -/
theorem decodeRun_bounded {params : Params} {tinyEn inclTail : Bool} {inp out : List Byte} {consumed : Nat}
    {overflow : Option (List Byte)} (hmax : params.outMax = some m) :
    decodeRun params tinyEn inclTail inp = .done out consumed overflow ↔
      decodeRun { params with outMax := none } tinyEn inclTail inp = .done out consumed overflow ∧ out.length ≤ m := by
  suffices hbounds : OnlyBoundsRun m 0 (decodeRun params tinyEn inclTail inp)
      (decodeRun { params with outMax := none } tinyEn inclTail inp) from hbounds.agrees m.zero_le _ _ _
  by_cases htiny : tinyEn = true ∧ inp.length ≤ tinyInputLimit
  · rw [decodeRun_tiny htiny, decodeRun_tiny htiny, hmax]
    exact (onlyBounds_pushAll m inp []).resultOf fun out' => .done m out' _ _
  · rcases exists_header_bytes inp with hshort | ⟨desc, hi, mid, lo, rest, rfl⟩
    · rw [decodeRun_short htiny hshort, decodeRun_short htiny hshort]
      exact onlyBoundsRun_fault _
    · rw [decodeRun_stream htiny, decodeRun_stream htiny, hmax]
      exact (onlyBounds_decodeSteps m _ 0 rest []).resultOf fun final => onlyBounds_finishRun m inclTail _ final.1 final.2

end OnlyBounds

/-! ## Which streams decode to DONE (R73) -/

theorem exists_done_of_isOk {α : Type} {r : Except ErrKind α} {result : α → RunResult}
    (hresult : ∀ a, ∃ out consumed overflow, result a = .done out consumed overflow) :
    (∃ out consumed overflow, resultOf r result = .done out consumed overflow) ↔ r.isOk = true := by
  cases r with
  | error e => simp [resultOf, Except.isOk, Except.toBool]
  | ok a => simpa [resultOf, Except.isOk, Except.toBool] using hresult a

theorem exists_done_finishRun_none (inclTail : Bool) (inputLength : Nat) (rest out : List Byte) :
    ∃ out' consumed overflow, finishRun none inclTail inputLength rest out = .done out' consumed overflow := by
  cases inclTail with
  | false => exact ⟨_, _, _, rfl⟩
  | true =>
    rw [finishRun_join, pushAll_none]
    exact ⟨_, _, _, rfl⟩

/-- With OUT unbounded the check alone decides. -/
theorem exists_done_iff_streamWellFormed {params : Params} {tinyEn inclTail : Bool} {inp : List Byte}
    (hmax : params.outMax = none) (htiny : ¬(tinyEn = true ∧ inp.length ≤ tinyInputLimit)) :
    (∃ out consumed overflow, decodeRun params tinyEn inclTail inp = .done out consumed overflow) ↔
      streamWellFormed params.layout inp = true := by
  rcases exists_header_bytes inp with hshort | ⟨desc, hi, mid, lo, rest, rfl⟩
  · have hrefused : ¬5 ≤ inp.length := by omega
    simp [decodeRun_short htiny hshort, streamWellFormed, hrefused]
  · rw [decodeRun_stream htiny, hmax, exists_done_of_isOk fun final => exists_done_finishRun_none ..,
      isOk_decodeSteps, streamWellFormed, stepsOf_toNat, windowFlags_zero, List.length_nil]
    cases rest with
    | nil => rfl
    | cons b rest => simp

/-- Settles O56: with OUT unbounded the check decides, and a bound only asks the same run's output to fit. -/
theorem streamCheckDecidesDone : Obligations.StreamCheckDecidesDone := by
  intro params tinyEn inclTail inp hlong
  have htiny : ¬(tinyEn = true ∧ inp.length ≤ tinyInputLimit) := fun ⟨htiny, hshort⟩ =>
    absurd (hlong htiny) (Nat.not_le.mpr (Nat.lt_succ_of_le hshort))
  cases hmax : params.outMax with
  | none => simpa using exists_done_iff_streamWellFormed hmax htiny
  | some m =>
    have hunbounded := exists_done_iff_streamWellFormed (params := { params with outMax := none }) (inclTail := inclTail) rfl htiny
    change _ ↔ streamWellFormed params.layout inp = true at hunbounded
    rw [← hunbounded]
    simp only [decodeRun_bounded hmax]
    constructor
    · rintro ⟨out, consumed, overflow, hdone, hfits⟩
      refine ⟨⟨out, consumed, overflow, hdone⟩, fun m' out' consumed' overflow' hm' hdone' => ?_⟩
      cases hm'
      cases hdone.symm.trans hdone'
      exact hfits
    · rintro ⟨⟨out, consumed, overflow, hdone⟩, hfits⟩
      exact ⟨out, consumed, overflow, hdone, hfits m out consumed overflow rfl hdone⟩

/-! ## The bytes a run consumes (95_test_vectors.md section 8) -/

section Consumes

variable {layout : DescLayout} {outMax : Option Nat} {desc : Byte} {rest left out out' : List Byte}

theorem map_eq_ok {α β : Type} {f : α → β} {r : Except ErrKind α} {b : β} (h : f <$> r = .ok b) :
    ∃ a, r = .ok a ∧ f a = b := by
  cases r with
  | error e => cases h
  | ok a =>
    cases h
    exact ⟨a, rfl, rfl⟩

/-- A token reads its operand, and nothing of what follows. -/
theorem decodeToken_consumes {flag : Bool} (h : decodeToken layout outMax desc flag rest out = .ok (left, out')) :
    ∃ used, rest = used ++ left ∧
      ∀ left', decodeToken layout outMax desc flag (used ++ left') out = .ok (left', out') := by
  match flag, rest with
  | true, [] | false, [] | false, [_] => cases h
  | true, v :: rest =>
    rw [decodeToken_literal] at h
    obtain ⟨a, hpush, heq⟩ := map_eq_ok h
    cases heq
    refine ⟨[v], rfl, fun left' => ?_⟩
    rw [List.singleton_append, decodeToken_literal, hpush]
    rfl
  | false, hi :: lo :: rest =>
    rw [decodeToken_backref] at h
    obtain ⟨a, htoken, heq⟩ := map_eq_ok h
    cases heq
    refine ⟨[hi, lo], rfl, fun left' => ?_⟩
    rw [List.cons_append, List.singleton_append, decodeToken_backref, htoken]
    rfl

/-- The flag loop reads its flag bytes and tokens, and nothing of what follows. -/
theorem decodeSteps_consumes {steps : Nat} {fw : BitVec 9}
    (h : decodeSteps layout outMax desc steps fw rest out = .ok (left, out')) :
    ∃ used, rest = used ++ left ∧
      ∀ left', decodeSteps layout outMax desc steps fw (used ++ left') out = .ok (left', out') := by
  induction steps generalizing fw rest out with
  | zero =>
    cases h
    exact ⟨[], rfl, fun _ => rfl⟩
  | succ steps ih =>
    have hstep {fw : BitVec 9} {flag : Bool} {flags : List Bool} {rest : List Byte} (hflags : windowFlags fw = flag :: flags)
        (h : decodeSteps layout outMax desc (steps + 1) fw rest out = .ok (left, out')) :
        ∃ used, rest = used ++ left ∧
          ∀ left', decodeSteps layout outMax desc (steps + 1) fw (used ++ left') out = .ok (left', out') := by
      rw [decodeSteps_of_windowFlags_cons hflags] at h
      cases htoken : decodeToken layout outMax desc flag rest out with
      | error e =>
        rw [htoken] at h
        cases h
      | ok token =>
        rw [htoken] at h
        obtain ⟨operand, rfl, hoperand⟩ := decodeToken_consumes htoken
        obtain ⟨later, hlater, hloop⟩ := ih h
        refine ⟨operand ++ later, by rw [hlater, List.append_assoc], fun left' => ?_⟩
        rw [decodeSteps_of_windowFlags_cons hflags, List.append_assoc, hoperand]
        exact hloop left'
    cases hflags : windowFlags fw with
    | cons flag flags => exact hstep hflags h
    | nil =>
      cases rest with
      | nil =>
        rw [decodeSteps_of_windowFlags_nil_of_nil hflags] at h
        cases h
      | cons b rest =>
        rw [decodeSteps_of_windowFlags_nil hflags] at h
        obtain ⟨used, rfl, hloop⟩ := hstep (windowFlags_refill b) h
        refine ⟨b :: used, rfl, fun left' => ?_⟩
        rw [List.cons_append, decodeSteps_of_windowFlags_nil hflags]
        exact hloop left'

/-- A DONE run with an overflow came through the flag loop, on a header and the bytes the loop used. -/
theorem decodeRun_overflow {params : Params} {tinyEn : Bool} {inp : List Byte} {consumed : Nat}
    (h : decodeRun params tinyEn false inp = .done out consumed (some rest)) :
    ∃ desc hi mid lo used, inp = desc :: hi :: mid :: lo :: (used ++ rest) ∧ consumed = 4 + used.length ∧
      ¬(tinyEn = true ∧ inp.length ≤ tinyInputLimit) ∧
      ∀ rest', decodeSteps params.layout params.outMax desc (stepsOf (bigEndian24 hi mid lo)).toNat 0 (used ++ rest') [] =
        .ok (rest', out) := by
  by_cases htiny : tinyEn = true ∧ inp.length ≤ tinyInputLimit
  · rw [decodeRun_tiny htiny] at h
    obtain ⟨a, -, ha⟩ := resultOf_eq_done.mp h
    cases ha
  · rcases exists_header_bytes inp with hshort | ⟨desc, hi, mid, lo, bytes, rfl⟩
    · rw [decodeRun_short htiny hshort] at h
      cases h
    · rw [decodeRun_stream htiny] at h
      obtain ⟨⟨left, out'⟩, hloop, hfinish⟩ := resultOf_eq_done.mp h
      rw [finishRun_split] at hfinish
      obtain ⟨used, rfl, hused⟩ := decodeSteps_consumes hloop
      cases hfinish
      refine ⟨desc, hi, mid, lo, used, rfl, ?_, htiny, hused⟩
      simp only [List.length_cons, List.length_append]
      omega

end Consumes

/-- Settles O58: both runs go through the same flag loop, and with OUT unbounded the tail is appended whole. -/
theorem tailSplitsOrJoins : Obligations.TailSplitsOrJoins := by
  intro params tinyEn inp out rest consumed hmax h
  obtain ⟨desc, hi, mid, lo, used, rfl, rfl, htiny, hloop⟩ := decodeRun_overflow h
  constructor
  · rw [decodeRun_stream htiny, hloop]
    change finishRun params.outMax true _ rest out = _
    rw [finishRun_join, hmax, pushAll_none]
    rfl
  · rw [show 4 + used.length = (desc :: hi :: mid :: lo :: used).length by simp only [List.length_cons]; omega]
    exact (List.drop_left (l₁ := desc :: hi :: mid :: lo :: used)).symm

/-- Settles O59: the header and the bytes the flag loop used are the bytes consumed, and the loop reads no others. -/
theorem doneDependsOnConsumedBytes : Obligations.DoneDependsOnConsumedBytes := by
  intro params inp out rest rest' consumed h
  obtain ⟨desc, hi, mid, lo, used, rfl, rfl, -, hloop⟩ := decodeRun_overflow h
  have htake : (desc :: hi :: mid :: lo :: (used ++ rest)).take (4 + used.length) = desc :: hi :: mid :: lo :: used := by
    rw [show 4 + used.length = (desc :: hi :: mid :: lo :: used).length by simp only [List.length_cons]; omega]
    exact List.take_left (l₁ := desc :: hi :: mid :: lo :: used)
  rw [htake]
  change decodeRun params false false (desc :: hi :: mid :: lo :: (used ++ rest')) = _
  rw [decodeRun_stream (tinyEn := false) (by simp), hloop]
  change finishRun params.outMax false _ rest' out = _
  rw [finishRun_split]
  congr 1
  simp only [List.length_cons, List.length_append]
  omega

end Sys2Proof.Machine

/-! # The engine's moves: which operation ran, where it can fault, what it writes (30_encoding.md R70, 44 R156, R157, 60 R179)

Each statement takes a step of the engine apart by `EngineMove`, where `opcode_eq` says which operation a move is. -/

namespace Sys2Proof.Machine

section Moves

variable {s t : State} {op op' : Opcode}

/-- One operation is enabled at a time (R70). -/
theorem opcode_eq (henabled : enabledOp s = some op) (hselected : SelectedBy s op') : op = op' :=
  Option.some.inj (henabled.symm.trans (enabledOp_of_selectedBy hselected))

/-- FLAGTAKE leads to a token (R101). -/
theorem tokenState_ne {state : EngineState} (flag : Bool)
    (hother : EngineState.literal ≠ state ∧ EngineState.backref ≠ state := by decide) :
    (if flag then EngineState.literal else .backref) ≠ state := by
  split
  · exact hother.1
  · exact hother.2

/-- COUNT leads to the next decode step or to the tail (R145). -/
theorem countState_ne {state : EngineState} (fc : BitVec 25)
    (hother : EngineState.tail ≠ state ∧ EngineState.awaitingFlag ≠ state := by decide) :
    (if fc = 0 then EngineState.tail else .awaitingFlag) ≠ state := by
  split
  · exact hother.1
  · exact hother.2

/-- FAULT is entered by fault entry alone. -/
theorem EngineMove.entersFault (h : EngineMove s t) (hbefore : s.state ≠ .fault) (hafter : t.state = .fault) :
    ∃ op e, enabledOp s = some op ∧ e ∈ raisedBy op ∧ t = faultEntry e s := by
  cases h with
  | fault henabled hraises => exact ⟨_, _, henabled, hraises, rfl⟩
  | quiet | rawCopy | copyByte => exact absurd hafter hbefore
  | flagtake => exact absurd hafter (tokenState_ne _)
  | count => exact absurd hafter (countState_ne _)
  | header | flagfill | literal | backref | copyEnd | finishJoin | finishSplit | tinydone => cases hafter

end Moves

/-- Settles O33: FAULT is entered by fault entry, and `raisedBy` lists the matrix row by row. -/
theorem faultsFollowTheMatrix : Obligations.FaultsFollowTheMatrix := by
  intro s t hhost hbefore hstep hafter
  obtain ⟨op, e, henabled, hraises, rfl⟩ := (EngineMove.of_step hhost hstep).entersFault hbefore hafter
  refine ⟨op, e, henabled, faultEntered_faultEntry e s, ?_⟩
  cases op with
  | start | abort | flagtake | count | finish | tinydone => simp [raisedBy] at hraises
  | header | flagfill | literal | backref | copy | tailcopy | tinycopy => simpa [raisedBy] using hraises

/-- Settles O43: each move starts in the state its operation is selected in; only operations that can raise lead to FAULT. -/
theorem transitionsFollowTheTable : Obligations.TransitionsFollowTheTable := by
  intro s t hhost hstep
  cases EngineMove.of_step hhost hstep with
  | quiet hquiet => rcases enabledOp_eq_none_iff.mp hquiet with hstate | hstate | hstate <;> simp [hstate]
  | @fault op e henabled hraises =>
    have hselected := selectedBy_of_enabledOp henabled
    cases op with
    | start | abort | flagtake | count | finish | tinydone => simp [raisedBy] at hraises
    | header | literal | backref | copy => simp only [SelectedBy] at hselected; simp [hselected]
    | flagfill | tailcopy | tinycopy => simp [hselected.1]
  | flagtake hstate => cases flagBit s.fw <;> simp [hstate]
  | count hstate => split <;> simp [hstate]
  | rawCopy hraw => rcases hraw with hstate | ⟨hstate, -⟩ <;> simp [hstate]
  | header hstate | flagfill hstate | literal hstate | backref hstate | copyByte hstate | copyEnd hstate | finishJoin hstate
  | finishSplit hstate | tinydone hstate => simp [hstate]

/-- R157: the bytes an operation consumes are those of its row in R70. -/
theorem EngineMove.cur {s t : State} {op : Opcode} (h : EngineMove s t) (henabled : enabledOp s = some op)
    (hfault : t.state ≠ .fault) : t.cur = s.cur + op.size := by
  cases h with
  | quiet hquiet => cases hquiet.symm.trans henabled
  | fault => exact absurd rfl hfault
  | header hstate => cases opcode_eq (op' := .header) henabled hstate; rfl
  | flagfill hstate hwindow => cases opcode_eq (op' := .flagfill) henabled ⟨hstate, hwindow⟩; rfl
  | flagtake hstate hwindow => cases opcode_eq (op' := .flagtake) henabled ⟨hstate, hwindow⟩; rfl
  | literal hstate => cases opcode_eq (op' := .literal) henabled hstate; rfl
  | backref hstate => cases opcode_eq (op' := .backref) henabled hstate; rfl
  | copyByte hstate | copyEnd hstate => cases opcode_eq (op' := .copy) henabled hstate; rfl
  | count hstate => cases opcode_eq (op' := .count) henabled hstate; rfl
  | rawCopy hraw v hleft =>
    rcases hraw with hstate | ⟨hstate, hincl⟩
    · cases opcode_eq (op' := .tinycopy) henabled ⟨hstate, hleft⟩; rfl
    · cases opcode_eq (op' := .tailcopy) henabled ⟨hstate, hincl, hleft⟩; rfl
  | finishJoin hstate hincl hleft => cases opcode_eq (op' := .finish) henabled ⟨hstate, fun h => hleft h.2⟩; rfl
  | finishSplit hstate hincl => cases opcode_eq (op' := .finish) henabled ⟨hstate, fun h => by simp [hincl] at h⟩; rfl
  | tinydone hstate hleft => cases opcode_eq (op' := .tinydone) henabled ⟨hstate, hleft⟩; rfl

/-- Settles O44: by the move's operation; fault entry alone leads to FAULT, and clears CUR. -/
theorem cursorAdvancesByBytesConsumed : Obligations.CursorAdvancesByBytesConsumed := by
  intro s t op hhost henabled hstep
  have hmove := EngineMove.of_step hhost hstep
  refine ⟨hmove.cur henabled, fun hafter => ?_⟩
  have hbefore : s.state ≠ .fault := fun hstate => by simp [enabledOp, hstate] at henabled
  obtain ⟨-, e, -, -, rfl⟩ := hmove.entersFault hbefore hafter
  exact faultEntry_cur e s

/-- R17: FLAGTAKE alone writes CARRY. -/
theorem EngineMove.carry {s t : State} {op : Opcode} (h : EngineMove s t) (henabled : enabledOp s = some op)
    (hfault : t.state ≠ .fault) (hop : op ≠ .flagtake) : t.carry = s.carry := by
  cases h with
  | fault => exact absurd rfl hfault
  | flagtake hstate hwindow => exact absurd (opcode_eq (op' := .flagtake) henabled ⟨hstate, hwindow⟩) hop
  | quiet | header | flagfill | literal | backref | copyByte | copyEnd | count | rawCopy | finishJoin | finishSplit | tinydone => rfl

/-- The descriptor registers and the table are computed once in a stream (10_state.md section 3). -/
theorem EngineMove.method {s t : State} (h : EngineMove s t) (hfault : t.state ≠ .fault) (hheader : s.state ≠ .header) :
    t.desc = s.desc ∧ t.shifter = s.shifter ∧ t.lenBits = s.lenBits ∧ t.lenMask = s.lenMask ∧ t.threshold = s.threshold ∧
      t.lt = s.lt := by
  cases h with
  | fault => exact absurd rfl hfault
  | header hstate => exact absurd hstate hheader
  | quiet | flagfill | flagtake | literal | backref | copyByte | copyEnd | count | rawCopy | finishJoin | finishSplit | tinydone =>
    exact ⟨rfl, rfl, rfl, rfl, rfl, rfl⟩

/-- Settles O47: the moves of the other operations leave the registers out. -/
theorem carryAndMethodHaveOneWriter : Obligations.CarryAndMethodHaveOneWriter := by
  intro s t op hhost henabled hstep hfault
  have hmove := EngineMove.of_step hhost hstep
  exact ⟨hmove.carry henabled hfault,
    fun hop => hmove.method hfault fun hstate => hop (opcode_eq (op' := .header) henabled hstate)⟩

/-! # On loaded input the engine never stops (20_memory.md R45, 43_backref.md R122, R127) -/

section NeverStops

variable {s : State}

theorem completes_answers (s : State) (r : Except ErrKind State) : ∃ t, completes s r = .next t := by
  cases r with
  | ok t => exact ⟨t, rfl⟩
  | error e => exact ⟨_, rfl⟩

/-- The only table entry a back-reference reads is one that HEADER built (R122, R129). -/
theorem MethodLoaded.execBackref_answers (h : MethodLoaded s) (dist : BitVec 16) : ∃ t, execBackref dist s = .next t := by
  rcases Nat.lt_or_ge (s.inLen - s.cur) 2 with hshort | hleft
  · exact ⟨_, exec_of_short_operand (i := .backref dist) (.inr (.inr (.inr rfl))) hshort⟩
  · by_cases hmasked : maskedValue s.lenMask dist = 0
    · exact ⟨_, execBackref_of_masked_zero hleft hmasked⟩
    · rw [execBackref_of_entry hleft hmasked (by rw [h.maskedValue_of_ne_zero hmasked, h.tableRead_last])]
      exact completes_answers ..

/-- The copy loop reads a byte below OUT_LEN, and those have been written (R127). -/
theorem LoopInv.execCopy_answers (h : LoopInv s) (hstate : s.state = .copy) : ∃ t, execCopy s = .next t := by
  by_cases hrem : s.rem = 0
  · exact ⟨_, execCopy_of_rem_zero hrem⟩
  · obtain ⟨hdisp, hsrc, -⟩ := h.copying hstate
    have hbelow : s.src < s.outLen := by omega
    obtain ⟨b, hread⟩ := Option.isSome_iff_exists.mp ((h.outFilled s.src).mpr hbelow)
    have hbyte : s.outByte s.src = some b := by rw [State.outByte, if_pos hbelow, hread]
    by_cases hroom : s.params.outMax = some s.outLen
    · exact ⟨_, execCopy_of_full hrem hbyte hroom⟩
    · exact ⟨_, execCopy_of_room hrem hbyte hroom⟩

theorem Inv.exec_answers {i : Instr} (h : Inv s) (henabled : enabledOp s = some i.opcode) : ∃ t, exec i s = .next t := by
  have hselected := selectedBy_of_enabledOp henabled
  cases i with
  | start | abort => exact hselected.elim
  | backref dist => exact (h.loop_of_state hselected).method.execBackref_answers dist
  | copy => exact (h.loop_of_state hselected).execCopy_answers hselected
  | header | flagfill | literal | tailcopy | tinycopy => exact completes_answers ..
  | flagtake | count | tinydone => exact ⟨_, rfl⟩
  | finish => cases hincl : s.inclTail <;> simp [exec, execFinish, hincl]

/-- The operand of the enabled operation has been loaded where it lies below IN_LEN (R45, P2 of R204). -/
theorem InputLoaded.readBytes_isSome (h : InputLoaded s) {n : Nat} (hleft : n ≤ s.inLen - s.cur) :
    ∃ bytes, s.inMem.readBytes s.cur n = some bytes :=
  Memory.readBytes_isSome fun k hk => h _ (by omega)

end NeverStops

/-- Settles O50: the operand is there or TruncatedStream is raised, and no operation stops where the invariant holds. -/
theorem engineNeverStops : Obligations.EngineNeverStops := by
  intro s hinv hloaded hhost
  obtain ⟨t, hstep⟩ : ∃ t, step s = .next t := by
    rw [step, stepOnce_engine hhost]
    rcases engineStep_cases s with ⟨-, h⟩ | ⟨op, henabled, ⟨-, h⟩ | ⟨hleft, hmissing, -⟩ | ⟨-, i, -, -, -, rfl, h⟩⟩
    · exact ⟨s, h⟩
    · exact ⟨_, h⟩
    · obtain ⟨bytes, hbytes⟩ := hloaded.readBytes_isSome hleft
      cases hmissing.symm.trans hbytes
    · rw [h]
      exact hinv.exec_answers henabled
  obtain ⟨hmem, hlen, -, -, -, hkept⟩ := (EngineMove.of_step hhost hstep).input
  refine ⟨t, hstep, stepKeepsTheInvariant s t hinv hstep, fun a ha => ?_, hkept.trans hhost⟩
  rw [hmem]
  exact hloaded a (hlen ▸ ha)

end Sys2Proof.Machine

/-! # Earlier runs leave no trace (44_sequencing_tail_tiny.md R141, R154)

`Agree` relates two machines in what the rest of a run can depend on. START makes it true of machines with equal configuration and
input, and every operation keeps it. -/

namespace Sys2Proof.Machine

/-- Two machines agree in what a run shows and reads: the window and the counter outside FAULT, DESC in the loop (`MethodLoaded`
gives the rest of the method), SRC and REM in a copy. -/
structure Agree (s s' : State) : Prop where
  state : s'.state = s.state
  cur : s'.cur = s.cur
  inclTail : s'.inclTail = s.inclTail
  inLen : s'.inLen = s.inLen
  err : s'.err = s.err
  outLen : s'.outLen = s.outLen
  ovfValid : s'.ovfValid = s.ovfValid
  ovfBase : s'.ovfBase = s.ovfBase
  ovfLen : s'.ovfLen = s.ovfLen
  outMem : s'.outMem = s.outMem
  params : s'.params = s.params
  input : ∀ a, a < s.inLen → s'.inMem.read a = s.inMem.read a
  window : s.state ≠ .fault → s'.fw = s.fw
  counter : s.state ≠ .fault → s'.fc = s.fc
  descriptor : AfterHeader s → s'.desc = s.desc
  src : s.state = .copy → s'.src = s.src
  rem : s.state = .copy → s'.rem = s.rem

/-- Where `o` is a next state, `o'` is one that agrees with it. -/
def Follows (o o' : Host.Outcome State Fault Refusal) : Prop :=
  ∀ t, o = .next t → ∃ t', o' = .next t' ∧ Agree t t'

section Agree

variable {s s' t t' : State}

theorem Follows.next (h : Agree t t') : Follows (.next t) (.next t') := by
  intro u hu
  cases hu
  exact ⟨t', rfl, h⟩

theorem follows_of_stop (f : Fault) (o : Host.Outcome State Fault Refusal) : Follows (.fault f) o := by
  intro t hnext
  cases hnext

theorem Agree.outByte (h : Agree s s') (a : Nat) : s'.outByte a = s.outByte a := by
  rw [State.outByte, State.outByte, h.outLen, h.outMem]

theorem Agree.sameResults (h : Agree s s') : SameResults s s' :=
  ⟨h.state.symm, h.err.symm, h.outLen.symm, h.cur.symm, h.ovfValid.symm, h.ovfBase.symm, h.ovfLen.symm,
    fun a => (h.outByte a).symm⟩

/-! ## The shared operations -/

/-- What fault entry leaves free no longer matters (R180). -/
theorem Agree.faultEntry (h : Agree s s') (e : ErrKind) : Agree (faultEntry e s) (faultEntry e s') :=
  { h with
    state := rfl
    cur := rfl
    err := rfl
    outLen := rfl
    ovfValid := rfl
    ovfBase := rfl
    ovfLen := rfl
    outMem := rfl
    window := fun hfault => absurd rfl hfault
    counter := fun hfault => absurd rfl hfault
    descriptor := by simp [AfterHeader]
    src := nofun
    rem := nofun }

theorem Agree.follows_fault (h : Agree s s') (e : ErrKind) : Follows (completes s (.error e)) (completes s' (.error e)) :=
  .next (h.faultEntry e)

theorem Agree.consume (h : Agree s s') (n : Nat) : Agree (s.consume n) (s'.consume n) :=
  { h with cur := congrArg (· + n) h.cur }

theorem Agree.push (h : Agree s s') (v : Byte) : Agree (s.push v) (s'.push v) :=
  { h with
    outLen := congrArg (· + 1) h.outLen
    outMem := by
      rw [State.push, State.push, h.outMem, h.outLen] }

/-- The bounds test of a fetch falls out alike (R45). -/
theorem Agree.advance_cases (h : Agree s s') (n : Nat) :
    (advance n s = .error .truncatedStream ∧ advance n s' = .error .truncatedStream) ∨
      (advance n s = .ok (s.consume n) ∧ advance n s' = .ok (s'.consume n)) := by
  rcases Nat.lt_or_ge (s.inLen - s.cur) n with hshort | hleft
  · exact .inl ⟨advance_of_short hshort, advance_of_short (by rw [h.inLen, h.cur]; exact hshort)⟩
  · exact .inr ⟨advance_ok.mpr ⟨hleft, rfl⟩, advance_ok.mpr ⟨by rw [h.inLen, h.cur]; exact hleft, rfl⟩⟩

/-- So does the test of an append (R46). -/
theorem Agree.append_cases (h : Agree s s') (v : Byte) :
    (append v s = .error .outputOverflow ∧ append v s' = .error .outputOverflow) ∨
      (append v s = .ok (s.push v) ∧ append v s' = .ok (s'.push v)) := by
  by_cases hfull : s.params.outMax = some s.outLen
  · exact .inl ⟨append_error.mpr ⟨hfull, rfl⟩, append_error.mpr ⟨by rw [h.params, h.outLen]; exact hfull, rfl⟩⟩
  · exact .inr ⟨append_ok.mpr ⟨hfull, rfl⟩, append_ok.mpr ⟨by rw [h.params, h.outLen]; exact hfull, rfl⟩⟩

/-- The end of a token (R110, R126). -/
theorem Agree.toCount (h : Agree s s') (hloop : AfterHeader s) :
    Agree { s with state := .count } { s' with state := .count } :=
  have hfault := hloop.state_ne.2.2.2.2
  { h with
    state := rfl
    window := fun _ => h.window hfault
    counter := fun _ => h.counter hfault
    descriptor := fun _ => h.descriptor hloop
    src := nofun
    rem := nofun }

/-- The end of a run, with the overflow result it reports (R147, R152). -/
theorem Agree.toDone (h : Agree s s') (hfault : s.state ≠ .fault) (valid : Bool) {base base' len len' : Nat}
    (hbase : base' = base) (hlen : len' = len) :
    Agree { s with ovfValid := valid, ovfBase := base, ovfLen := len, state := .done }
      { s' with ovfValid := valid, ovfBase := base', ovfLen := len', state := .done } :=
  { h with
    state := rfl
    ovfValid := rfl
    ovfBase := hbase
    ovfLen := hlen
    window := fun _ => h.window hfault
    counter := fun _ => h.counter hfault
    descriptor := by simp [AfterHeader]
    src := nofun
    rem := nofun }

/-! ## The operations -/

/-- COPY stops where OUT has no byte of this run at SRC (R41). -/
theorem execCopy_of_unwritten (hrem : s.rem ≠ 0) (hread : s.outByte s.src = none) :
    execCopy s = .fault (.outputByteUndefined s.src) := by
  simp only [Machine.execCopy, if_neg hrem, hread]

theorem Agree.execHeader (h : Agree s s') (hstate : s.state = .header) (desc : Byte) (count : BitVec 24) :
    Follows (execHeader desc count s) (execHeader desc count s') := by
  rcases Nat.lt_or_ge (s.inLen - s.cur) 4 with hshort | hleft
  · rw [execHeader_of_short hshort, execHeader_of_short (s := s') (by rw [h.inLen, h.cur]; exact hshort)]
    exact .next (h.faultEntry _)
  · rw [execHeader_of_enough hleft, execHeader_of_enough (s := s') (by rw [h.inLen, h.cur]; exact hleft)]
    exact .next { h.consume 4 with
      state := rfl
      window := fun _ => h.window (by simp [hstate])
      counter := fun _ => rfl
      descriptor := fun _ => rfl
      src := nofun
      rem := nofun }

theorem Agree.execFlagfill (h : Agree s s') (hstate : s.state = .awaitingFlag) (flags : Byte) :
    Follows (execFlagfill flags s) (execFlagfill flags s') := by
  rcases h.advance_cases 1 with ⟨hs, hs'⟩ | ⟨hs, hs'⟩ <;> simp only [Machine.execFlagfill, hs, hs']
  · exact h.follows_fault _
  · exact .next { h.consume 1 with
      state := rfl
      window := fun _ => rfl
      counter := fun _ => h.counter (by simp [hstate])
      descriptor := fun _ => h.descriptor (.inl hstate)
      src := nofun
      rem := nofun }

theorem Agree.execFlagtake (h : Agree s s') (hstate : s.state = .awaitingFlag) :
    Follows (execFlagtake s) (execFlagtake s') := by
  have hfw := h.window (by simp [hstate])
  exact .next { h with
    state := by rw [hfw]
    window := fun _ => congrArg windowShift hfw
    counter := fun _ => h.counter (by simp [hstate])
    descriptor := fun _ => h.descriptor (.inl hstate)
    src := fun hcopy => absurd hcopy (tokenState_ne _)
    rem := fun hcopy => absurd hcopy (tokenState_ne _) }

theorem Agree.execLiteral (h : Agree s s') (hstate : s.state = .literal) (v : Byte) :
    Follows (execLiteral v s) (execLiteral v s') := by
  rcases h.advance_cases 1 with ⟨hs, hs'⟩ | ⟨hs, hs'⟩ <;> simp only [Machine.execLiteral, hs, hs']
  · exact h.follows_fault _
  · rcases (h.consume 1).append_cases v with ⟨hs, hs'⟩ | ⟨hs, hs'⟩ <;> simp only [hs, hs']
    · exact h.follows_fault _
    · exact .next (((h.consume 1).push v).toCount (by simp [AfterHeader, hstate]))

theorem Agree.startCopy (h : Agree s s') (hstate : s.state = .backref) (hlenBits : s'.lenBits = s.lenBits)
    (dist : BitVec 16) (length : BitVec 10) :
    Follows (completes s (startCopy dist length (s.consume 2))) (completes s' (startCopy dist length (s'.consume 2))) := by
  by_cases hdisp : displacementOf s.lenBits dist = 0
  · rw [(startCopy_error (s := s.consume 2)).mpr (.inl ⟨hdisp, rfl⟩),
      (startCopy_error (s := s'.consume 2)).mpr (.inl ⟨(hlenBits ▸ hdisp :), rfl⟩)]
    exact h.follows_fault _
  · rcases Nat.lt_or_ge s.outLen (displacementOf s.lenBits dist).toNat with hbeyond | hrange
    · rw [(startCopy_error (s := s.consume 2)).mpr (.inr ⟨hdisp, hbeyond, rfl⟩),
        (startCopy_error (s := s'.consume 2)).mpr (.inr ⟨(hlenBits ▸ hdisp :), (hlenBits ▸ h.outLen ▸ hbeyond :), rfl⟩)]
      exact h.follows_fault _
    · rw [(startCopy_ok (s := s.consume 2)).mpr ⟨hdisp, hrange, rfl⟩,
        (startCopy_ok (s := s'.consume 2)).mpr ⟨(hlenBits ▸ hdisp :), (hlenBits ▸ h.outLen ▸ hrange :), rfl⟩]
      exact .next { h.consume 2 with
        state := rfl
        window := fun _ => h.window (by simp [hstate])
        counter := fun _ => h.counter (by simp [hstate])
        descriptor := fun _ => h.descriptor (by simp [AfterHeader, hstate])
        src := fun _ => by
          change s'.outLen - (displacementOf s'.lenBits dist).toNat = s.outLen - (displacementOf s.lenBits dist).toNat
          rw [h.outLen, hlenBits]
        rem := fun _ => rfl }

theorem Agree.execBackref (h : Agree s s') (hstate : s.state = .backref) (hmethod : MethodLoaded s) (hmethod' : MethodLoaded s')
    (dist : BitVec 16) : Follows (execBackref dist s) (execBackref dist s') := by
  have hdesc := h.descriptor (by simp [AfterHeader, hstate])
  have hlenBits : s'.lenBits = s.lenBits := by rw [hmethod'.lenBits, hmethod.lenBits, h.params, hdesc]
  rcases h.advance_cases 2 with ⟨hs, hs'⟩ | ⟨hs, hs'⟩
  · simp only [Machine.execBackref, hs, hs']
    exact h.follows_fault _
  · have hloaded : MethodLoaded (s.consume 2) := { hmethod with }
    have hloaded' : MethodLoaded (s'.consume 2) := { hmethod' with }
    cases hbit : refIndexBit s.lenBits dist with
    | false =>
      rw [execBackref_of_clear hs hloaded hbit, execBackref_of_clear hs' hloaded' (hlenBits ▸ hbit :)]
      exact .next (h.faultEntry _)
    | true =>
      have hlength : copyLengthOf (s'.consume 2).params.layout (s'.consume 2).desc =
          copyLengthOf (s.consume 2).params.layout (s.consume 2).desc := by
        change copyLengthOf s'.params.layout s'.desc = copyLengthOf s.params.layout s.desc
        rw [h.params, hdesc]
      rw [execBackref_of_set hs hloaded hbit, execBackref_of_set hs' hloaded' (hlenBits ▸ hbit :), hlength]
      exact h.startCopy hstate hlenBits dist _

theorem Agree.execCopy (h : Agree s s') (hstate : s.state = .copy) : Follows (execCopy s) (execCopy s') := by
  have hsrc := h.src hstate
  have hrem := h.rem hstate
  by_cases hzero : s.rem = 0
  · rw [execCopy_of_rem_zero hzero, execCopy_of_rem_zero (hrem.trans hzero)]
    exact .next (h.toCount (by simp [AfterHeader, hstate]))
  · have hzero' : s'.rem ≠ 0 := hrem ▸ hzero
    cases hread : s.outByte s.src with
    | none =>
      rw [execCopy_of_unwritten hzero hread]
      exact follows_of_stop _ _
    | some b =>
      have hread' : s'.outByte s'.src = some b := by rw [hsrc, h.outByte, hread]
      by_cases hfull : s.params.outMax = some s.outLen
      · rw [execCopy_of_full hzero hread hfull, execCopy_of_full hzero' hread' (by rw [h.params, h.outLen]; exact hfull)]
        exact .next (h.faultEntry _)
      · rw [execCopy_of_room hzero hread hfull, execCopy_of_room hzero' hread' (by rw [h.params, h.outLen]; exact hfull)]
        exact .next { h.push b with
          src := fun _ => congrArg (· + 1) hsrc
          rem := fun _ => congrArg (· - 1) hrem }

theorem Agree.execCount (h : Agree s s') (hstate : s.state = .count) : Follows (execCount s) (execCount s') := by
  have hfc := h.counter (by simp [hstate])
  exact .next { h with
    state := by rw [hfc]
    window := fun _ => h.window (by simp [hstate])
    counter := fun _ => congrArg (· - 1) hfc
    descriptor := fun _ => h.descriptor (by simp [AfterHeader, hstate])
    src := fun hcopy => absurd hcopy (countState_ne _)
    rem := fun hcopy => absurd hcopy (countState_ne _) }

theorem Agree.copyRaw (h : Agree s s') (v : Byte) :
    Follows (completes s (copyRaw v s)) (completes s' (copyRaw v s')) := by
  rcases h.advance_cases 1 with ⟨hs, hs'⟩ | ⟨hs, hs'⟩ <;> simp only [Machine.copyRaw, hs, hs']
  · exact h.follows_fault _
  · rcases (h.consume 1).append_cases v with ⟨hs, hs'⟩ | ⟨hs, hs'⟩ <;> simp only [hs, hs']
    · exact h.follows_fault _
    · exact .next ((h.consume 1).push v)

theorem Agree.execFinish (h : Agree s s') (hstate : s.state = .tail) : Follows (execFinish s) (execFinish s') := by
  have hfault : s.state ≠ .fault := by simp [hstate]
  have hleft : s'.inLen - s'.cur = s.inLen - s.cur := by rw [h.inLen, h.cur]
  cases hincl : s.inclTail with
  | true =>
    rw [Machine.execFinish, Machine.execFinish, if_pos hincl, if_pos (h.inclTail.trans hincl)]
    exact .next (h.toDone hfault false rfl rfl)
  | false =>
    have hsplit : ¬s.inclTail = true := by simp [hincl]
    rw [Machine.execFinish, Machine.execFinish, if_neg hsplit, if_neg (h.inclTail ▸ hsplit)]
    exact .next (h.toDone hfault true h.cur hleft)

/-- Every operation keeps the agreement. -/
theorem Agree.exec {i : Instr} (h : Agree s s') (hmethod : AfterHeader s → MethodLoaded s)
    (hmethod' : AfterHeader s' → MethodLoaded s') (henabled : enabledOp s = some i.opcode) :
    Follows (exec i s) (exec i s') := by
  have hselected := selectedBy_of_enabledOp henabled
  cases i with
  | start | abort => exact hselected.elim
  | header desc count => exact h.execHeader hselected desc count
  | flagfill flags => exact h.execFlagfill hselected.1 flags
  | flagtake => exact h.execFlagtake hselected.1
  | literal v => exact h.execLiteral hselected v
  | backref dist =>
    have hstate : s.state = .backref := hselected
    exact h.execBackref hstate (hmethod (by simp [AfterHeader, hstate])) (hmethod' (by simp [AfterHeader, h.state, hstate])) dist
  | copy => exact h.execCopy hselected
  | count => exact h.execCount hselected
  | tailcopy v | tinycopy v => exact h.copyRaw v
  | finish => exact h.execFinish hselected.1
  | tinydone =>
    have hstate : s.state = .tiny := hselected.1
    exact .next (h.toDone (by simp [hstate]) false rfl rfl)

/-! ## The step and the run -/

theorem Agree.enabledOp (h : Agree s s') : enabledOp s' = enabledOp s := by
  unfold Machine.enabledOp
  rw [h.state, h.cur, h.inLen, h.inclTail]
  cases hstate : s.state with
  | awaitingFlag => rw [h.window (by simp [hstate])]
  | idle | tiny | header | literal | backref | copy | count | tail | done | fault => rfl

theorem Agree.readBytes {n : Nat} (h : Agree s s') (hleft : n ≤ s.inLen - s.cur) :
    s'.inMem.readBytes s'.cur n = s.inMem.readBytes s.cur n := by
  refine Option.ext fun bytes => ?_
  rw [Memory.readBytes_eq_some, Memory.readBytes_eq_some, h.cur]
  exact and_congr_right fun _ => forall₂_congr fun k hk => by rw [h.input _ (by omega)]

theorem Agree.fetchOperand (h : Agree s s') (op : Opcode) (hleft : op.size ≤ s.inLen - s.cur) :
    fetchOperand op s' = fetchOperand op s := by
  rw [Machine.fetchOperand, Machine.fetchOperand, h.readBytes hleft, h.inLen, h.cur]

theorem Agree.engineStep (h : Agree s s') (hmethod : AfterHeader s → MethodLoaded s)
    (hmethod' : AfterHeader s' → MethodLoaded s') : Follows (engineStep s) (engineStep s') := by
  cases henabled : Machine.enabledOp s with
  | none =>
    rw [engineStep_of_quiet henabled, engineStep_of_quiet (h.enabledOp.trans henabled)]
    exact .next h
  | some op =>
    rw [Machine.engineStep, Machine.engineStep, fetchInstr_of_enabled henabled,
      fetchInstr_of_enabled (h.enabledOp.trans henabled)]
    rcases fetchOperand_cases op s with ⟨hfetch, hshort⟩ | ⟨hfetch, -⟩ | ⟨-, i, hfetch, hleft, -, -, rfl⟩
    · have hfetch' : Machine.fetchOperand op s' = .truncated := fetchOperand_of_short (by rw [h.inLen, h.cur]; exact hshort)
      rw [hfetch, hfetch']
      exact h.follows_fault _
    · rw [hfetch]
      exact follows_of_stop _ _
    · rw [h.fetchOperand _ hleft, hfetch]
      exact h.exec hmethod hmethod' henabled

theorem Agree.runFor (h : Agree s s') (hhost : s.host = []) (hhost' : s'.host = []) (hmethod : AfterHeader s → MethodLoaded s)
    (hmethod' : AfterHeader s' → MethodLoaded s') (n : Nat) : Follows (runFor n s) (runFor n s') := by
  induction n generalizing s s' with
  | zero => exact .next h
  | succ n ih =>
    intro u hrun
    rw [Machine.runFor] at hrun
    split at hrun
    next t hstep =>
      have hfollows := h.engineStep hmethod hmethod' t (by rwa [step, stepOnce_engine hhost] at hstep)
      obtain ⟨t', hstep', hnext⟩ := hfollows
      rw [← stepOnce_engine hhost'] at hstep'
      have hmove := EngineMove.of_step hhost hstep
      have hmove' := EngineMove.of_step hhost' hstep'
      obtain ⟨-, -, -, -, -, hkept⟩ := hmove.input
      obtain ⟨-, -, -, -, -, hkept'⟩ := hmove'.input
      rw [Machine.runFor, step, hstep']
      exact ih hnext (hkept.trans hhost) (hkept'.trans hhost') (hmove.methodLoaded hmethod) (hmove'.methodLoaded hmethod') u hrun
    next => cases hrun
    next => cases hrun

end Agree

/-- What START leaves depends on configuration and input alone (R141). -/
theorem agree_of_start {s s' : State} {state : EngineState} (hstate : state = .tiny ∨ state = .header)
    (hparams : s.params = s'.params) (hincl : s.inclTail = s'.inclTail) (hlen : s.inLen = s'.inLen)
    (hinput : ∀ a, a < s.inLen → s.inMem.read a = s'.inMem.read a) :
    Agree { clearRun s with state := state } { clearRun s' with state := state } where
  state := rfl
  cur := rfl
  inclTail := hincl.symm
  inLen := hlen.symm
  err := rfl
  outLen := rfl
  ovfValid := rfl
  ovfBase := rfl
  ovfLen := rfl
  outMem := rfl
  params := hparams.symm
  input a ha := (hinput a ha).symm
  window _ := rfl
  counter _ := rfl
  descriptor := by rcases hstate with rfl | rfl <;> simp [AfterHeader]
  src := by rcases hstate with rfl | rfl <;> simp
  rem := by rcases hstate with rfl | rfl <;> simp

/-- Settles O53: after START the machines agree, and every step keeps the agreement. -/
theorem earlierRunsLeaveNoTrace : Obligations.EarlierRunsLeaveNoTrace := by
  intro s s' t t' hidle hidle' hhost hhost' hparams hincl htiny hlen hinput hstart hstart' n u hrun
  rw [execStart_of_not_busy hidle, Host.Outcome.next.injEq] at hstart
  rw [execStart_of_not_busy hidle', Host.Outcome.next.injEq, ← htiny, ← hlen] at hstart'
  have hstate : (if s.tinyEn = true ∧ s.inLen ≤ tinyInputLimit then EngineState.tiny else .header) = .tiny ∨
      (if s.tinyEn = true ∧ s.inLen ≤ tinyInputLimit then EngineState.tiny else .header) = .header := by
    split <;> simp
  generalize (if s.tinyEn = true ∧ s.inLen ≤ tinyInputLimit then EngineState.tiny else .header) = state at *
  subst hstart hstart'
  have houtside {s : State} : AfterHeader { clearRun s with state := state } → MethodLoaded { clearRun s with state := state } := by
    rcases hstate with rfl | rfl <;> simp [AfterHeader]
  obtain ⟨u', hrun', hagree⟩ :=
    (agree_of_start hstate hparams hincl hlen hinput).runFor hhost hhost' houtside houtside n u hrun
  exact ⟨u', hrun', hagree.sameResults⟩

end Sys2Proof.Machine

/-! # How often FLAGFILL runs, and how many steps lead to DONE (41_flag_window.md R104, R106, 70_reset_and_hazards.md R211)

`flagBytesLeft` and `plainSteps` count, state by state, what a run to DONE still has to do. Each move of the engine lowers the one
by a FLAGFILL and the other by a step, but for the steps of the copies to come and of the tail. -/

namespace Sys2Proof.Machine

/-! ## Runs to DONE, one move at a time -/

/-- How often a step from `s` runs the operation: once or not at all. -/
def runsNow (op : Opcode) (s : State) : Nat :=
  if enabledOp s = some op then 1 else 0

section ToDone

variable {s t u : State} {op op' : Opcode} {n : Nat}

theorem runsNow_of_selected (hselected : SelectedBy s op') (op : Opcode) : runsNow op s = if op' = op then 1 else 0 := by
  rw [runsNow, enabledOp_of_selectedBy hselected]
  simp only [Option.some.injEq]

theorem timesRun_succ (hstep : step s = .next t) : timesRun op (n + 1) s = runsNow op s + timesRun op n t := by
  rw [timesRun, hstep, runsNow]

theorem runFor_of_quiet (hhost : s.host = []) (hquiet : enabledOp s = none) (n : Nat) : runFor n s = .next s := by
  induction n with
  | zero => rfl
  | succ n ih =>
    rw [runFor, step, stepOnce_engine hhost, engineStep_of_quiet hquiet]
    exact ih

/-- A run to DONE takes a move that does not fault, since FAULT holds (R181). -/
theorem exists_move_of_runFor_done (hhost : s.host = []) (hrun : runFor (n + 1) s = .next u) (hdone : u.state = .done) :
    ∃ t, step s = .next t ∧ EngineMove s t ∧ t.state ≠ .fault ∧ t.host = [] ∧ runFor n t = .next u := by
  rw [runFor] at hrun
  split at hrun
  next t hstep =>
    have hmove := EngineMove.of_step hhost hstep
    obtain ⟨-, -, -, -, -, hkept⟩ := hmove.input
    refine ⟨t, hstep, hmove, fun hfault => ?_, hkept.trans hhost, hrun⟩
    rw [runFor_of_quiet (hkept.trans hhost) (enabledOp_eq_none_iff.mpr (.inr (.inr hfault)))] at hrun
    cases hrun
    cases hfault.symm.trans hdone
  next => cases hrun
  next => cases hrun

end ToDone

/-! ## What is left to do -/

/-- The flag bytes to fetch for so many decode steps with this window (R104, R106). -/
def flagBytesFor (steps : Nat) (fw : BitVec 9) : Nat :=
  (steps - (windowFlags fw).length + 7) / 8

/-- The flag bytes a run to DONE still fetches. -/
def flagBytesLeft (s : State) : Nat :=
  match s.state with
  | .awaitingFlag => flagBytesFor s.fc.toNat s.fw
  | .literal | .backref | .copy | .count => flagBytesFor (s.fc.toNat - 1) s.fw
  | .idle | .tiny | .header | .tail | .done | .fault => 0

/-- The steps after the present decode step: three for each of the others, their flag bytes, FINISH. -/
def plainLater (s : State) : Nat :=
  flagBytesLeft s + 3 * (s.fc.toNat - 1) + 1

/-- The steps to DONE but for those of the copies to come and of the tail. -/
def plainSteps (s : State) : Nat :=
  match s.state with
  | .awaitingFlag => flagBytesLeft s + 3 * s.fc.toNat + 1
  | .literal | .backref => 2 + plainLater s
  | .copy => s.rem.toNat + 2 + plainLater s
  | .count => 1 + plainLater s
  | .tail => 1
  | .idle | .tiny | .header | .done | .fault => 0

/-- The last entry of the table, the length of every back-reference (R129). -/
def lastEntry (s : State) : Nat :=
  tableEntry (s.lenMask.toNat - 1) s.shifter.toNat s.threshold.toNat

section FlagBytes

variable {steps : Nat} {fw : BitVec 9}

theorem flagBytesFor_zero (fw : BitVec 9) : flagBytesFor 0 fw = 0 := by
  rw [flagBytesFor, Nat.zero_sub]

/-- With no bit in the window, one flag byte for each eight decode steps. -/
theorem flagBytesFor_zero_window (steps : Nat) : flagBytesFor steps 0 = (steps + 7) / 8 := by
  rw [flagBytesFor, windowFlags_zero, List.length_nil, Nat.sub_zero]

theorem flagBytesFor_of_exhausted (hwindow : windowExhausted fw = true) (hsteps : 0 < steps) (flags : Byte) :
    flagBytesFor steps fw = 1 + flagBytesFor steps (refill flags) := by
  rw [flagBytesFor, flagBytesFor, windowFlags_of_exhausted hwindow, windowFlags_refill, List.length_map, List.length_range,
    List.length_nil]
  omega

theorem flagBytesFor_of_not_exhausted (hwindow : windowExhausted fw = false) :
    flagBytesFor steps fw = flagBytesFor (steps - 1) (windowShift fw) := by
  rw [flagBytesFor, flagBytesFor, windowFlags_of_not_exhausted hwindow, List.length_cons]
  omega

end FlagBytes

/-- What the counts rest on, from HEADER to DONE. -/
structure Counting (s : State) : Prop where
  notTiny : s.state ≠ .tiny
  cursor : s.cur ≤ s.inLen
  method : AfterHeader s → MethodLoaded s
  counter : AfterHeader s → (s.fc = 0 ↔ s.state = .tail)

section Counting

variable {s t u : State} {n : Nat}

theorem Counting.fc_pos (h : Counting s) (hloop : AfterHeader s) (htail : s.state ≠ .tail) : 0 < s.fc.toNat :=
  Nat.pos_of_ne_zero fun hzero => htail ((h.counter hloop).mp (BitVec.eq_of_toNat_eq hzero))

theorem EngineMove.cursor_le (h : EngineMove s t) (hcursor : s.cur ≤ s.inLen) : t.cur ≤ t.inLen := by
  cases h with
  | fault => exact Nat.zero_le _
  | header _ _ _ hleft | flagfill _ _ _ hleft | literal _ _ hleft | backref _ _ _ hleft | rawCopy _ _ hleft => exact hleft
  | quiet | flagtake | copyByte | copyEnd | count | finishJoin | finishSplit | tinydone => exact hcursor

theorem EngineMove.counting (h : EngineMove s t) (hs : Counting s) : Counting t := by
  have hkept {state : EngineState} (hloop : AfterHeader s) (hbefore : s.state ≠ .tail) (hafter : state ≠ .tail) :
      s.fc = 0 ↔ state = .tail :=
    iff_of_false (fun hzero => hbefore ((hs.counter hloop).mp hzero)) hafter
  refine ⟨?_, h.cursor_le hs.cursor, h.methodLoaded hs.method, fun hloop => ?_⟩
  · cases h with
    | quiet | rawCopy | copyByte => exact hs.notTiny
    | flagtake => exact tokenState_ne _
    | count => exact countState_ne _
    | fault | header | flagfill | literal | backref | copyEnd | finishJoin | finishSplit | tinydone => nofun
  · cases h with
    | quiet | rawCopy | copyByte => exact hs.counter hloop
    | header hstate desc count =>
      refine iff_of_false (fun hzero : stepsOf count = 0 => ?_) nofun
      have hvalue := stepsOf_toNat count
      simp [hzero] at hvalue
    | flagtake hstate =>
      exact hkept (.inl hstate) (by simp [hstate]) (tokenState_ne _)
    | count => split <;> simp_all
    | flagfill hstate | literal hstate | backref hstate | copyEnd hstate =>
      exact hkept (by simp [AfterHeader, hstate]) (by simp [hstate]) nofun
    | fault | finishJoin | finishSplit | tinydone => simp [AfterHeader] at hloop

/-! ## What each move does to the counts -/

/-- COUNT leaves no decode step, or goes on with one less (R145). -/
theorem Counting.count_cases (hs : Counting s) (hstate : s.state = .count) :
    (s.fc - 1 = 0 ∧ s.fc.toNat = 1) ∨ (s.fc - 1 ≠ 0 ∧ (s.fc - 1).toNat = s.fc.toNat - 1 ∧ 1 < s.fc.toNat) := by
  have hpos := hs.fc_pos (by simp [AfterHeader, hstate]) (by simp [hstate])
  by_cases hlast : s.fc - 1 = 0
  · exact .inl ⟨hlast, by bv_omega⟩
  · exact .inr ⟨hlast, by bv_omega, by bv_omega⟩

/-- A move fetches a flag byte or leaves their number (R102, R106). -/
theorem EngineMove.flagBytesLeft_eq (h : EngineMove s t) (hs : Counting s) (hheader : s.state ≠ .header) (hfault : t.state ≠ .fault) :
    flagBytesLeft s = runsNow .flagfill s + flagBytesLeft t := by
  cases h with
  | quiet hquiet => simp [runsNow, hquiet]
  | fault => exact absurd rfl hfault
  | header hstate => exact absurd hstate hheader
  | flagfill hstate hwindow flags =>
    have hpos := hs.fc_pos (.inl hstate) (by simp [hstate])
    rw [runsNow_of_selected (op' := .flagfill) ⟨hstate, hwindow⟩]
    simp only [flagBytesLeft, hstate]
    exact flagBytesFor_of_exhausted hwindow hpos flags
  | flagtake hstate hwindow =>
    rw [runsNow_of_selected (op' := .flagtake) ⟨hstate, hwindow⟩]
    simp only [flagBytesLeft, hstate, flagBytesFor_of_not_exhausted hwindow]
    cases flagBit s.fw <;> simp
  | literal hstate => simp [runsNow_of_selected (op' := .literal) hstate, flagBytesLeft, hstate, State.consume, State.push]
  | backref hstate => simp [runsNow_of_selected (op' := .backref) hstate, flagBytesLeft, hstate, State.consume]
  | copyByte hstate | copyEnd hstate => simp [runsNow_of_selected (op' := .copy) hstate, flagBytesLeft, hstate, State.push]
  | count hstate =>
    rw [runsNow_of_selected (op' := .count) hstate]
    rcases hs.count_cases hstate with ⟨hlast, hone⟩ | ⟨hmore, hfewer, -⟩
    · rw [if_pos hlast]
      simp [flagBytesLeft, hstate, hone, flagBytesFor_zero]
    · rw [if_neg hmore]
      simp only [flagBytesLeft, hstate, hfewer, reduceCtorEq, if_false, Nat.zero_add]
  | rawCopy hraw v hleft =>
    rcases hraw with hstate | ⟨hstate, hincl⟩
    · exact absurd hstate hs.notTiny
    · simp [runsNow_of_selected (op' := .tailcopy) ⟨hstate, hincl, hleft⟩, flagBytesLeft, hstate]
  | finishJoin hstate hincl hleft =>
    simp [runsNow_of_selected (op' := .finish) ⟨hstate, fun h => hleft h.2⟩, flagBytesLeft, hstate]
  | finishSplit hstate hincl =>
    simp [runsNow_of_selected (op' := .finish) ⟨hstate, by simp [hincl]⟩, flagBytesLeft, hstate]
  | tinydone hstate => exact absurd hstate hs.notTiny

/-- The copy a back-reference sets up has the length of the table's last entry (R129). -/
theorem MethodLoaded.length_eq {dist : BitVec 16} {length : BitVec 10} (h : MethodLoaded s)
    (hmasked : maskedValue s.lenMask dist ≠ 0)
    (hlength : tableRead s.lt ((maskedValue s.lenMask dist).toNat - 1) = some length) : length.toNat = lastEntry s := by
  have hpos := (lenMaskOf_pos s.lenBits).1
  rw [← h.lenMask] at hpos
  obtain ⟨e, hentry, -, -, hvalue⟩ := h.exists_entry (Nat.sub_lt hpos Nat.one_pos)
  rw [tableRead, h.maskedValue_of_ne_zero hmasked, hentry, Option.some.injEq] at hlength
  exact hlength ▸ hvalue

/-- A move is one of the steps counted, one of a copy set up here, or one of the tail. -/
theorem EngineMove.plainSteps_eq (h : EngineMove s t) (hs : Counting s) (hheader : s.state ≠ .header) (hfault : t.state ≠ .fault)
    {op : Opcode} (henabled : enabledOp s = some op) :
    plainSteps s + runsNow .backref s * (lastEntry s + 1) + runsNow .tailcopy s = 1 + plainSteps t := by
  have hflags := h.flagBytesLeft_eq hs hheader hfault
  cases h with
  | quiet hquiet => cases hquiet.symm.trans henabled
  | fault => exact absurd rfl hfault
  | header hstate => exact absurd hstate hheader
  | flagfill hstate hwindow flags =>
    have hruns := runsNow_of_selected (op' := .flagfill) ⟨hstate, hwindow⟩
    simp only [hruns, plainSteps, hstate, State.consume, reduceCtorEq, if_true, if_false] at hflags ⊢
    omega
  | flagtake hstate hwindow =>
    have hruns := runsNow_of_selected (op' := .flagtake) ⟨hstate, hwindow⟩
    have hpos := hs.fc_pos (.inl hstate) (by simp [hstate])
    have hplain (flag : Bool) {u : State} (hu : u.state = if flag then .literal else .backref) :
        plainSteps u = 2 + plainLater u := by
      cases flag <;> simp [plainSteps, hu]
    have hbefore : plainSteps s = flagBytesLeft s + 3 * s.fc.toNat + 1 := by simp only [plainSteps, hstate]
    rw [hbefore, hplain (flagBit s.fw) rfl]
    simp only [hruns, plainLater, reduceCtorEq, if_false] at hflags ⊢
    omega
  | literal hstate =>
    have hruns := runsNow_of_selected (s := s) (op' := .literal) hstate
    simp only [hruns, plainSteps, plainLater, hstate, State.consume, State.push, reduceCtorEq, if_false] at hflags ⊢
    omega
  | backref hstate dist length hleft hmasked hlength =>
    have hlast := (hs.method (by simp [AfterHeader, hstate])).length_eq hmasked hlength
    have hruns := runsNow_of_selected (s := s) (op' := .backref) hstate
    simp only [hruns, plainSteps, plainLater, hstate, State.consume, hlast, reduceCtorEq, if_true, if_false] at hflags ⊢
    omega
  | copyByte hstate hrem =>
    have hfewer := rem_sub_one_toNat hrem
    have hpos : 0 < s.rem.toNat := Nat.pos_of_ne_zero fun hzero => hrem (BitVec.eq_of_toNat_eq hzero)
    have hruns := runsNow_of_selected (s := s) (op' := .copy) hstate
    simp only [hruns, plainSteps, plainLater, hstate, State.push, hfewer, reduceCtorEq, if_false] at hflags ⊢
    omega
  | copyEnd hstate hrem =>
    have hzero : s.rem.toNat = 0 := by rw [hrem]; rfl
    have hruns := runsNow_of_selected (s := s) (op' := .copy) hstate
    simp only [hruns, plainSteps, plainLater, hstate, hzero, reduceCtorEq, if_false] at hflags ⊢
    omega
  | count hstate =>
    have hruns := runsNow_of_selected (s := s) (op' := .count) hstate
    rcases hs.count_cases hstate with ⟨hlast, hone⟩ | ⟨hmore, hfewer, -⟩
    · rw [if_pos hlast] at hflags ⊢
      have hnone : flagBytesLeft s = 0 := by simpa [hruns, flagBytesLeft] using hflags
      simp only [hruns, plainSteps, plainLater, hstate, hnone, hone, reduceCtorEq, if_false]
      omega
    · rw [if_neg hmore] at hflags ⊢
      simp only [hruns, plainSteps, plainLater, hstate, hfewer, reduceCtorEq, if_false] at hflags ⊢
      omega
  | rawCopy hraw v hleft =>
    rcases hraw with hstate | ⟨hstate, hincl⟩
    · exact absurd hstate hs.notTiny
    · simp [runsNow_of_selected (op' := .tailcopy) ⟨hstate, hincl, hleft⟩, plainSteps, hstate]
  | finishJoin hstate hincl hleft =>
    simp [runsNow_of_selected (op' := .finish) ⟨hstate, fun h => hleft h.2⟩, plainSteps, hstate]
  | finishSplit hstate hincl =>
    simp [runsNow_of_selected (op' := .finish) ⟨hstate, by simp [hincl]⟩, plainSteps, hstate]
  | tinydone hstate => exact absurd hstate hs.notTiny

/-- After HEADER no move leads back to it. -/
theorem EngineMove.state_ne_header (h : EngineMove s t) (hheader : s.state ≠ .header) : t.state ≠ .header := by
  cases h with
  | quiet | rawCopy | copyByte => exact hheader
  | flagtake => exact tokenState_ne _
  | count => exact countState_ne _
  | fault | header | flagfill | literal | backref | copyEnd | finishJoin | finishSplit | tinydone => nofun

/-! ## The counts of a run to DONE -/

/-- From a state after HEADER, FLAGFILL runs as often as there are flag bytes left (R106). -/
theorem Counting.timesRun_flagfill (hs : Counting s) (hheader : s.state ≠ .header) (hhost : s.host = [])
    (hrun : runFor n s = .next u) (hdone : u.state = .done) : timesRun .flagfill n s = flagBytesLeft s := by
  induction n generalizing s with
  | zero =>
    cases hrun
    simp [timesRun, flagBytesLeft, hdone]
  | succ n ih =>
    obtain ⟨t, hstep, hmove, hfault, hkept, hlater⟩ := exists_move_of_runFor_done hhost hrun hdone
    rw [timesRun_succ hstep, ih (hmove.counting hs) (hmove.state_ne_header hheader) hkept hlater,
      hmove.flagBytesLeft_eq hs hheader hfault]

theorem timesRun_tailcopy_of_split (hhost : s.host = []) (hincl : s.inclTail = false) : timesRun .tailcopy n s = 0 := by
  induction n generalizing s with
  | zero => rfl
  | succ n ih =>
    have hnever : enabledOp s ≠ some .tailcopy := fun henabled => by
      obtain ⟨-, hjoin, -⟩ := selectedBy_of_enabledOp henabled
      simp [hincl] at hjoin
    rw [timesRun, if_neg hnever, Nat.zero_add]
    split
    next t hstep =>
      obtain ⟨-, -, hsame, -, -, hkept⟩ := (EngineMove.of_step hhost hstep).input
      exact ih (hkept.trans hhost) (hsame.trans hincl)
    next => rfl
    next => rfl

/-- DONE is entered from TAIL; with INCL_TAIL = 1 all input has been consumed then (R146, R147). -/
theorem EngineMove.cur_of_done (h : EngineMove s t) (hs : Counting s) (hbefore : s.state ≠ .done) (hdone : t.state = .done)
    (hincl : s.inclTail = true) : t.cur = s.inLen := by
  have hcursor := hs.cursor
  cases h with
  | quiet | rawCopy | copyByte => exact absurd hdone hbefore
  | finishJoin _ _ hleft =>
    change s.cur = s.inLen
    omega
  | finishSplit _ hsplit => simp [hincl] at hsplit
  | tinydone hstate => exact absurd hstate hs.notTiny
  | flagtake => exact absurd hdone (tokenState_ne _)
  | count => exact absurd hdone (countState_ne _)
  | fault | header | flagfill | literal | backref | copyEnd => cases hdone

/-- The steps from a state after HEADER to the first DONE state (R211). -/
theorem Counting.steps_to_done (hs : Counting s) (hheader : s.state ≠ .header) (hhost : s.host = [])
    (hrun : runFor n s = .next u) (hdone : u.state = .done)
    (hfirst : ∀ k v, k < n → runFor k s = .next v → v.state ≠ .done) :
    lastEntry u = lastEntry s ∧
      n = plainSteps s + timesRun .backref n s * (lastEntry s + 1) + timesRun .tailcopy n s ∧
      (0 < n → s.inclTail = true → u.cur = s.inLen) := by
  induction n generalizing s with
  | zero =>
    cases hrun
    exact ⟨rfl, by simp [plainSteps, hdone, timesRun], nofun⟩
  | succ n ih =>
    obtain ⟨t, hstep, hmove, hfault, hkept, hlater⟩ := exists_move_of_runFor_done hhost hrun hdone
    have hbefore : s.state ≠ .done := hfirst 0 s n.succ_pos rfl
    obtain ⟨-, hlen, hincl, -, -, -⟩ := hmove.input
    obtain ⟨-, hshifter, -, hmask, hthreshold, -⟩ := hmove.method hfault hheader
    have hlast : lastEntry t = lastEntry s := by rw [lastEntry, hmask, hshifter, hthreshold, lastEntry]
    obtain ⟨hlast', hsteps, hcur⟩ := ih (hmove.counting hs) (hmove.state_ne_header hheader) hkept hlater
      fun k v hk hv => hfirst (k + 1) v (Nat.succ_lt_succ hk) (by rw [runFor, hstep]; exact hv)
    obtain ⟨op, henabled⟩ : ∃ op, enabledOp s = some op := by
      refine Option.ne_none_iff_exists'.mp fun hquiet => ?_
      cases (runFor_of_quiet hhost hquiet (n + 1)).symm.trans hrun
      exact hbefore hdone
    have hcount := hmove.plainSteps_eq hs hheader hfault henabled
    refine ⟨hlast'.trans hlast, ?_, fun _ hjoin => ?_⟩
    · rw [timesRun_succ hstep, timesRun_succ hstep, Nat.add_mul, ← hlast]
      rw [← hlast] at hcount
      omega
    · rcases Nat.eq_zero_or_pos n with rfl | hpos
      · cases hlater
        exact hmove.cur_of_done hs hbefore hdone hjoin
      · rw [hcur hpos (hincl.trans hjoin), hlen]

/-! ## The step of HEADER, by the bytes at 1 to 3 (R80, R85) -/

/-- At its start, a HEADER that does not fault sets FC to `MemRead(IN, 1, 3) + 1`. -/
theorem step_header_of_memReadIn {c : Nat} (hhost : s.host = []) (hstate : s.state = .header) (hcur : s.cur = 0)
    (hcount : s.memReadIn 1 3 = some c) (hstep : step s = .next t) (hfault : t.state ≠ .fault) :
    t.fc.toNat = c + 1 ∧ t.fw = s.fw ∧ t.state = .awaitingFlag := by
  have henabled := enabledOp_eq_header_iff.mpr hstate
  rw [step, stepOnce_engine hhost] at hstep
  rcases engineStep_cases s with ⟨hquiet, -⟩ | ⟨op, hop, hcases⟩
  · cases hquiet.symm.trans henabled
  · cases hop.symm.trans henabled
    rcases hcases with ⟨-, h⟩ | ⟨-, -, h⟩ | ⟨bytes, i, hleft, hread, hdecode, -, h⟩ <;> rw [h] at hstep
    · cases hstep
      exact absurd rfl hfault
    · cases hstep
    · obtain ⟨hlength, hbytes⟩ := Memory.readBytes_eq_some.mp hread
      match bytes, hlength with
      | [desc, hi, mid, lo], _ =>
        cases hdecode
        rw [hcur] at hbytes
        have hlater : s.inMem.readBytes 1 3 = some [hi, mid, lo] :=
          Memory.readBytes_eq_some.mpr ⟨rfl, fun k hk => by
            rw [Nat.add_comm, ← Nat.zero_add (k + 1)]
            exact hbytes (k + 1) (Nat.succ_lt_succ hk)⟩
        rw [State.memReadIn, hlater] at hcount
        split at hcount
        next =>
          cases hcount
          rw [exec, execHeader_of_enough hleft] at hstep
          cases hstep
          exact ⟨by rw [stepsOf_toNat, bigEndian24_toNat], rfl, rfl⟩
        next => cases hcount

/-- A run that START sends to HEADER and that reaches DONE: the state after HEADER. -/
theorem exists_after_header {c : Nat} (hidle : s.status ≠ 1) (hhost : s.host = []) (hstart : exec .start s = .next t)
    (hstate : t.state = .header) (hcount : s.memReadIn 1 3 = some c) (hrun : runFor n t = .next u) (hdone : u.state = .done) :
    ∃ m v, n = m + 1 ∧ step t = .next v ∧ enabledOp t = some .header ∧ runFor m v = .next u ∧ Counting v ∧ v.host = [] ∧
      v.fc.toNat = c + 1 ∧ v.fw = 0 ∧ v.state = .awaitingFlag ∧ v.inclTail = s.inclTail ∧ v.inLen = s.inLen := by
  cases n with
  | zero =>
    cases hrun
    cases hstate.symm.trans hdone
  | succ m =>
    rw [execStart_of_not_busy hidle, Host.Outcome.next.injEq] at hstart
    subst hstart
    obtain ⟨v, hstep, hmove, hfault, hkept, hlater⟩ := exists_move_of_runFor_done (by exact hhost) hrun hdone
    obtain ⟨hfc, hfw, hafter⟩ := step_header_of_memReadIn (by exact hhost) hstate rfl (by exact hcount) hstep hfault
    have houtside : ¬AfterHeader _ := fun hloop => hloop.state_ne.2.2.1 hstate
    have hcounting : Counting v := hmove.counting
      { notTiny := by rw [hstate]; decide
        cursor := Nat.zero_le _
        method := fun hloop => absurd hloop houtside
        counter := fun hloop => absurd hloop houtside }
    obtain ⟨-, hlen, hincl, -, -, -⟩ := hmove.input
    exact ⟨m, v, rfl, hstep, enabledOp_eq_header_iff.mpr hstate, hlater, hcounting, hkept, hfc, hfw, hafter, hincl, hlen⟩

end Counting

/-- Settles O54: HEADER leaves `ceil((count + 1) / 8)` flag bytes to fetch, and FLAGFILL fetches each. -/
theorem oneFlagByteForEightSteps : Obligations.OneFlagByteForEightSteps := by
  intro s t u c n hidle hhost hstart hstate hcount hrun hdone
  obtain ⟨m, v, rfl, hstep, hheader, hlater, hcounting, hkept, hfc, hfw, hafter, -, -⟩ :=
    exists_after_header hidle hhost hstart hstate hcount hrun hdone
  have htimes := hcounting.timesRun_flagfill (by simp [hafter]) hkept hlater hdone
  rw [timesRun_succ hstep, runsNow, hheader, if_neg (by decide), htimes, Nat.zero_add]
  simp only [flagBytesLeft, hafter, hfc, hfw, flagBytesFor_zero_window]

/-- Settles O55: HEADER is one step, and from the state after it `plainSteps` counts all but the copies' and the tail's. -/
theorem stepsToDone : Obligations.StepsToDone := by
  intro s t u c n hidle hhost hstart hstate hcount hrun hdone hfirst
  obtain ⟨m, v, rfl, hstep, hheader, hlater, hcounting, hkept, hfc, hfw, hafter, hincl, hlen⟩ :=
    exists_after_header hidle hhost hstart hstate hcount hrun hdone
  obtain ⟨hlast, hsteps, hcur⟩ := hcounting.steps_to_done (by simp [hafter]) hkept hlater hdone
    fun k w hk hw => hfirst (k + 1) w (Nat.succ_lt_succ hk) (by rw [runFor, hstep]; exact hw)
  have hplain : plainSteps v = (c + 1 + 7) / 8 + 3 * (c + 1) + 1 := by
    simp only [plainSteps, flagBytesLeft, hafter, hfc, hfw, flagBytesFor_zero_window]
  have htail : timesRun .tailcopy m v = if s.inclTail then timesRun .tailcopy m v else 0 := by
    cases hsplit : s.inclTail with
    | true => rfl
    | false => exact timesRun_tailcopy_of_split hkept (hincl.trans hsplit)
  have hpos : 0 < m := by omega
  have hnow {op : Opcode} (hother : op ≠ .header) : timesRun op (m + 1) t = timesRun op m v := by
    rw [timesRun_succ hstep, runsNow, hheader, if_neg (by simpa using hother.symm), Nat.zero_add]
  rw [hnow (by decide), hnow (by decide)]
  change m + 1 = _ + _ + _ + _ * (lastEntry u + 1) + _ + 1 ∧ _
  rw [hlast]
  exact ⟨by omega, fun hjoin => (hcur hpos (hincl.trans hjoin)).trans hlen⟩

end Sys2Proof.Machine

/-! # Single steps: table words, the flag window, the distance field, the copy loop, and where the engine stops or rests

(30_encoding.md R60, R69, R129, 41_flag_window.md R103, R105, 43_backref.md R121, R128, 20_memory.md R41, R45) -/

namespace Sys2Proof.Machine

/-! ## A word of the opcode table where the next step runs it (R60) -/

/-- The engine's step on a loaded operand, whatever moves the host still has. -/
theorem engineStep_of_decode {s : State} {op : Opcode} {bytes : List Byte} {i : Instr} (henabled : enabledOp s = some op)
    (hsize : op.size ≤ s.inLen - s.cur) (hbytes : s.inMem.readBytes s.cur op.size = some bytes)
    (hdecode : decode op bytes = .ok (i, [])) : engineStep s = exec i s := by
  rw [engineStep, fetchInstr_of_enabled henabled, fetchOperand_of_decode hsize hbytes hdecode]

theorem tableBytes_length (n w : Nat) : (tableBytes n w).length = n := by
  rw [tableBytes, List.length_map, List.length_range]

theorem tableBytes_getElem? {n k : Nat} (w : Nat) (hk : k < n) : (tableBytes n w)[k]? = some (BitVec.ofNat 8 (w >>> (8 * k))) := by
  rw [tableBytes, List.getElem?_map, List.getElem?_range hk, Option.map_some]

/-- A byte of a word does not depend on the bits above the word's width. -/
theorem byte_mod_two_pow {nbits k : Nat} (w : Nat) (hk : 8 * (k + 1) ≤ nbits) :
    BitVec.ofNat 8 ((w % 2 ^ nbits) >>> (8 * k)) = BitVec.ofNat 8 (w >>> (8 * k)) := by
  refine BitVec.eq_of_getLsbD_eq fun j hj => ?_
  have hbit : 8 * k + j < nbits := by omega
  rw [BitVec.getLsbD_ofNat, BitVec.getLsbD_ofNat, Nat.testBit_shiftRight, Nat.testBit_shiftRight, Nat.testBit_mod_two_pow,
    decide_eq_true hbit, Bool.true_and]

/-- With a word's bytes placed at CUR of a state that passes, the step runs the operation they are read as. -/
theorem step_of_placed {s : State} {op : Opcode} {nbits w : Nat} {i : Instr} {rest : List Byte} {m : Memory}
    {later : List HostMove} (hhost : s.host = .pass :: later) (hselected : SelectedBy s op) (hwidth : nbits = 8 * op.size)
    (hsize : op.size ≤ 4) (hmem : s.inMem = m.load s.cur (tableBytes 4 (w % 2 ^ nbits))) (hlen : s.cur + 4 ≤ s.inLen)
    (hdecode : decode op (tableBytes (nbits / 8) w) = .ok (i, rest)) : step s = exec i { s with host := later } := by
  rw [hwidth, Nat.mul_div_cancel_left _ (by decide)] at hdecode
  obtain rfl : rest = [] := by
    have hlength := (decode_ok_opcode hdecode).2
    rw [tableBytes_length] at hlength
    exact List.length_eq_zero_iff.mp (by omega)
  have henabled : enabledOp { s with host := later } = some op := enabledOp_of_selectedBy hselected
  have hleft : op.size ≤ s.inLen - s.cur := by omega
  have hread : s.inMem.readBytes s.cur op.size = some (tableBytes op.size w) :=
    Memory.readBytes_eq_some.mpr ⟨tableBytes_length .., fun k hk => by
      rw [hmem, Memory.read_load, if_pos (by rw [tableBytes_length]; omega), Nat.add_sub_cancel_left,
        tableBytes_getElem? _ (by omega), tableBytes_getElem? _ hk, byte_mod_two_pow _ (by omega)]⟩
  rw [step_of_host hhost, hostStep]
  exact engineStep_of_decode henabled hleft hread hdecode

/-- The widths that stand for a row. -/
theorem tableOpcode_cases {nbits : Nat} {op : Opcode} (h : tableOpcode nbits = some op) :
    (nbits = 0 ∧ op = .start) ∨ (nbits = 8 ∧ op = .flagfill) ∨ (nbits = 16 ∧ op = .backref) ∨ (nbits = 32 ∧ op = .header) := by
  unfold tableOpcode at h
  split at h <;> simp_all

/-- Settles O6: the placed state enables the row and holds the word at CUR; START is the command of a write of CMD. -/
theorem placedTableWordRunsNext : Obligations.PlacedTableWordRunsNext := by
  intro s nbits w i hword
  rw [decodeTableWord] at hword
  cases hop : tableOpcode nbits with
  | none => simp [hop] at hword
  | some op =>
    cases hdecode : decode op (tableBytes (nbits / 8) w) with
    | error e => simp [hop, hdecode] at hword
    | ok decoded =>
      obtain ⟨j, rest⟩ := decoded
      obtain rfl : j = i := by simpa [hop, hdecode] using hword
      have hcovers : s.cur + 4 ≤ max s.inLen (s.cur + 4) := le_max_right ..
      rcases tableOpcode_cases hop with ⟨rfl, rfl⟩ | ⟨rfl, rfl⟩ | ⟨rfl, rfl⟩ | ⟨rfl, rfl⟩
      · cases hdecode
        exact step_of_host (s := s.withFetchWord 0 w) (m := .writeCmd 1) rfl
      · have hexhausted : windowExhausted 0 = true := by decide
        exact step_of_placed (s := s.withFetchWord 8 w) (op := .flagfill) rfl ⟨rfl, hexhausted⟩ rfl (by decide) rfl hcovers hdecode
      · exact step_of_placed (s := s.withFetchWord 16 w) (op := .backref) rfl rfl rfl (by decide) rfl hcovers hdecode
      · exact step_of_placed (s := s.withFetchWord 32 w) (op := .header) rfl rfl rfl (by decide) rfl hcovers hdecode

/-! ## The flag window (R103, R105) -/

theorem nextFlag_of_exhausted {fw : BitVec 9} (hwindow : windowExhausted fw = true) : nextFlag fw = none :=
  if_pos hwindow

theorem nextFlag_of_not_exhausted {fw : BitVec 9} (hwindow : windowExhausted fw = false) :
    nextFlag fw = some (flagBit fw, windowShift fw) :=
  if_neg (by simp [hwindow])

/-- An operation without operand runs as it is. -/
theorem step_of_no_operand {s : State} {op : Opcode} {i : Instr} (hhost : s.host = []) (henabled : enabledOp s = some op)
    (hdecode : decode op [] = .ok (i, [])) : step s = exec i s := by
  have hsize : op.size = 0 := by simpa using (decode_ok_opcode hdecode).2.symm
  exact stepRunsDecodedOperation s op [] i hhost henabled (by omega) (by rw [hsize, Memory.readBytes]) hdecode

/-- Settles O18: the two functions test the same window, and FLAGTAKE takes the bit `next_flag` delivers. -/
theorem nextFlagAgreesWithTheStep : Obligations.NextFlagAgreesWithTheStep := by
  intro s hhost hstate
  cases hwindow : windowExhausted s.fw with
  | true =>
    rw [nextFlag_of_exhausted hwindow]
    exact ⟨fun _ => enabledOp_of_selectedBy ⟨hstate, hwindow⟩, nofun⟩
  | false =>
    rw [nextFlag_of_not_exhausted hwindow]
    refine ⟨nofun, fun flag fw hnext => ?_⟩
    cases hnext
    exact step_of_no_operand hhost (enabledOp_of_selectedBy (op := .flagtake) ⟨hstate, hwindow⟩) rfl

/-- The refilled window, shifted so many times. -/
theorem refill_shift_toNat (b : Byte) (k : Nat) : (refill b >>> k).toNat = (0x100 + b.toNat) / 2 ^ k := by
  rw [BitVec.toNat_ushiftRight, refill_toNat, Nat.shiftRight_eq_div_pow]

/-- Settles O17: before the eighth shift the sentinel lies above bit 0, after it at bit 0. -/
theorem eightFlagsPerFlagByte : Obligations.EightFlagsPerFlagByte := by
  intro b
  have hlt := b.isLt
  have hlast : refill b >>> 8 = 1 := by
    refine BitVec.eq_of_toNat_eq ?_
    rw [refill_shift_toNat]
    change _ = 1
    omega
  refine ⟨fun k hk => ?_, ?_, hlast⟩
  · have hwindow : windowExhausted (refill b >>> k) = false := by
      refine (windowExhausted_eq_false_iff _).mpr fun hzero => ?_
      have hvalue : (0x100 + b.toNat) / 2 ^ (k + 1) = 0 := by
        rw [← refill_shift_toNat, BitVec.shiftRight_add, hzero]
        rfl
      have hpow : 2 ^ (k + 1) ≤ 2 ^ 8 := Nat.pow_le_pow_right Nat.two_pos hk
      have hpositive : 0 < (0x100 + b.toNat) / 2 ^ (k + 1) := Nat.div_pos (by omega) (Nat.two_pow_pos _)
      omega
    have hflag : flagBit (refill b >>> k) = b.getLsbD k := by
      rw [flagBit, BitVec.getLsbD_ushiftRight, Nat.add_zero, refill_eq_append, BitVec.getLsbD_append, if_pos hk]
    rw [nextFlag_of_not_exhausted hwindow, hflag, windowShift, ← BitVec.shiftRight_add]
  · rw [hlast]
    rfl

/-! ## The descriptor's fields under the default layout (R81) -/

/-- Settles O11: the shifter is two bits from bit 3 on, and inverting three bits subtracts them from 7. -/
theorem descriptorFieldsUnderDefaultLayout : Obligations.DescriptorFieldsUnderDefaultLayout := by
  refine ⟨fun d => ⟨?_, ?_⟩, rfl, rfl, rfl⟩
  · rw [shifterOf, BitVec.extractLsb'_toNat, Nat.shiftRight_eq_div_pow]
    rfl
  · have hones : (7#3 : BitVec 3) = BitVec.allOnes 3 := rfl
    rw [lenBitsOf, hones, BitVec.xor_allOnes, BitVec.toNat_not, BitVec.extractLsb'_toNat]
    rfl

/-! ## The distance field (R69, R121, R129) -/

theorem bigEndian16_toNat (hi lo : Byte) : (bigEndian16 hi lo).toNat = hi.toNat * 256 + lo.toNat := by
  rw [bigEndian16, BitVec.toNat_append, ← Nat.shiftLeft_add_eq_or_of_lt lo.isLt, Nat.shiftLeft_eq]

/-- Settles O21: the two bytes are the operand, and a BACKREF that does not fault loads it and what follows from it. -/
theorem distanceFieldIsBigEndian : Obligations.DistanceFieldIsBigEndian := by
  intro s t hi lo hhost hstate hleft hhi hlo hstep hcopy
  have hread : s.inMem.readBytes s.cur Opcode.backref.size = some [hi, lo] := by
    simp [Opcode.size, Memory.readBytes, hhi, hlo]
  have hleft' : Opcode.backref.size ≤ s.inLen - s.cur := Nat.le_sub_of_add_le (by rw [Nat.add_comm]; exact hleft)
  rw [stepRunsDecodedOperation s .backref _ _ hhost (enabledOp_of_selectedBy hstate) hleft' hread rfl] at hstep
  rcases execBackref_next hstep with ⟨-, -, -, hrange, length, -, rfl⟩ | ⟨e, -, rfl⟩
  · exact ⟨bigEndian16_toNat hi lo, rfl, Nat.sub_add_cancel hrange⟩
  · cases hcopy

/-- A BACKREF with the method loaded whose operand R69 allows (R120, R129). -/
theorem MethodLoaded.execBackref_of_wellFormed {s : State} {dist : BitVec 16} (h : MethodLoaded s) (hleft : 2 ≤ s.inLen - s.cur)
    (hbit : refIndexBit s.lenBits dist = true) (hrange : refDisplacement s.lenBits dist ≤ s.outLen) :
    ∃ length : BitVec 10, length.toNat = lastEntry s ∧ execBackref dist s = .next { s.consume 2 with
      dist := dist
      length := length
      disp := displacementOf s.lenBits dist
      src := s.outLen - (displacementOf s.lenBits dist).toNat
      rem := length
      state := .copy } := by
  have hmask := h.maskedValue_toNat dist
  rw [if_pos hbit] at hmask
  have hmasked : maskedValue s.lenMask dist ≠ 0 := fun hzero => by
    have hpos := (lenMaskOf_pos s.lenBits).1
    rw [← h.lenMask, ← hmask, hzero] at hpos
    exact absurd hpos (by decide)
  have hlength : tableRead s.lt ((maskedValue s.lenMask dist).toNat - 1) =
      some (BitVec.ofNat 10 (copyLengthOf s.params.layout s.desc)) := by rw [hmask, h.tableRead_last]
  refine ⟨_, h.length_eq hmasked hlength, ?_⟩
  rw [execBackref_of_entry hleft hmasked hlength]
  exact completes_next.mpr (.inl ((startCopy_ok (s := s.consume 2)).mpr
    ⟨displacementOf_ne_zero hbit, (displacementOf_toNat _ _).trans_le hrange, rfl⟩))

/-- Settles O22: a clear index bit is InvalidLengthIndex, a displacement beyond the output CopyOutOfRange, and no other test can fail. -/
theorem oneBitMaskConsequences : Obligations.OneBitMaskConsequences := by
  intro s d hmethod hstate hleft
  have hadvance : advance 2 s = .ok (s.consume 2) := advance_two_of_left hleft
  have hloaded : MethodLoaded (s.consume 2) := { hmethod with }
  cases hbit : refIndexBit s.lenBits d with
  | false =>
    refine ⟨_, execBackref_of_clear hadvance hloaded hbit, ?_, nofun, fun _ => faultEntered_faultEntry .invalidLengthIndex s⟩
    simp [Instr.wellFormed, hbit]
  | true =>
    have hodd := refDisplacement_odd.mpr hbit
    have hnonzero : refDisplacement s.lenBits d ≠ 0 := by omega
    rcases Nat.lt_or_ge s.outLen (refDisplacement s.lenBits d) with hbeyond | hrange
    · have hexec : execBackref d s = .next (faultEntry .copyOutOfRange s) := by
        rw [execBackref_of_set hadvance hloaded hbit, (startCopy_error (s := s.consume 2)).mpr
          (.inr ⟨displacementOf_ne_zero hbit, hbeyond.trans_eq (displacementOf_toNat _ _).symm, rfl⟩), completes_error]
      refine ⟨_, hexec, ?_, nofun, fun _ => faultEntered_faultEntry .copyOutOfRange s⟩
      simp [Instr.wellFormed, hbeyond]
    · obtain ⟨length, hlength, hexec⟩ := hmethod.execBackref_of_wellFormed hleft hbit hrange
      refine ⟨_, hexec, ?_, fun _ => ⟨hlength, ?_, rfl⟩, fun hcopy => absurd rfl hcopy⟩
      · simp [Instr.wellFormed, hbit, hnonzero, hrange]
      · exact (congrArg (· % 2) (displacementOf_toNat _ _)).trans hodd

/-! ## The copy loop in closed form (R128) -/

/-- The state after a visit of COPY that copies `b`. -/
def State.copied (b : Byte) (s : State) : State :=
  { s.push b with src := s.src + 1, rem := s.rem - 1 }

section CopyLoop

variable {s : State} {b : Byte}

theorem State.copied_outByte : (s.copied b).outByte s.outLen = some b :=
  State.push_outByte

theorem State.copied_outByte_of_lt {a : Nat} (ha : a < s.outLen) : (s.copied b).outByte a = s.outByte a := by
  rw [State.outByte, State.outByte, if_pos ha]
  exact (if_pos (ha.trans s.outLen.lt_succ_self)).trans (State.push_read_of_ne ha.ne)

theorem step_copy {n : Nat} (hhost : s.host = []) (hstate : s.state = .copy) (hrem : s.rem.toNat = n + 1)
    (hread : s.outByte s.src = some b) (hroom : OutputRoom s (n + 1)) : step s = .next (s.copied b) := by
  have hnonzero : s.rem ≠ 0 := fun hzero => by simp [hzero] at hrem
  have hnotFull : s.params.outMax ≠ some s.outLen := fun hfull => by
    have hfits := hroom s.outLen hfull
    omega
  rw [step_of_no_operand hhost (enabledOp_of_selectedBy (op := .copy) hstate) rfl]
  exact execCopy_of_room hnonzero hread hnotFull

/-- In a cycle of `d` places the place after `j % d` is the next one, or the first. -/
theorem cycle_succ (j : Nat) {d : Nat} (hd : 1 ≤ d) :
    (j % d + 1 = (j + 1) % d) ∨ (j % d + 1 = d ∧ (j + 1) % d = 0) := by
  have hlt := Nat.mod_lt j hd
  rw [Nat.add_mod_eq_ite]
  rcases Nat.eq_or_lt_of_le hd with rfl | hlarge
  · simp [Nat.mod_one]
  · rw [Nat.mod_eq_of_lt hlarge]
    split <;> omega

/-- R128 for `n` bytes still to copy. -/
theorem copyLoop_cyclic {d n : Nat} (hhost : s.host = []) (hstate : s.state = .copy) (hd : 1 ≤ d) (hsrc : s.src + d = s.outLen)
    (hfilled : ∀ a, a < s.outLen → (s.outMem.read a).isSome = true) (hrem : s.rem.toNat = n) (hroom : OutputRoom s n) :
    ∃ t, runFor n s = .next t ∧ t.state = .copy ∧ t.rem = 0 ∧ t.outLen = s.outLen + n ∧
      (∀ i, i < n → t.outByte (s.outLen + i) = s.outByte (s.outLen - d + i % d)) ∧
      (∀ a, a < s.outLen → t.outByte a = s.outByte a) ∧
      step t = .next { t with state := .count } := by
  induction n generalizing s with
  | zero =>
    have hzero : s.rem = 0 := BitVec.eq_of_toNat_eq hrem
    refine ⟨s, rfl, hstate, hzero, rfl, nofun, fun _ _ => rfl, ?_⟩
    rw [step_of_no_operand hhost (enabledOp_of_selectedBy (op := .copy) hstate) rfl]
    exact execCopy_of_rem_zero hzero
  | succ n ih =>
    have hbelow : s.src < s.outLen := by omega
    obtain ⟨b, hb⟩ := Option.isSome_iff_exists.mp (hfilled s.src hbelow)
    have hread : s.outByte s.src = some b := by rw [State.outByte, if_pos hbelow, hb]
    have hnext : (s.copied b).outLen = s.outLen + 1 := rfl
    have hrem' : (s.copied b).rem.toNat = n := by
      change (s.rem - 1).toNat = n
      bv_omega
    have hfilled' : ∀ a, a < (s.copied b).outLen → ((s.copied b).outMem.read a).isSome = true := fun a ha => by
      change ((s.outMem.write s.outLen b).read a).isSome = true
      rw [Memory.read_write]
      split
      next => rfl
      next hne => exact hfilled a (by omega)
    have hroom' : OutputRoom (s.copied b) n := fun m hm => by
      have hfits := hroom m hm
      omega
    obtain ⟨t, hrun, htstate, htrem, htlen, hcyclic, hkept, hend⟩ :=
      ih (s := s.copied b) hhost hstate (by change s.src + 1 + d = s.outLen + 1; omega) hfilled' hrem' hroom'
    have hfirst : t.outByte s.outLen = s.outByte (s.outLen - d) := by
      rw [hkept s.outLen (by omega), State.copied_outByte, ← hread]
      congr 1
      omega
    refine ⟨t, ?_, htstate, htrem, by omega, fun i hi => ?_, fun a ha => ?_, hend⟩
    · rw [runFor, step_copy hhost hstate hrem hread hroom]
      exact hrun
    · cases i with
      | zero => rw [Nat.add_zero, hfirst, Nat.zero_mod, Nat.add_zero]
      | succ j =>
        have hj := hcyclic j (by omega)
        rw [hnext, Nat.add_assoc, Nat.add_comm 1 j] at hj
        have hlt := Nat.mod_lt (j + 1) hd
        rw [hj]
        rcases cycle_succ j hd with hinside | ⟨hwrap, hstart⟩
        · rw [show s.outLen + 1 - d + j % d = s.outLen - d + (j + 1) % d by omega]
          exact State.copied_outByte_of_lt (by omega)
        · rw [show s.outLen + 1 - d + j % d = s.outLen by omega, hstart, State.copied_outByte, ← hread, Nat.add_zero]
          congr 1
          omega
    · rw [hkept a (by omega), State.copied_outByte_of_lt ha]

end CopyLoop

/-- Settles O24: by induction on the bytes still to copy. -/
theorem copyLoopRepeatsCyclically : Obligations.CopyLoopRepeatsCyclically :=
  fun _ _ hhost hstate hd hsrc hfilled hroom => copyLoop_cyclic hhost hstate hd hsrc hfilled rfl hroom

/-! ## Where the engine rests, and where the model stops (R30, R41, R7, R189) -/

/-- Settles O9: nothing is enabled in the three states. -/
theorem quiescentStatesHold : Obligations.QuiescentStatesHold := by
  intro s hhost hquiet
  rw [step, stepOnce_engine hhost, engineStep_of_quiet (enabledOp_eq_none_iff.mpr hquiet)]

theorem execBackref_of_no_entry {s : State} {dist : BitVec 16} (hleft : 2 ≤ s.inLen - s.cur)
    (hbeyond : 128 < (maskedValue s.lenMask dist).toNat) :
    execBackref dist s = .fault (.tableEntryUndefined ((maskedValue s.lenMask dist).toNat - 1)) := by
  have hmasked : maskedValue (s.consume 2).lenMask dist ≠ 0 := fun hzero => by
    rw [show maskedValue s.lenMask dist = 0 from hzero] at hbeyond
    exact absurd hbeyond (by decide)
  have hentry : tableRead (s.consume 2).lt ((maskedValue (s.consume 2).lenMask dist).toNat - 1) = none :=
    Vector.getElem?_eq_none (Nat.le_sub_of_add_le hbeyond)
  simp only [execBackref, advance_two_of_left hleft, if_neg hmasked, hentry]
  rfl

/-- Settles O35: each stop is the branch of its read or its load where there is no value or no address. -/
theorem undefinedReadsStop : Obligations.UndefinedReadsStop := by
  refine ⟨fun s op hhost henabled hleft hmissing => ?_, fun s => execCopy_of_unwritten, fun s d => execBackref_of_no_entry,
    fun s addr m bytes later hstatus hmax hbeyond hhost => ?_⟩
  · have hfetch : fetchOperand op s = .unloaded s.cur := by
      simp only [fetchOperand, if_neg (Nat.not_lt.mpr hleft), hmissing]
    rw [step, stepOnce_engine hhost, engineStep, fetchInstr_of_enabled henabled, hfetch]
  · have hbusy : State.busy { s with host := later } = false := busy_eq_false_of_status_ne hstatus
    have hends : State.fitsIn { s with host := later } (addr + bytes.length) = false :=
      Bool.eq_false_iff.mpr fun hfits => absurd (fitsIn_iff.mp hfits m hmax) (Nat.not_le.mpr hbeyond)
    rw [step_of_host hhost, hostStep, hostLoadIn, hbusy, hends]
    rfl

end Sys2Proof.Machine

/-! # The host's moves: commands, premises, loading, reset, and the way out of FAULT (10_state.md R25, R30, 60 R181, 70 R201 to R204) -/

namespace Sys2Proof.Machine

/-- Settles O36: bit 1 is tested first, and a command issued is run with the move gone from the queue. -/
theorem commandWritesIssueCommands : Obligations.CommandWritesIssueCommands := by
  intro s value later hhost
  rw [step_of_host hhost, hostStep, hostWriteCmd, decodeCmd]
  refine ⟨fun habort => ?_, fun habort hstart => ?_, fun habort hstart => ?_⟩
  · rw [if_pos habort]
  · rw [if_neg (by simp [habort]), if_pos hstart]
  · rw [if_neg (by simp [habort]), if_neg (by simp [hstart])]

/-- Settles O38: a load is refused by its test for BUSY, a length by its test against IN_MAX. -/
theorem brokenPremisesAreRefused : Obligations.BrokenPremisesAreRefused := by
  refine fun s later => ⟨fun addr bytes hstatus hhost => ?_, fun value m hstatus hmax hbeyond hhost => ?_⟩
  · have hbusy : State.busy { s with host := later } = true := status_eq_one_iff.mp hstatus
    rw [step_of_host hhost, hostStep, hostLoadIn, if_pos hbusy]
  · have hbusy : ¬State.busy { s with host := later } = true := by
      simpa using (busy_eq_false_of_status_ne hstatus : State.busy { s with host := later } = false)
    have hrefused : ¬State.fitsIn { s with host := later } (withinAddrWidth s.params.inMax value) = true := fun hfits => by
      have hle := fitsIn_iff.mp hfits m hmax
      rw [hmax, withinAddrWidth] at hle
      omega
    rw [step_of_host hhost, hostStep, hostWriteInLen, if_neg hbusy, if_neg hrefused]

/-- Settles O39: a load that fits writes its own addresses, lowest first. -/
theorem loadingPlacesInputBytes : Obligations.LoadingPlacesInputBytes := by
  intro s addr bytes later hstatus hfits hhost
  have hbusy : ¬State.busy { s with host := later } = true := by
    simpa using (busy_eq_false_of_status_ne hstatus : State.busy { s with host := later } = false)
  have hends : State.fitsIn { s with host := later } (addr + bytes.length) = true := fitsIn_iff.mpr hfits
  refine ⟨{ s with host := later, inMem := s.inMem.load addr bytes }, ?_, rfl, Memory.read_load s.inMem addr bytes⟩
  rw [step_of_host hhost, hostStep, hostLoadIn, if_neg hbusy, if_pos hends]

/-- Settles O42: reset sets each register named, and leaves no byte of OUT. -/
theorem resetMayComeInAnyState : Obligations.ResetMayComeInAnyState := by
  intro s later hhost
  exact ⟨hostReset { s with host := later }, step_of_host hhost, rfl, rfl, rfl, rfl, rfl, rfl, rfl, ⟨rfl, rfl, rfl⟩, rfl, rfl, rfl,
    outByte_eq_none_of_empty rfl, rfl, rfl⟩

/-! ## The way out of FAULT (R181, R182) -/

section Fault

variable {s t : State} {m : HostMove}

theorem hostWriteCfg_err (value : Nat) (s : State) : (hostWriteCfg value s).err = s.err := by
  unfold hostWriteCfg
  split <;> rfl

/-- START outside a run leads to TINY or HEADER with ERR at 0 (R141). -/
theorem execStart_next_of_not_busy (hidle : s.status ≠ 1) (h : exec .start s = .next t) :
    (t.state = .tiny ∨ t.state = .header) ∧ t.err = 0 := by
  rw [execStart_of_not_busy hidle, Host.Outcome.next.injEq] at h
  subst h
  refine ⟨?_, rfl⟩
  by_cases htiny : s.tinyEn = true ∧ s.inLen ≤ tinyInputLimit
  · exact .inl (if_pos htiny)
  · exact .inr (if_neg htiny)

/-- In FAULT every move of the host keeps STATE and ERR but START, ABORT and reset. -/
theorem hostStep_of_fault (hfault : s.state = .fault) (hstep : hostStep m s = .next t) :
    (t.state = .fault ∧ t.err = s.err) ∨
    (∃ value, m = .writeCmd value ∧
      ((decodeCmd value = some .start ∧ t.state ≠ .idle) ∨ (decodeCmd value = some .abort ∧ t.state = .idle)) ∧ t.err = 0) ∨
    (m = .reset ∧ t.state = .idle ∧ t.err = 0) := by
  have hquiet : s.state = .idle ∨ s.state = .done ∨ s.state = .fault := .inr (.inr hfault)
  cases m with
  | pass =>
    cases (engineStep_of_quiet (enabledOp_eq_none_iff.mpr hquiet)).symm.trans hstep
    exact .inl ⟨hfault, rfl⟩
  | writeCfg value =>
    cases hstep
    exact .inl ⟨(hostWriteCfg_state value s).trans hfault, hostWriteCfg_err value s⟩
  | writeInLen value =>
    rcases hostWriteInLen_next hstep with ⟨-, rfl⟩ | ⟨-, n, -, rfl⟩ <;> exact .inl ⟨hfault, rfl⟩
  | loadIn addr bytes =>
    obtain ⟨-, -, rfl⟩ := hostLoadIn_next hstep
    exact .inl ⟨hfault, rfl⟩
  | writeCmd value =>
    rw [hostStep, hostWriteCmd] at hstep
    rcases decodeCmd_cases value with hcmd | hcmd | hcmd <;> rw [hcmd] at hstep
    · cases hstep
      exact .inr (.inl ⟨value, rfl, .inr ⟨hcmd, rfl⟩, rfl⟩)
    · obtain ⟨hstate, herr⟩ := execStart_next_of_not_busy (status_ne_one_of_quiet hquiet) hstep
      refine .inr (.inl ⟨value, rfl, .inl ⟨hcmd, fun hidle => ?_⟩, herr⟩)
      rcases hstate with hstate | hstate <;> cases hidle.symm.trans hstate
    · cases hstep
      exact .inl ⟨hfault, rfl⟩
  | reset =>
    cases hstep
    exact .inr (.inr ⟨rfl, rfl, rfl⟩)

end Fault

/-- Settles O34: without a host move FAULT rests, and of the host's moves the three named lead out. -/
theorem onlyTheHostLeavesFault : Obligations.OnlyTheHostLeavesFault := by
  intro s t hfault hstep hchanged
  cases hhost : s.host with
  | nil =>
    cases (quiescentStatesHold s hhost (.inr (.inr hfault))).symm.trans hstep
    exact (hchanged.elim (absurd hfault) (absurd rfl) :)
  | cons m later =>
    rw [step_of_host hhost] at hstep
    rcases hostStep_of_fault (s := { s with host := later }) hfault hstep with
      ⟨hstate, herr⟩ | ⟨value, rfl, hcmd, herr⟩ | ⟨rfl, hreset⟩
    · exact (hchanged.elim (absurd hstate) (absurd herr) :)
    · exact .inl ⟨value, later, rfl, hcmd, herr⟩
    · exact .inr ⟨later, rfl, hreset⟩

end Sys2Proof.Machine

/-! # The host's archive parser (45_host_wrapper.md R160 to R163)

Each reader is told by the length of the bytes: too short and it fails, long enough and it reads the little-endian numbers. -/

namespace Sys2Proof.Machine

section Archive

variable {bytes : List Byte}

/-! ## One field -/

theorem littleEndianAt_drop (bytes : List Byte) (a b : Nat) : littleEndianAt (bytes.drop a) b = littleEndianAt bytes (a + b) := by
  rw [littleEndianAt, littleEndianAt, List.drop_drop]

theorem takeLe32_of_short (hshort : bytes.length < 4) : takeLe32 bytes = none := by
  match bytes with
  | [] | [_] | [_, _] | [_, _, _] => rfl
  | _ :: _ :: _ :: _ :: _ =>
    simp only [List.length_cons] at hshort
    omega

theorem takeLe32_of_enough (hlength : 4 ≤ bytes.length) :
    ∃ x, takeLe32 bytes = some (x, bytes.drop 4) ∧ x.toNat = littleEndianAt bytes 0 := by
  match bytes with
  | [] | [_] | [_, _] | [_, _, _] => simp at hlength
  | b0 :: b1 :: b2 :: b3 :: rest =>
    refine ⟨_, rfl, ?_⟩
    have h0 := b0.isLt
    have h1 := b1.isLt
    have h2 := b2.isLt
    rw [BitVec.toNat_append, BitVec.toNat_append, BitVec.toNat_append, ← Nat.shiftLeft_add_eq_or_of_lt h0,
      ← Nat.shiftLeft_add_eq_or_of_lt h1, ← Nat.shiftLeft_add_eq_or_of_lt h2, Nat.shiftLeft_eq, Nat.shiftLeft_eq,
      Nat.shiftLeft_eq]
    simp only [littleEndianAt, List.drop_zero, List.take_succ_cons, List.take_zero, List.foldr_cons, List.foldr_nil]
    omega

/-! ## The entries -/

/-- The three numbers of every entry stand one after another from offset `a` on. -/
def EntriesAt (bytes : List Byte) (a : Nat) (entries : List (BitVec 32 × BitVec 32 × BitVec 32)) : Prop :=
  ∀ (k : Nat) (x y z : BitVec 32), entries[k]? = some (x, y, z) →
    x.toNat = littleEndianAt bytes (a + 12 * k) ∧ y.toNat = littleEndianAt bytes (a + 12 * k + 4) ∧
      z.toNat = littleEndianAt bytes (a + 12 * k + 8)

theorem EntriesAt.of_drop {a b : Nat} {entries : List (BitVec 32 × BitVec 32 × BitVec 32)} (h : EntriesAt (bytes.drop a) b entries) :
    EntriesAt bytes (a + b) entries := by
  intro k x y z hentry
  have hnumbers := h k x y z hentry
  simpa only [littleEndianAt_drop, Nat.add_assoc] using hnumbers

theorem takeEntries_of_short {n : Nat} (hshort : bytes.length < 12 * n) : takeEntries n bytes = none := by
  induction n generalizing bytes with
  | zero => exact absurd hshort (Nat.not_lt_zero _)
  | succ n ih =>
    have hfield {β : Type} {m : Nat} (f : BitVec 32 × List Byte → Option β)
        (hf : 4 * m + 4 ≤ bytes.length → ∀ x, f (x, bytes.drop (4 * m + 4)) = none) :
        (takeLe32 (bytes.drop (4 * m))).bind f = none := by
      rcases Nat.lt_or_ge (bytes.drop (4 * m)).length 4 with hno | hyes
      · rw [takeLe32_of_short hno, Option.bind_none]
      · obtain ⟨x, hx, -⟩ := takeLe32_of_enough hyes
        rw [List.length_drop] at hyes
        rw [hx, Option.bind_some, List.drop_drop]
        exact hf (by omega) x
    refine hfield (m := 0) _ fun _ x => hfield (m := 1) _ fun _ y => hfield (m := 2) _ fun hthree z => ?_
    have hrest : takeEntries n (bytes.drop (4 * 2 + 4)) = none := ih (by rw [List.length_drop]; omega)
    simp only [hrest]
    rfl

theorem takeEntries_of_enough {n : Nat} (hlength : 12 * n ≤ bytes.length) :
    ∃ entries, takeEntries n bytes = some (entries, bytes.drop (12 * n)) ∧ entries.length = n ∧ EntriesAt bytes 0 entries := by
  induction n generalizing bytes with
  | zero => exact ⟨[], rfl, rfl, by simp [EntriesAt]⟩
  | succ n ih =>
    obtain ⟨x, hx, hxNumber⟩ := takeLe32_of_enough (bytes := bytes) (by omega)
    obtain ⟨y, hy, hyNumber⟩ := takeLe32_of_enough (bytes := bytes.drop 4) (by rw [List.length_drop]; omega)
    obtain ⟨z, hz, hzNumber⟩ := takeLe32_of_enough (bytes := bytes.drop 8) (by rw [List.length_drop]; omega)
    obtain ⟨entries, hentries, hcount, hnumbers⟩ := ih (bytes := bytes.drop 12) (by rw [List.length_drop]; omega)
    rw [List.drop_drop] at hy hz hentries
    rw [littleEndianAt_drop] at hyNumber hzNumber
    refine ⟨(x, y, z) :: entries, ?_, by rw [List.length_cons, hcount], fun k x' y' z' hk => ?_⟩
    · simp only [takeEntries, hx, hy, hz, hentries, Option.bind_eq_bind, Option.bind_some]
      rw [Nat.mul_succ, Nat.add_comm 12]
      rfl
    · cases k with
      | zero =>
        cases hk
        exact ⟨hxNumber, hyNumber, hzNumber⟩
      | succ k =>
        have hlater := hnumbers.of_drop k x' y' z' hk
        rwa [show 12 + 0 + 12 * k = 0 + 12 * (k + 1) by omega] at hlater

/-! ## The whole header -/

/-- A header reads these fields of the container (R160, R163). -/
structure ReadsFields (container : List Byte) (h : ArchiveHeader) : Prop where
  version : h.version.toNat = littleEndianAt container 0
  identifier : h.identifier.toNat = littleEndianAt container 4
  fileCount : h.fileCount.toNat = littleEndianAt container 8
  entryCount : h.entries.length = h.fileCount.toNat
  entries : EntriesAt container 12 h.entries
  checksum : h.checksum = (container.drop (12 + 12 * h.fileCount.toNat)).take 4
  payloadOffset : h.payloadOffset = 0x800

theorem takeArchiveFields_of_short {container : List Byte} (hshort : container.length < 16 + 12 * littleEndianAt container 8) :
    takeArchiveFields container = none := by
  rw [takeArchiveFields]
  rcases Nat.lt_or_ge container.length 4 with hno | h4
  · rw [takeLe32_of_short hno]
    rfl
  · obtain ⟨version, hversion, -⟩ := takeLe32_of_enough h4
    simp only [hversion, Option.bind_eq_bind, Option.bind_some]
    rcases Nat.lt_or_ge (container.drop 4).length 4 with hno | h8
    · rw [takeLe32_of_short hno]
      rfl
    · obtain ⟨identifier, hidentifier, -⟩ := takeLe32_of_enough h8
      simp only [hidentifier, Option.bind_some, List.drop_drop]
      rcases Nat.lt_or_ge (container.drop 8).length 4 with hno | h12
      · rw [takeLe32_of_short hno]
        rfl
      · obtain ⟨fileCount, hfileCount, hnumber⟩ := takeLe32_of_enough h12
        rw [littleEndianAt_drop, Nat.add_zero] at hnumber
        rw [List.length_drop] at h12
        simp only [hfileCount, Option.bind_some, List.drop_drop]
        rcases Nat.lt_or_ge (container.drop 12).length (12 * fileCount.toNat) with hno | hentries
        · rw [takeEntries_of_short hno]
          rfl
        · obtain ⟨entries, htaken, -⟩ := takeEntries_of_enough hentries
          simp only [htaken, Option.bind_some, List.drop_drop]
          rw [takeLe32_of_short (by rw [List.length_drop]; omega)]
          rfl

theorem takeArchiveFields_of_enough {container : List Byte} (hlength : 16 + 12 * littleEndianAt container 8 ≤ container.length) :
    ∃ h, takeArchiveFields container = some h ∧ ReadsFields container h := by
  obtain ⟨version, hversion, hv⟩ := takeLe32_of_enough (bytes := container) (by omega)
  obtain ⟨identifier, hidentifier, hi⟩ := takeLe32_of_enough (bytes := container.drop 4) (by rw [List.length_drop]; omega)
  obtain ⟨fileCount, hfileCount, hf⟩ := takeLe32_of_enough (bytes := container.drop 8) (by rw [List.length_drop]; omega)
  rw [littleEndianAt_drop, Nat.add_zero] at hi hf
  obtain ⟨entries, hentries, hcount, hnumbers⟩ :=
    takeEntries_of_enough (n := fileCount.toNat) (bytes := container.drop 12) (by rw [List.length_drop]; omega)
  obtain ⟨checksum, hchecksum, -⟩ :=
    takeLe32_of_enough (bytes := container.drop (12 + 12 * fileCount.toNat)) (by rw [List.length_drop]; omega)
  rw [List.drop_drop] at hidentifier hfileCount hentries
  refine ⟨{ version, identifier, fileCount, entries, checksum := (container.drop (12 + 12 * fileCount.toNat)).take 4,
            payloadOffset := archivePayloadOffset }, ?_, ?_⟩
  · simp only [takeArchiveFields, hversion, hidentifier, hfileCount, hentries, hchecksum, Option.bind_eq_bind, Option.bind_some]
    rfl
  · exact { version := hv, identifier := hi, fileCount := hf, entryCount := hcount, entries := hnumbers.of_drop,
            checksum := rfl, payloadOffset := rfl }

/-- The parser by the container's length: with either size, where it succeeds and what it reads (R161, R163). -/
theorem parseArchiveHeader_cases (size : HeaderSize) (container : List Byte) :
    ((16 + 12 * littleEndianAt container 8 ≤ container.length ∧ (size = .beforePayload → 0x800 ≤ container.length)) ∧
      ∃ h, parseArchiveHeader size container = .ok h ∧ ReadsFields container h) ∨
    (¬(16 + 12 * littleEndianAt container 8 ≤ container.length ∧ (size = .beforePayload → 0x800 ≤ container.length)) ∧
      parseArchiveHeader size container = .error .truncatedHeader) := by
  rw [parseArchiveHeader]
  by_cases hsize : size = .beforePayload ∧ container.length < archivePayloadOffset
  · rw [if_pos hsize]
    obtain ⟨hbefore, hshort⟩ := hsize
    exact .inr ⟨fun hlong => absurd (hlong.2 hbefore) (Nat.not_le.mpr hshort), rfl⟩
  · rw [if_neg hsize]
    have hpayload : size = .beforePayload → 0x800 ≤ container.length := fun hbefore =>
      Nat.le_of_not_lt fun hshort => hsize ⟨hbefore, hshort⟩
    by_cases hfields : 16 + 12 * littleEndianAt container 8 ≤ container.length
    · obtain ⟨h, htaken, hreads⟩ := takeArchiveFields_of_enough hfields
      rw [htaken]
      exact .inl ⟨⟨hfields, hpayload⟩, h, rfl, hreads⟩
    · rw [takeArchiveFields_of_short (Nat.lt_of_not_le hfields)]
      exact .inr ⟨fun hlong => hfields hlong.1, rfl⟩

end Archive

/-- Settles O60: by the two outcomes of the parser. -/
theorem archiveParserReadsLittleEndian : Obligations.ArchiveParserReadsLittleEndian := by
  refine ⟨fun size container e herror => ?_, fun size container => ?_, fun _ => rfl, fun size container h hok => ?_,
    fun container k => List.getElem?_drop⟩
  · rcases parseArchiveHeader_cases size container with ⟨-, h, hok, -⟩ | ⟨-, hfails⟩
    · cases hok.symm.trans herror
    · cases hfails.symm.trans herror
      rfl
  · rcases parseArchiveHeader_cases size container with ⟨hlong, h, hok, -⟩ | ⟨hshort, hfails⟩
    · exact iff_of_true ⟨h, hok⟩ hlong
    · exact iff_of_false (fun ⟨h, hok⟩ => by cases hok.symm.trans hfails) hshort
  · rcases parseArchiveHeader_cases size container with ⟨-, h', hok', hreads⟩ | ⟨-, hfails⟩
    · cases hok'.symm.trans hok
      exact ⟨hreads.version, hreads.identifier, hreads.fileCount, hreads.entryCount, hreads.entries, hreads.checksum,
        hreads.payloadOffset⟩
    · cases hfails.symm.trans hok

end Sys2Proof.Machine
